-- ==== Sys2Proof/Word.lean ====
section
/-! DEFINITION. The widths the spec fixes (spec/00_scope.md rule R9) as word types. -/

namespace Sys2Proof

/-- A register or data value: 8 bits (R9). -/
abbrev Byte := BitVec 8

/-- A command word `cmd`: 16 bits (R9, R70). -/
abbrev CmdWord := BitVec 16

/-- A host register offset, the width of the port `h_addr` (R20). -/
abbrev Offset := BitVec 4

end Sys2Proof
end

