-- ==== Sys2Proof/Syntax.lean ====
section
/-! DEFINITION. The command set, one constructor per row of spec/opcode_table.json (spec/30_encoding.md R75). An operand
is a field the operation uses; fields it does not use are ignored (R77) and stand in no constructor. -/

namespace Sys2Proof

/-- A command of the block (R75). `val` is VAL (R74), `n` the bit count NM1 + 1 (R72), `dir` is DIR (R73). -/
inductive Instr where
  /-- OP 0x0 (R110). -/
  | nop
  /-- OP 0x1 (R111). -/
  | busReset
  /-- OP 0x2 (R112): `WRITE_BITS #val, n`. -/
  | writeBits (val : Byte) (n : Nat)
  /-- OP 0x3 (R113): `READ_BITS n`. -/
  | readBits (n : Nat)
  /-- OP 0x4 (R114): `TRIPLET dir`. -/
  | triplet (dir : Bool)
  /-- OP 0x5 (R94): `CRC_LOAD #val`. -/
  | crcLoad (val : Byte)
  /-- OP 0x6 (R95): `CRC_UPDATE #val`. -/
  | crcUpdate (val : Byte)
  /-- OP 0x7 (R76): the reserved row with match 0x7000. -/
  | reserved7
  /-- OP 0x8 to 0xF (R76): the reserved row with match 0x8000; `op` is the whole field OP. -/
  | reservedHigh (op : BitVec 4)
deriving DecidableEq, Repr

/-- The pseudo-commands of R79, and WRITE_BITS and READ_BITS with `n` omitted (R78). -/
inductive Pseudo where
  | writeByte (v : Byte)
  | readByte
  | writeBit (b : Bool)
  | readBit
  | crcClear
  | writeBitsDefault (v : Byte)
  | readBitsDefault
deriving DecidableEq, Repr

/-- The expansion column of R79. An omitted `n` is 8 (R78). -/
def Pseudo.expand : Pseudo → Instr
  | .writeByte v => .writeBits v 8
  | .readByte => .readBits 8
  | .writeBit b => .writeBits (if b then 1 else 0) 1
  | .readBit => .readBits 1
  | .crcClear => .crcLoad 0
  | .writeBitsDefault v => .writeBits v 8
  | .readBitsDefault => .readBits 8

end Sys2Proof
end

