-- ==== Sys2Proof/WellFormed.lean ====
section
/-! DEFINITION. Which commands have an encoding (R72, R76), and which of them a program may use (R76, U12). -/

namespace Sys2Proof

namespace Instr

/-- A command that some word encodes: the bit count is 1 to 8 (R72), and the high reserved row has OP 0x8 to 0xF (R76). -/
abbrev wf : Instr → Prop
  | nop => True
  | busReset => True
  | writeBits _ n => 1 ≤ n ∧ n ≤ 8
  | readBits n => 1 ≤ n ∧ n ≤ 8
  | triplet _ => True
  | crcLoad _ => True
  | crcUpdate _ => True
  | reserved7 => True
  | reservedHigh op => 8 ≤ op.toNat

/-- `OP >= 0x7`: the command has a reserved opcode (R76, R100). -/
def isReserved : Instr → Bool
  | nop => false
  | busReset => false
  | writeBits _ _ => false
  | readBits _ => false
  | triplet _ => false
  | crcLoad _ => false
  | crcUpdate _ => false
  | reserved7 => true
  | reservedHigh _ => true

/-- The "timed" column of R75: acceptance raises BUSY. -/
def isTimed : Instr → Bool
  | nop => false
  | busReset => true
  | writeBits _ _ => true
  | readBits _ => true
  | triplet _ => true
  | crcLoad _ => false
  | crcUpdate _ => false
  | reserved7 => false
  | reservedHigh _ => false

/-- What a program may issue: an encodable command with a defined opcode ("a program must not use them", R76; U12;
notes/assumptions/10.md). -/
abbrev programMayUse (i : Instr) : Prop := i.wf ∧ i.isReserved = false

end Instr

end Sys2Proof
end

