-- ==== Sys2Proof/Decode.lean ====
section
/-! DEFINITION. Decoding and encoding of the one format CMD16 (spec/30_encoding.md R70 to R79; spec/opcode_table.json). -/

namespace Sys2Proof

/-- `OP = cmd[15:12]` (R71). -/
def opField (w : CmdWord) : BitVec 4 := w.extractLsb' 12 4

/-- `NM1 = cmd[11:9]` (R72). -/
def nm1Field (w : CmdWord) : BitVec 3 := w.extractLsb' 9 3

/-- `DIR = cmd[8]` (R73). -/
def dirField (w : CmdWord) : Bool := w.getLsbD 8

/-- `VAL = cmd[7:0]` (R74). -/
def valField (w : CmdWord) : Byte := w.extractLsb' 0 8

/-- The bit count `n = zext_4(NM1) + 1` (R72). -/
def countOf (nm1 : BitVec 3) : Nat := nm1.toNat + 1

/-- The command a word stands for (R75). Every word has one: reserved opcodes are commands too (R76), and fields outside the
"uses" column are dropped (R77). -/
def decodeWord (w : CmdWord) : Instr :=
  match (opField w).toNat with
  | 0 => .nop
  | 1 => .busReset
  | 2 => .writeBits (valField w) (countOf (nm1Field w))
  | 3 => .readBits (countOf (nm1Field w))
  | 4 => .triplet (dirField w)
  | 5 => .crcLoad (valField w)
  | 6 => .crcUpdate (valField w)
  | 7 => .reserved7
  | _ => .reservedHigh (opField w)

/-- Why a byte string is no command: it ends before the two bytes of a word (R70: "There is no other length"). -/
inductive DecodeError where
  | wordCutShort
deriving DecidableEq, Repr

/-- The command at the front of a byte string, low byte first (R55: `cmd[7:0]` is CMDL at offset 0, `cmd[15:8]` goes to CMDH
at offset 1), with the bytes after it. -/
def decodeBytes : List Byte → Except DecodeError (Instr × List Byte)
  | lo :: hi :: rest => .ok (decodeWord (hi ++ lo), rest)
  | [_] => .error .wordCutShort
  | [] => .error .wordCutShort

/-- The word with given fields (R70). -/
def wordOf (op : BitVec 4) (nm1 : BitVec 3) (dir : Bool) (val : Byte) : CmdWord :=
  op ++ nm1 ++ BitVec.ofBool dir ++ val

/-- `NM1 = n - 1` (R72). -/
def nm1Of (n : Nat) : BitVec 3 := BitVec.ofNat 3 (n - 1)

/-- The canonical word of a command: the R78 column "word", ignored fields zero (R77). -/
def encode : Instr → CmdWord
  | .nop => wordOf 0x0 0 false 0
  | .busReset => wordOf 0x1 0 false 0
  | .writeBits v n => wordOf 0x2 (nm1Of n) false v
  | .readBits n => wordOf 0x3 (nm1Of n) false 0
  | .triplet d => wordOf 0x4 0 d 0
  | .crcLoad v => wordOf 0x5 0 false v
  | .crcUpdate v => wordOf 0x6 0 false v
  | .reserved7 => wordOf 0x7 0 false 0
  | .reservedHigh op => wordOf op 0 false 0

/-- The low byte of a word, the one the host writes to CMDL (R55, R80). -/
def lowByte (w : CmdWord) : Byte := w.extractLsb' 0 8

/-- The high byte of a word, the one the host writes to CMDH (R55, R80). -/
def highByte (w : CmdWord) : Byte := w.extractLsb' 8 8

/-- The two bytes of a command in the order of their register offsets (R55). -/
def encodeBytes (i : Instr) : List Byte := [lowByte (encode i), highByte (encode i)]

/-- The fields an opcode uses, as a mask over the word ("uses" of R75, with OP itself). -/
def usedMask (op : BitVec 4) : CmdWord :=
  match op.toNat with
  | 0 => 0xF000
  | 1 => 0xF000
  | 2 => 0xFEFF
  | 3 => 0xFE00
  | 4 => 0xF100
  | 5 => 0xF0FF
  | 6 => 0xF0FF
  | _ => 0xF000

/-- A row of spec/opcode_table.json: its match and mask. -/
structure OpcodeRow where
  pattern : CmdWord
  mask : CmdWord
deriving DecidableEq, Repr

/-- A word belongs to a row. -/
def OpcodeRow.matches (r : OpcodeRow) (w : CmdWord) : Bool := w &&& r.mask == r.pattern

/-- The rows of spec/opcode_table.json, in its order. -/
def opcodeRows : List OpcodeRow :=
  [⟨0x0000, 0xF000⟩, ⟨0x1000, 0xF000⟩, ⟨0x2000, 0xF000⟩, ⟨0x3000, 0xF000⟩, ⟨0x4000, 0xF000⟩, ⟨0x5000, 0xF000⟩,
    ⟨0x6000, 0xF000⟩, ⟨0x7000, 0xF000⟩, ⟨0x8000, 0x8000⟩]

/-- The place of a command's row in the table. -/
def rowIndex : Instr → Nat
  | .nop => 0
  | .busReset => 1
  | .writeBits _ _ => 2
  | .readBits _ => 3
  | .triplet _ => 4
  | .crcLoad _ => 5
  | .crcUpdate _ => 6
  | .reserved7 => 7
  | .reservedHigh _ => 8

/-- The bytes of a table word of `nbits` bits, laid out by register offset (R55): the bits above `nbits` are zero. -/
def tableBytes (nbits w : Nat) : List Byte :=
  let word : CmdWord := BitVec.ofNat 16 (w % 2 ^ nbits)
  [lowByte word, highByte word]

/-- The command the decoder reads from a table word of `nbits` bits. -/
def decodeTableWord (nbits w : Nat) : Option Instr :=
  match decodeBytes (tableBytes nbits w) with
  | .ok (i, _) => some i
  | .error _ => none

end Sys2Proof
end

