-- ==== Sys2Proof/Config.lean ====
section
/-! DEFINITION. The parameters of one block instance (spec/00_scope.md R4 to R8, R14), and the values the spec leaves
open, as constants with no body. -/

namespace Sys2Proof

/-- `RESET_RETRY_ON` (R8): the presence answer on which BUS_RESET makes another attempt. -/
inductive RetryOn where
  | presence
  | noPresence
deriving DecidableEq, Repr

/-- The complete parameter set of one instance (R14). Durations are whole microseconds (R6). -/
structure Config where
  /-- `CLK_PER_US` (R4): clock cycles in one microsecond. -/
  clkPerUs : Nat
  /-- `OW_BASE` (R5): the host address of register offset 0. The spec gives a host address no width; a natural number of any size is the
model's choice (DESIGN CHOICE, notes/assumptions/16.md). -/
  owBase : Nat
  /-- `T_RSTL`: reset, line driven low. -/
  tRstl : Nat
  /-- `T_PDS`: reset, release to presence sample. -/
  tPds : Nat
  /-- `T_RSTR`: reset, sample to end of attempt. -/
  tRstr : Nat
  /-- `T_SLOT`: length of one bit slot. -/
  tSlot : Nat
  /-- `T_W1L`: write 1, low time. -/
  tW1l : Nat
  /-- `T_W1H`: write 1, release time. -/
  tW1h : Nat
  /-- `T_W0L`: write 0, low time. -/
  tW0l : Nat
  /-- `T_W0H`: write 0, release time. -/
  tW0h : Nat
  /-- `T_RL`: read, low time. -/
  tRl : Nat
  /-- `T_RS`: read, release to sample. -/
  tRs : Nat
  /-- `T_RH`: read, sample to end of slot. -/
  tRh : Nat
  /-- `RESET_RETRIES` (R7): the most extra attempts of one BUS_RESET. -/
  resetRetries : Nat
  /-- `RESET_RETRY_ON` (R8). -/
  retryOn : RetryOn
  /-- `SYNC_STAGES` (R14, R109): cycles of the input synchronizer. -/
  syncStages : Nat
deriving DecidableEq, Repr

namespace Config

/-- `CLK_PER_US` is OPEN (R14): the instance's value less one, of which nothing is known (notes/assumptions/3.md). -/
opaque openClkPerUsPred : Nat

/-- `OW_BASE` is OPEN (R14): the instance's value, of which nothing is known (notes/assumptions/3.md). -/
opaque openOwBase : Nat

/-- U4 of spec/93_implementation_defined.md: whether a device holds the line low in the cycle before edge number `n`, for
an edge that `State.pins` lists nothing for. A free draw (R129, notes/assumptions/5.md). -/
opaque freeDevLow : Nat → Bool

/-- U10 of spec/93_implementation_defined.md: byte `i` of the `code` output of `read_rom` when no presence was found
(R145: "unspecified"; notes/assumptions/13.md). -/
opaque unspecifiedCodeByte : Nat → Byte

/-- The parameter set with the defaults of R6, R7, R8 and R14, for given values of the two OPEN parameters. -/
def defaults (clkPerUs owBase : Nat) : Config where
  clkPerUs := clkPerUs
  owBase := owBase
  tRstl := 490
  tPds := 70
  tRstr := 410
  tSlot := 70
  tW1l := 6
  tW1h := 64
  tW0l := 60
  tW0h := 10
  tRl := 6
  tRs := 9
  tRh := 55
  resetRetries := 4
  retryOn := .presence
  syncStages := 2

/-- The instance `State.reset` describes: the spec's defaults, and the OPEN parameters left open. -/
def fresh : Config := defaults (openClkPerUsPred + 1) openOwBase

/-- The length of one reset attempt, `T_RSTL + T_PDS + T_RSTR` (R6, R105). -/
def attempt (c : Config) : Nat := c.tRstl + c.tPds + c.tRstr

/-- What R4 and R6 ask of a parameter set: `CLK_PER_US` is positive, every slot form fills `T_SLOT`, and every slot and
reset pulse opens by driving the line low (R13 "Bit slot"; notes/assumptions/4.md). -/
abbrev wf (c : Config) : Prop :=
  0 < c.clkPerUs ∧ c.tW0l + c.tW0h = c.tSlot ∧ c.tW1l + c.tW1h = c.tSlot ∧ c.tRl + c.tRs + c.tRh = c.tSlot ∧
    0 < c.tRstl ∧ 0 < c.tW1l ∧ 0 < c.tW0l ∧ 0 < c.tRl

/-- R211: the presence sample lies in "a sampling window 60–75µs after release". -/
abbrev presenceWindow (c : Config) : Prop := 60 ≤ c.tPds ∧ c.tPds ≤ 75

/-- R211: the bit slot is "~60–70µs" long. -/
abbrev slotWindow (c : Config) : Prop := 60 ≤ c.tSlot ∧ c.tSlot ≤ 70

/-- R211: "master low ≥480µs". -/
abbrev isResetPulse (low : Nat) : Prop := 480 ≤ low

/-- R211: "short low pulse (~6µs)", taken as exact (notes/assumptions/15.md). -/
abbrev isShortPulse (low : Nat) : Prop := low = 6

/-- R211: "long low pulse (~60µs)", taken as exact (notes/assumptions/15.md). -/
abbrev isLongPulse (low : Nat) : Prop := low = 60

/-- The protocol windows of R211, which a changed constant must keep for the reference environment to stay valid. -/
abbrev meetsWindows (c : Config) : Prop :=
  isResetPulse c.tRstl ∧ c.presenceWindow ∧ c.slotWindow ∧ isShortPulse c.tW1l ∧ isShortPulse c.tRl ∧ isLongPulse c.tW0l

end Config

end Sys2Proof
end

