-- ==== Sys2Proof/Machine/State.lean ====
section
/-! DEFINITION. The state of the block (spec/10_state.md), as plain data, and its value after reset (R33). -/

namespace Sys2Proof.Machine

/-- The input ports at one rising edge of `clk` (R20), and the devices' part of the line (R21). -/
structure Pins where
  /-- `rst`. -/
  rst : Bool
  /-- `h_we`. -/
  hWe : Bool
  /-- `h_addr`. -/
  hAddr : Offset
  /-- `h_wdata`. -/
  hWdata : Byte
  /-- Some device on the line holds it low in the cycle that ends at this edge (R21). -/
  devLow : Bool
deriving DecidableEq, Repr

/-- A timed command with its latched fields: what `cur` of R28 can be while the sequencer runs (R100;
notes/assumptions/8.md). -/
inductive Timed where
  | busReset
  | writeBits (val : Byte) (n : Nat)
  | readBits (n : Nat)
  | triplet (dir : Bool)
deriving DecidableEq, Repr

/-- The fields of `RUN(cur, t, k, sh, a1, a2)` (R28), with the prescaler of R23 and the `p` of R111. -/
structure Run where
  /-- `cur`: the latched command. -/
  cur : Timed
  /-- `t`: microseconds since acceptance. -/
  t : Nat
  /-- The prescaler (R23): cycles since the last microsecond boundary. -/
  sub : Nat
  /-- `k`: the current slot or attempt. -/
  k : Nat
  /-- `sh`: the bits read so far. -/
  sh : Byte
  /-- `a1`: first bit of a TRIPLET. -/
  a1 : Bool
  /-- `a2`: second bit of a TRIPLET. -/
  a2 : Bool
  /-- `p` of R111: the presence answer of the current attempt, once sampled (notes/assumptions/9.md). -/
  p : Bool
deriving DecidableEq, Repr

/-- The sequencer `SEQ` (R28). -/
inductive Seq where
  | idle
  | run (r : Run)
deriving DecidableEq, Repr

/-- The block between two rising edges of `clk`. -/
structure State where
  /-- The parameters of the instance (R14). No step changes them (notes/assumptions/2.md). -/
  cfg : Config
  /-- `CMDL` (R24). -/
  cmdl : Byte
  /-- `STATUS.PD` (R26). -/
  pd : Bool
  /-- `STATUS.BF` (R26). -/
  bf : Bool
  /-- `STATUS.ILL` (R26). -/
  ill : Bool
  /-- `STATUS.CERR` (R26). -/
  cerr : Bool
  /-- `DATA` (R27). -/
  data : Byte
  /-- `CRC` (R29). -/
  crc : Byte
  /-- `SEQ` (R28); `STATUS.BUSY` is read from it (R30). -/
  seq : Seq
  /-- The registered output `ow_oe` (R20, R101). -/
  owOe : Bool
  /-- The input synchronizer (R109): the last SYNC_STAGES values of `ow_in`, newest first. -/
  sync : List Bool
  /-- The inputs of the coming edges, next first; past its end the host makes no access (notes/assumptions/5.md). -/
  pins : List Pins
  /-- The number of edges so far: the index of the next free draw (the model's own field, notes/assumptions/5.md). -/
  edges : Nat
deriving DecidableEq, Repr

/-- Why the machine could stop. The block has no traps: nothing makes it trap, halt or stop accepting commands (R180), so no
reason exists. -/
inductive Fault where
deriving DecidableEq, Repr

/-- Why a command could have no meaning. -/
inductive Refusal where
  /-- Raised only by an arm of `exec` that has no meaning yet; there is none. Safe: the machine stops. -/
  | notModelled (mnemonic : String)
deriving DecidableEq, Repr

/-- The answer of a step or of a command. -/
abbrev Answer := Host.Outcome State Fault Refusal

/-- The block right after `rst` (R33). The parameters are the instance's; the synchronizer, which R33 does not list, holds the
level of a released line (DESIGN CHOICE, notes/assumptions/6.md). -/
def State.reset : State where
  cfg := Config.fresh
  cmdl := 0x00
  pd := false
  bf := false
  ill := false
  cerr := false
  data := 0x00
  crc := 0x00
  seq := .idle
  owOe := false
  sync := [true, true]
  pins := []
  edges := 0

end Sys2Proof.Machine
end

