-- ==== Sys2Proof/Machine/Flags.lean ====
section
/-! DEFINITION. STATUS and its flags (spec/10_state.md R26, R30; spec/60_exceptions.md R181). -/

namespace Sys2Proof.Machine

/-- `BUSY = (SEQ != IDLE)` (R30). -/
def State.busy (s : State) : Bool :=
  match s.seq with
  | .idle => false
  | .run _ => true

/-- The register STATUS (R26): bits 7:5 are hardwired 0. -/
def State.status (s : State) : Byte :=
  0#3 ++ BitVec.ofBool s.cerr ++ BitVec.ofBool s.ill ++ BitVec.ofBool s.bf ++ BitVec.ofBool s.pd ++ BitVec.ofBool s.busy

/-- The flag updates of an acceptance (R100): CERR and BF cleared, ILL set exactly for a reserved opcode. -/
def State.acceptFlags (ill : Bool) (s : State) : State :=
  { s with cerr := false, bf := false, ill := ill }

/-- A CMDH write while BUSY = 1 (R183): CERR is set, the word is lost and nothing else changes. -/
def State.dropCommand (s : State) : State := { s with cerr := true }

/-- The error outcomes E1 to E5 (R181). -/
inductive ErrorCode where
  | e1NoPresence
  | e2BusFault
  | e3Integrity
  | e4IllegalCommand
  | e5CommandWhileBusy
deriving DecidableEq, Repr

/-- The "recorded as" column of R181, as a host reads it. -/
def ErrorCode.recorded (e : ErrorCode) (s : State) : Bool :=
  match e with
  | .e1NoPresence => !s.pd
  | .e2BusFault => s.bf
  | .e3Integrity => s.crc != 0
  | .e4IllegalCommand => s.ill
  | .e5CommandWhileBusy => s.cerr

end Sys2Proof.Machine
end

