-- ==== Sys2Proof/Machine/Operands.lean ====
section
/-! DEFINITION. Operand forms: bits of VAL and of the shift register, and the two-bit results of TRIPLET. -/

namespace Sys2Proof.Machine

/-- Bit `i` of a byte, `v[i]` (R10). Wire bit `i` of a transfer is bit `i` of the value (R56). -/
def bitOf (v : Byte) (i : Nat) : Bool := v.getLsbD i

/-- `v` with bit `i` replaced by `b`: `v[i] <- b` (R113). -/
def setBit (v : Byte) (i : Nat) (b : Bool) : Byte :=
  if b then v ||| (1#8 <<< i) else v &&& ~~~(1#8 <<< i)

/-- `v[n-1:0]`, zero-extended (R10). -/
def lowBits (v : Byte) (n : Nat) : Byte := v &&& (BitVec.ofNat 8 (2 ^ n - 1))

/-- The direction TRIPLET writes when a device answered (R114): the hint on 0b00, else the only populated branch. `a1` is
`r[0]`, `a2` is `r[1]`. -/
def tripletDir (dir a1 a2 : Bool) : Bool :=
  match a2, a1 with
  | false, false => dir
  | false, true => true
  | true, false => false
  | true, true => dir

/-- `r == 0b11`: no device answered (R114). -/
def tripletFault (a1 a2 : Bool) : Bool := a1 && a2

/-- The DATA value of a TRIPLET, `{0b00000, d, a2, a1}` (R27, R114). -/
def tripletData (d a1 a2 : Bool) : Byte :=
  0#5 ++ BitVec.ofBool d ++ BitVec.ofBool a2 ++ BitVec.ofBool a1

end Sys2Proof.Machine
end

