-- ==== Sys2Proof/Machine/Wire.lean ====
section
/-! DEFINITION. The time axis of the wire primitives RESET_ATTEMPT, WRITE_SLOT and READ_SLOT (spec/41_bus_primitives.md R101,
R104 to R108): when the line is driven low and when it is sampled. -/

namespace Sys2Proof.Machine

/-- The low time of `WRITE_SLOT(b)` (R107). -/
def writeLow (c : Config) (b : Bool) : Nat := if b then c.tW1l else c.tW0l

/-- The length of the slots of a command: an attempt for BUS_RESET, else T_SLOT (R104). -/
def Timed.slotLength (c : Config) : Timed → Nat
  | .busReset => c.attempt
  | .writeBits _ _ => c.tSlot
  | .readBits _ => c.tSlot
  | .triplet _ => c.tSlot

/-- The low time of slot `r.k` (R105, R107, R108). The third slot of a TRIPLET is `WRITE_SLOT(d)` (R114). -/
def Run.lowTime (c : Config) (r : Run) : Nat :=
  match r.cur with
  | .busReset => c.tRstl
  | .writeBits v _ => writeLow c (bitOf v r.k)
  | .readBits _ => c.tRl
  | .triplet d => if r.k < 2 then c.tRl else writeLow c (tripletDir d r.a1 r.a2)

/-- The time since the start of the current slot: slot `k` starts at `k` times the slot length (R104). -/
def Run.slotTime (c : Config) (r : Run) : Nat := r.t - r.k * r.cur.slotLength c

/-- The line drive of the current slot: low until its low time has passed, then released (R101, R105, R107, R108). -/
def Run.drive (c : Config) (r : Run) : Bool := decide (r.slotTime c < r.lowTime c)

/-- `SAMPLE()` of RESET_ATTEMPT falls at this boundary (R105). -/
def presenceInstant (c : Config) (r : Run) : Bool := r.slotTime c == c.tRstl + c.tPds

/-- `SAMPLE()` of READ_SLOT falls at this boundary (R108). -/
def readInstant (c : Config) (r : Run) : Bool := r.slotTime c == c.tRl + c.tRs

/-- The current slot or attempt is over. -/
def Run.slotOver (c : Config) (r : Run) : Bool := decide (r.cur.slotLength c ≤ r.slotTime c)

/-- `again(p, k)` (R106). -/
def again (c : Config) (p : Bool) (k : Nat) : Bool :=
  decide (k < c.resetRetries) &&
    match c.retryOn with
    | .presence => p
    | .noPresence => !p

end Sys2Proof.Machine
end

