-- ==== Sys2Proof/Machine/Ops.lean ====
section
/-! DEFINITION. The shared operations: ports and line, register reads and writes, reset, acceptance, and the moves of the
sequencer. The block takes no exceptions (R180), so there is no exception entry and no return among them. -/

namespace Sys2Proof.Machine

/-- An edge with no reset and no host access (R53). -/
def Pins.quiet (devLow : Bool) : Pins where
  rst := false
  hWe := false
  hAddr := 0
  hWdata := 0
  devLow := devLow

/-- The inputs at the coming edge: the next listed ones, else a quiet host and a free draw of the line (R129). -/
def State.nextPins (s : State) : Pins := s.pins.headD (Pins.quiet (Config.freeDevLow s.edges))

/-- The inputs `j` edges after the coming one. -/
def State.pinsAt (s : State) (j : Nat) : Pins := s.pins.getD j (Pins.quiet (Config.freeDevLow (s.edges + j)))

/-- The line level, 1 = high: low if the block drives it or a device holds it low (R21). -/
def lineLevel (owOe devLow : Bool) : Bool := !(owOe || devLow)

/-- `ow_in` at the coming edge (R20, R21). -/
def State.owIn (s : State) : Bool := lineLevel s.owOe s.nextPins.devLow

/-- `SAMPLE()` at the coming edge: `ow_in` as it was SYNC_STAGES edges before (R109; notes/assumptions/12.md). -/
def State.sampleNow (s : State) : Bool := (s.owIn :: s.sync).getD s.cfg.syncStages s.owIn

/-- What every edge does whatever the ports say: the synchronizer takes in `ow_in` (R109) and the edge's inputs are used up. -/
def State.clockIn (s : State) : State :=
  { s with sync := (s.owIn :: s.sync).take s.cfg.syncStages, pins := s.pins.tail, edges := s.edges + 1 }

/-- The effect of `rst = 1` (R33, R200). -/
def State.applyReset (s : State) : State :=
  { s with cmdl := 0x00, pd := false, bf := false, ill := false, cerr := false, data := 0x00, crc := 0x00, seq := .idle,
           owOe := false }

/-- `HostRead(off)`: the register at an offset (R24 to R29, R52, R53). -/
def State.hostRead (s : State) (off : Offset) : Byte :=
  match off.toNat with
  | 0 => s.cmdl
  | 1 => 0x00
  | 2 => s.status
  | 3 => s.data
  | 4 => s.crc
  | _ => 0x00

/-- The output port `h_rdata` (R20): the register at `h_addr`, from the current state. -/
def State.hRdata (s : State) : Byte := s.hostRead s.nextPins.hAddr

/-- The offset of a host address inside the block's 16 offsets at OW_BASE (R5, R51, R52). Host addresses are natural numbers, so
`OW_BASE + offset` never wraps (DESIGN CHOICE, notes/assumptions/16.md). -/
def Config.offsetOf (c : Config) (addr : Nat) : Option Offset :=
  if c.owBase ≤ addr ∧ addr < c.owBase + 16 then some (BitVec.ofNat 4 (addr - c.owBase)) else none

/-- A host read at a host address: the block answers at `OW_BASE + offset` only (R52). -/
def State.hostReadAt (s : State) (addr : Nat) : Option Byte := (Config.offsetOf s.cfg addr).map s.hostRead

/-- A host write to CMDL (R24). -/
def State.writeCmdl (v : Byte) (s : State) : State := { s with cmdl := v }

/-- The command word a CMDH write of `h` presents, `{h, CMDL}` (R25, R55). -/
def State.presentedWord (s : State) (h : Byte) : CmdWord := h ++ s.cmdl

/-- The command a CMDH write of `h` presents, read by the decoder from its two bytes (R55). -/
def State.presentedInstr (s : State) (h : Byte) : Instr := decodeWord (s.presentedWord h)

/-- Acceptance (R100), the operation every command goes through: a busy block drops the word, an idle one updates the flags
(`ill` says whether the opcode is reserved) and then takes the command's own effect. -/
def accepted (ill : Bool) (effect : State → State) (s : State) : Answer :=
  if s.busy then .next s.dropCommand else .next (effect (s.acceptFlags ill))

/-- `SEQ <- RUN(...)` with `ow_oe` as the time axis says at that instant (R101). -/
def State.resume (r : Run) (s : State) : State := { s with seq := .run r, owOe := r.drive s.cfg }

/-- The fields of a command that starts (R100: `t = 0`; R113: `sh <- 0x00`; `a1`, `a2` and `p` are written before use). -/
def Run.start (c : Timed) : Run where
  cur := c
  t := 0
  sub := 0
  k := 0
  sh := 0x00
  a1 := false
  a2 := false
  p := false

/-- The start of a timed command at its accepting edge (R100, R101). -/
def State.start (c : Timed) (s : State) : State := s.resume (Run.start c)

/-- `SEQ <- IDLE` at the completion edge; a command ends released (R102). -/
def State.complete (s : State) : State := { s with seq := .idle, owOe := false }

end Sys2Proof.Machine
end

