-- ==== Sys2Proof/Machine/Crc.lean ====
section
/-! DEFINITION. The CRC8 engine (spec/40_crc8.md) and the commands CRC_LOAD and CRC_UPDATE. -/

namespace Sys2Proof.Machine

/-- One shift of the loop body of R90. -/
def crcShift (x : Byte) : Byte := if x.getLsbD 0 then (x >>> 1) ^^^ 0x8C else x >>> 1

/-- `repeat m times` of the loop body of R90. -/
def crcRepeat : Nat → Byte → Byte
  | 0, x => x
  | m + 1, x => crcRepeat m (crcShift x)

/-- `crc8_update(c, d)` (R90). -/
def crc8Update (c d : Byte) : Byte := crcRepeat 8 (c ^^^ d)

/-- `crc8_fold_bit(c, b)` (R91). -/
def crc8FoldBit (c : Byte) (b : Bool) : Byte :=
  if c.getLsbD 0 ^^ b then (c >>> 1) ^^^ 0x8C else c >>> 1

/-- The fold of wire bits, first on the wire first (R92). -/
def crc8FoldBits (c : Byte) (bits : List Bool) : Byte := bits.foldl crc8FoldBit c

/-- `crc8(p)`: the fold of R93 from 0, without the final comparison (R96). -/
def crc8Of (bytes : List Byte) : Byte := bytes.foldl crc8Update 0

/-- `crc8_validate(bytes)` (R93). -/
def crc8Validate (bytes : List Byte) : Bool := crc8Of bytes == 0

/-- An identity code is well-formed: 8 bytes, of which byte 7 is the CRC8 of bytes 0 to 6 (R96). -/
def romWellFormed (rom : List Byte) : Bool := rom.length == 8 && crc8Of (rom.take 7) == rom.getD 7 0

/-- CRC_LOAD (R94): `CRC <- VAL` at the accepting edge. -/
def execCrcLoad (val : Byte) (s : State) : Answer :=
  accepted false (fun a => { a with crc := val }) s

/-- CRC_UPDATE (R95): `CRC <- crc8_update(CRC, VAL)` at the accepting edge. -/
def execCrcUpdate (val : Byte) (s : State) : Answer :=
  accepted false (fun a => { a with crc := crc8Update a.crc val }) s

end Sys2Proof.Machine
end

