-- ==== Sys2Proof/Machine/Bits.lean ====
section
/-! DEFINITION. WRITE_BITS and READ_BITS (spec/41_bus_primitives.md R107, R108, R112, R113). -/

namespace Sys2Proof.Machine

/-- WRITE_BITS at its accepting edge (R100): slot 0 begins. -/
def execWriteBits (val : Byte) (n : Nat) (s : State) : Answer := accepted false (State.start (.writeBits val n)) s

/-- READ_BITS at its accepting edge (R100): slot 0 begins, with an empty shift register. -/
def execReadBits (n : Nat) (s : State) : Answer := accepted false (State.start (.readBits n)) s

/-- WRITE_BITS at a microsecond boundary (R112): at the end of a slot the next one begins, or the command completes. -/
def writeBitsBoundary (n : Nat) (r : Run) (s : State) : State :=
  if r.slotOver s.cfg then
    if r.k + 1 < n then s.resume { r with k := r.k + 1 } else s.complete
  else s.resume r

/-- READ_BITS at a microsecond boundary (R113): the sample instant sets `sh[k]` and, for `n = 8`, folds into CRC; at the end of
the last slot `DATA <- sh`. -/
def readBitsBoundary (n : Nat) (smp : Bool) (r : Run) (s : State) : State :=
  let hit := readInstant s.cfg r
  let r' := { r with sh := if hit then setBit r.sh r.k smp else r.sh }
  let s' := { s with crc := if hit && n == 8 then crc8FoldBit s.crc smp else s.crc }
  if r'.slotOver s.cfg then
    if r'.k + 1 < n then s'.resume { r' with k := r'.k + 1 }
    else State.complete { s' with data := r'.sh }
  else s'.resume r'

end Sys2Proof.Machine
end

