-- ==== Sys2Proof/Machine/BusReset.lean ====
section
/-! DEFINITION. BUS_RESET (spec/41_bus_primitives.md R105, R106, R111). -/

namespace Sys2Proof.Machine

/-- BUS_RESET at its accepting edge (R100): the first attempt begins. -/
def execBusReset (s : State) : Answer := accepted false (State.start .busReset) s

/-- BUS_RESET at a microsecond boundary (R105, R111). `r` has reached the boundary, `smp` is `SAMPLE()` there. The presence
sample sets `p`; at the end of an attempt another one follows if `again(p, k)`, else `PD <- p` and the command completes. -/
def busResetBoundary (smp : Bool) (r : Run) (s : State) : State :=
  let r' := { r with p := if presenceInstant s.cfg r then !smp else r.p }
  if r'.slotOver s.cfg then
    if again s.cfg r'.p r'.k then s.resume { r' with k := r'.k + 1 }
    else State.complete { s with pd := r'.p }
  else s.resume r'

end Sys2Proof.Machine
end

