-- ==== Sys2Proof/Machine/Triplet.lean ====
section
/-! DEFINITION. TRIPLET (spec/41_bus_primitives.md R114): two read slots and a write slot, or none on 0b11. -/

namespace Sys2Proof.Machine

/-- TRIPLET at its accepting edge (R100): the first read slot begins. -/
def execTriplet (dir : Bool) (s : State) : Answer := accepted false (State.start (.triplet dir)) s

/-- TRIPLET at a microsecond boundary (R114). Slots 0 and 1 sample `a1` and `a2`; after slot 1 the command completes on 0b11
with BF, else slot 2 writes the direction, after which DATA takes the result. -/
def tripletBoundary (dir smp : Bool) (r : Run) (s : State) : State :=
  let hit := readInstant s.cfg r
  let r' := { r with a1 := if hit && r.k == 0 then smp else r.a1, a2 := if hit && r.k == 1 then smp else r.a2 }
  if r'.slotOver s.cfg then
    match r'.k with
    | 0 => s.resume { r' with k := 1 }
    | 1 =>
      if tripletFault r'.a1 r'.a2 then State.complete { s with data := tripletData dir true true, bf := true }
      else s.resume { r' with k := 2 }
    | _ => State.complete { s with data := tripletData (tripletDir dir r'.a1 r'.a2) r'.a1 r'.a2 }
  else s.resume r'

end Sys2Proof.Machine
end

