-- ==== Sys2Proof/Machine/Sequencer.lean ====
section
/-! DEFINITION. The sequencer at one clock edge (spec/10_state.md R23, R28; spec/41_bus_primitives.md R101, R102). -/

namespace Sys2Proof.Machine

/-- The running command at a microsecond boundary: `r.t` is that boundary and `smp` is `SAMPLE()` at it (R101). -/
def boundary (smp : Bool) (r : Run) (s : State) : State :=
  match r.cur with
  | .busReset => busResetBoundary smp r s
  | .writeBits _ n => writeBitsBoundary n r s
  | .readBits n => readBitsBoundary n smp r s
  | .triplet d => tripletBoundary d smp r s

/-- One edge of a running command: the prescaler counts CLK_PER_US cycles to each microsecond boundary (R23). -/
def tickRun (smp : Bool) (r : Run) (s : State) : State :=
  if r.sub + 1 < s.cfg.clkPerUs then { s with seq := .run { r with sub := r.sub + 1 } }
  else boundary smp { r with t := r.t + 1, sub := 0 } s

/-- One edge of the sequencer: nothing happens while it is idle (R195). -/
def State.tick (smp : Bool) (s : State) : State :=
  match s.seq with
  | .idle => s
  | .run r => tickRun smp r s

end Sys2Proof.Machine
end

