-- ==== Sys2Proof/Machine/Untimed.lean ====
section
/-! DEFINITION. The commands with no effect beyond acceptance: NOP (R110) and the reserved opcodes (R76, R182). -/

namespace Sys2Proof.Machine

/-- NOP (R110): the acceptance updates only. -/
def execNop (s : State) : Answer := accepted false id s

/-- OP 0x7 (R76, R182): ILL is set at acceptance, nothing else. -/
def execReserved7 (s : State) : Answer := accepted true id s

/-- OP 0x8 to 0xF (R76, R182): ILL is set at acceptance, nothing else, whichever opcode it is. -/
def execReservedHigh (_op : BitVec 4) (s : State) : Answer := accepted true id s

end Sys2Proof.Machine
end

