-- ==== Sys2Proof/Machine/Dispatch.lean ====
section
/-! DEFINITION. The meaning of each command, one arm per constructor. -/

namespace Sys2Proof.Machine

def exec (i : Instr) (s : State) : Host.Outcome State Fault Refusal :=
  match i with
  | .nop => Sys2Proof.Machine.execNop s
  | .busReset => Sys2Proof.Machine.execBusReset s
  | .writeBits val n => Sys2Proof.Machine.execWriteBits val n s
  | .readBits n => Sys2Proof.Machine.execReadBits n s
  | .triplet dir => Sys2Proof.Machine.execTriplet dir s
  | .crcLoad val => Sys2Proof.Machine.execCrcLoad val s
  | .crcUpdate val => Sys2Proof.Machine.execCrcUpdate val s
  | .reserved7 => Sys2Proof.Machine.execReserved7 s
  | .reservedHigh op => Sys2Proof.Machine.execReservedHigh op s

end Sys2Proof.Machine
end

