-- ==== Sys2Proof/Machine/Edge.lean ====
section
/-! DEFINITION. One rising edge of `clk`: reset, host access, sequencer (R20, R53, R100, R188, R200). -/

namespace Sys2Proof.Machine

/-- The host access of an edge (R24 to R29, R52, R53): a write to CMDL stores, a write to CMDH presents the command
`{h_wdata, CMDL}`, every other write is ignored, and a read changes nothing. -/
def hostAccess (p : Pins) (s : State) : Answer :=
  if p.hWe then
    match p.hAddr.toNat with
    | 0 => .next (s.writeCmdl p.hWdata)
    | 1 => exec (s.presentedInstr p.hWdata) s
    | _ => .next s
  else .next s

/-- One rising edge. Reset wins over everything (R188, R200). Otherwise the host access sees BUSY as it was before the edge
(R100), and a command that was running before the edge advances (R101), so that a completion and a dropped CMDH write at
one edge both happen (R188). -/
def clockEdge (s : State) : Answer :=
  if s.nextPins.rst then .next s.clockIn.applyReset
  else
    match hostAccess s.nextPins s.clockIn with
    | .next t => .next (if s.busy then t.tick s.sampleNow else t)
    | .fault f => .fault f
    | .refused r => .refused r

/-- The inputs of an edge at which the host writes `h` to CMDH; the line is the free draw of that edge. -/
def Pins.present (h : Byte) (devLow : Bool) : Pins where
  rst := false
  hWe := true
  hAddr := 1
  hWdata := h
  devLow := devLow

/-- `s` with a table word placed where the coming edge takes its command: CMDL holds the low byte, the coming edge writes the
high byte to CMDH, and the sequencer is idle, since a busy block drops the word (R55, R100). -/
def State.placeWord (s : State) (w : CmdWord) : State :=
  { s with cmdl := lowByte w, seq := .idle, owOe := false,
           pins := Pins.present (highByte w) (Config.freeDevLow s.edges) :: s.pins }

end Sys2Proof.Machine
end

