-- ==== Sys2Proof/Machine/Step.lean ====
section
/-! DEFINITION. One step of the machine is one rising edge of `clk`. -/

namespace Sys2Proof.Machine

/-- One step: one rising edge of `clk` (R20; notes/assumptions/1.md). -/
def step (s : State) : Host.Outcome State Fault Refusal := clockEdge s

/-- `s` with an instruction word placed where the next step takes its command from (R25, R55; notes/assumptions/7.md). -/
def State.withFetchWord (s : State) (nbits w : Nat) : State := s.placeWord (BitVec.ofNat 16 (w % 2 ^ nbits))

end Sys2Proof.Machine
end

