-- ==== Sys2Proof/Machine/Bus.lean ====
section
/-! DEFINITION. What answers the block's samples (spec/41_bus_primitives.md R129 to R131): the interface of a bus environment
at the level of slots and attempts, and the reference environment. It is no state of the block (R35;
notes/assumptions/11.md). -/

namespace Sys2Proof.Machine

/-- A bus environment with states `σ`: how it moves on each wire primitive, and the line level (`true` = high) at the sample
instant of those that sample. -/
structure BusEnv (σ : Type) where
  /-- `RESET_ATTEMPT()` (R105). -/
  rst : σ → Bool × σ
  /-- `WRITE_SLOT(b)` (R107): no sample is taken. -/
  writeSlot : Bool → σ → σ
  /-- `READ_SLOT()` (R108). -/
  readSlot : σ → Bool × σ

/-- The three slots of search participation (R131). -/
inductive SearchPhase where
  | idBit
  | cmpBit
  | dirBit
deriving DecidableEq, Repr

/-- The modes of a reference device (R131). -/
inductive Mode where
  | cmd (i : Nat) (v : Byte)
  | send (p : Nat)
  | matching (p : Nat)
  | search (p : Nat) (ph : SearchPhase)
  | idle
  | selected
deriving DecidableEq, Repr

/-- A reference device (R130). -/
structure Device where
  rom : List Byte
  alarm : Bool
  mode : Mode
deriving DecidableEq, Repr

/-- SEARCH_ROM (R81). -/
def searchRomByte : Byte := 0xF0

/-- READ_ROM (R81). -/
def readRomByte : Byte := 0x33

/-- MATCH_ROM (R81). -/
def matchRomByte : Byte := 0x55

/-- SKIP_ROM (R81). -/
def skipRomByte : Byte := 0xCC

/-- ALARM_SEARCH (R81). -/
def alarmSearchByte : Byte := 0xEC

/-- Position `p` of an 8-byte code: bit `p mod 8` of byte `p div 8` (R57, R161). -/
def codeBit (code : List Byte) (p : Nat) : Bool := bitOf (code.getD (p / 8) 0) (p % 8)

/-- `bit(x, p)` (R131). -/
def Device.bit (x : Device) (p : Nat) : Bool := codeBit x.rom p

/-- The mode a device takes after the 8 bits of a command byte (R131). -/
def Device.dispatch (x : Device) (v : Byte) : Mode :=
  if v = readRomByte then .send 0
  else if v = matchRomByte then .matching 0
  else if v = skipRomByte then .selected
  else if v = searchRomByte then .search 0 .idBit
  else if v = alarmSearchByte then (if x.alarm then .search 0 .idBit else .idle)
  else .idle

/-- The device drives 0 in a slot of kind `b` (R131): it holds the line low over the sample instant. -/
def Device.drivesZero (x : Device) (b : Bool) : Bool :=
  match x.mode with
  | .cmd _ _ => false
  | .send p => b && !x.bit p
  | .matching _ => false
  | .search p .idBit => !x.bit p
  | .search p .cmpBit => x.bit p
  | .search _ .dirBit => false
  | .idle => false
  | .selected => false

/-- The mode after a slot of kind `b`, which a receiving device takes as the bit `b` (R131). -/
def Device.afterSlot (x : Device) (b : Bool) : Mode :=
  match x.mode with
  | .cmd i v =>
    let v' := setBit v i b
    if i + 1 < 8 then .cmd (i + 1) v' else x.dispatch v'
  | .send p => if p < 63 then .send (p + 1) else .idle
  | .matching p => if b == x.bit p then (if p < 63 then .matching (p + 1) else .selected) else .idle
  | .search p .idBit => .search p .cmpBit
  | .search p .cmpBit => .search p .dirBit
  | .search p .dirBit => if b == x.bit p then (if p < 63 then .search (p + 1) .idBit else .selected) else .idle
  | .idle => .idle
  | .selected => .selected

/-- A device after a slot. -/
def Device.onSlot (b : Bool) (x : Device) : Device := { x with mode := x.afterSlot b }

/-- A device after a reset attempt (R131). -/
def Device.onReset (x : Device) : Device := { x with mode := .cmd 0 0 }

/-- The presence sample (R131): 0 exactly when there is a device. -/
def presenceLevel (ds : List Device) : Bool := ds.isEmpty

/-- The sample of an S1 slot (R131): 0 exactly when some device drives 0. -/
def slotLevel (ds : List Device) : Bool := !ds.any (fun x => x.drivesZero true)

/-- The reference bus environment (R130, R131), at the level of slots: `WRITE_SLOT(0)` is S0, and `WRITE_SLOT(1)` and `READ_SLOT` are
S1. R211 says for which timing constants it stands for the wire (Machine/Pulse.lean). -/
def refEnv : BusEnv (List Device) where
  rst ds := (presenceLevel ds, ds.map Device.onReset)
  writeSlot b ds := ds.map (Device.onSlot b)
  readSlot ds := (slotLevel ds, ds.map (Device.onSlot true))

/-- What R130 asks of the device set: every ROM code is well-formed. -/
def devicesWellFormed (ds : List Device) : Bool := ds.all (fun x => romWellFormed x.rom)

/-- The devices in `SEARCH(p, id)`: the set `A` of R132. -/
def searching (p : Nat) (ds : List Device) : List Device := ds.filter (fun x => x.mode == .search p .idBit)

end Sys2Proof.Machine
end

