-- ==== Sys2Proof/Machine/Command.lean ====
section
/-! DEFINITION. A whole command on an idle block, from its accepting edge to its completion, against a bus environment: the
pseudocode of R94, R95 and R110 to R114 read off at the level of slots. `Obligations` states that the clocked machine does
the same. -/

namespace Sys2Proof.Machine

/-- An idle block, its bus environment, and the wire time used so far in microseconds (R210). -/
structure Wired (σ : Type) where
  blk : State
  bus : σ
  us : Nat
deriving DecidableEq, Repr

/-- What a BUS_RESET leaves: the number of its last attempt, that attempt's presence, and the environment. -/
structure ResetResult (σ : Type) where
  k : Nat
  p : Bool
  bus : σ
deriving DecidableEq, Repr

/-- The loop of R111 from attempt `k` on. `fuel` bounds the attempts still allowed (R7). -/
def resetLoop {σ : Type} (env : BusEnv σ) (c : Config) : (fuel k : Nat) → σ → ResetResult σ
  | 0, k, w => ⟨k, !(env.rst w).1, (env.rst w).2⟩
  | fuel + 1, k, w =>
    let p := !(env.rst w).1
    if again c p k then resetLoop env c fuel (k + 1) (env.rst w).2 else ⟨k, p, (env.rst w).2⟩

/-- The loop of R112 from slot `i` on, with `m` slots left. -/
def writeLoop {σ : Type} (env : BusEnv σ) (v : Byte) : (m i : Nat) → σ → σ
  | 0, _, w => w
  | m + 1, i, w => writeLoop env v m (i + 1) (env.writeSlot (bitOf v i) w)

/-- What the loop of R113 carries. -/
structure ReadResult (σ : Type) where
  sh : Byte
  crc : Byte
  bus : σ
deriving DecidableEq, Repr

/-- The loop of R113 from slot `i` on, with `m` slots left; `fold` says whether `n = 8`. -/
def readLoop {σ : Type} (env : BusEnv σ) (fold : Bool) : (m i : Nat) → ReadResult σ → ReadResult σ
  | 0, _, y => y
  | m + 1, i, y =>
    let s := (env.readSlot y.bus).1
    readLoop env fold m (i + 1)
      ⟨setBit y.sh i s, if fold then crc8FoldBit y.crc s else y.crc, (env.readSlot y.bus).2⟩

/-- BUS_RESET as a whole (R111). -/
def wholeBusReset {σ : Type} (env : BusEnv σ) (y : Wired σ) : Wired σ :=
  let c := y.blk.cfg
  let q := resetLoop env c c.resetRetries 0 y.bus
  ⟨{ y.blk.acceptFlags false with pd := q.p }, q.bus, y.us + (q.k + 1) * c.attempt⟩

/-- WRITE_BITS as a whole (R112). -/
def wholeWriteBits {σ : Type} (env : BusEnv σ) (v : Byte) (n : Nat) (y : Wired σ) : Wired σ :=
  ⟨y.blk.acceptFlags false, writeLoop env v n 0 y.bus, y.us + n * y.blk.cfg.tSlot⟩

/-- READ_BITS as a whole (R113). -/
def wholeReadBits {σ : Type} (env : BusEnv σ) (n : Nat) (y : Wired σ) : Wired σ :=
  let q := readLoop env (n == 8) n 0 ⟨0x00, y.blk.crc, y.bus⟩
  ⟨{ y.blk.acceptFlags false with data := q.sh, crc := q.crc }, q.bus, y.us + n * y.blk.cfg.tSlot⟩

/-- TRIPLET as a whole (R114). -/
def wholeTriplet {σ : Type} (env : BusEnv σ) (dir : Bool) (y : Wired σ) : Wired σ :=
  let a1 := (env.readSlot y.bus).1
  let w1 := (env.readSlot y.bus).2
  let a2 := (env.readSlot w1).1
  let w2 := (env.readSlot w1).2
  if tripletFault a1 a2 then
    ⟨{ y.blk.acceptFlags false with data := tripletData dir true true, bf := true }, w2, y.us + 2 * y.blk.cfg.tSlot⟩
  else
    let d := tripletDir dir a1 a2
    ⟨{ y.blk.acceptFlags false with data := tripletData d a1 a2 }, env.writeSlot d w2, y.us + 3 * y.blk.cfg.tSlot⟩

/-- A whole command on an idle block (R100, R94, R95, R110 to R114). -/
def wholeCommand {σ : Type} (env : BusEnv σ) (i : Instr) (y : Wired σ) : Wired σ :=
  match i with
  | .nop => { y with blk := y.blk.acceptFlags false }
  | .busReset => wholeBusReset env y
  | .writeBits v n => wholeWriteBits env v n y
  | .readBits n => wholeReadBits env n y
  | .triplet d => wholeTriplet env d y
  | .crcLoad v => { y with blk := { y.blk.acceptFlags false with crc := v } }
  | .crcUpdate v => { y with blk := { y.blk.acceptFlags false with crc := crc8Update y.blk.crc v } }
  | .reserved7 => { y with blk := y.blk.acceptFlags true }
  | .reservedHigh _ => { y with blk := y.blk.acceptFlags true }

/-- The host pseudo-instruction `CMD c` (R80) on an idle block: `ISSUE c` writes CMDL and then CMDH, which presents the word,
and `WAITIDLE` polls until the command has completed. -/
def Wired.cmdWord {σ : Type} (env : BusEnv σ) (w : CmdWord) (y : Wired σ) : Wired σ :=
  let b := y.blk.writeCmdl (lowByte w)
  wholeCommand env (b.presentedInstr (highByte w)) { y with blk := b }

/-- `CMD` of a command by name (R80): its canonical word (R78). -/
def Wired.cmd {σ : Type} (env : BusEnv σ) (i : Instr) (y : Wired σ) : Wired σ := y.cmdWord env (encode i)

/-- `CMD` of a pseudo-command (R79). -/
def Wired.cmdPseudo {σ : Type} (env : BusEnv σ) (q : Pseudo) (y : Wired σ) : Wired σ := y.cmd env q.expand

/-- The host's inputs of `ISSUE c` (R80): two edges, each with the devices' part of the line given. -/
def issuePins (w : CmdWord) (low0 low1 : Bool) : List Pins :=
  [⟨false, true, 0, lowByte w, low0⟩, ⟨false, true, 1, highByte w, low1⟩]

/-- The host's input at one poll of `WAITIDLE` (R80): a read of STATUS at offset 2. -/
def pollPins (low : Bool) : Pins := ⟨false, false, 2, 0, low⟩

/-- The duration of a command in microseconds (R210), `k` being the retries a BUS_RESET made and `fault` whether a TRIPLET read
0b11. -/
def duration (c : Config) (i : Instr) (k : Nat) (fault : Bool) : Nat :=
  match i with
  | .nop => 0
  | .busReset => c.attempt * (k + 1)
  | .writeBits _ n => c.tSlot * n
  | .readBits n => c.tSlot * n
  | .triplet _ => if fault then 2 * c.tSlot else 3 * c.tSlot
  | .crcLoad _ => 0
  | .crcUpdate _ => 0
  | .reserved7 => 0
  | .reservedHigh _ => 0

end Sys2Proof.Machine
end

