-- ==== Sys2Proof/Machine/HostClock.lean ====
section
/-! DEFINITION. The host pseudo-instructions of spec/30_encoding.md R80 on the clock: a host that acts on what it reads. -/

namespace Sys2Proof.Machine

/-- `s` with the inputs `p` at the coming edge, whatever the list said: a host that decides its access from what it has read. -/
def State.withPins (p : Pins) (s : State) : State := { s with pins := [p] }

/-- `WAITIDLE` (R80), one poll an edge: STATUS is read until bit 0 is 0. `low` is the devices' part of the line at each edge, and
`fuel` bounds the polls, since the loop has no bound of its own (notes/assumptions/14.md). -/
def waitIdle (low : Nat → Bool) : (fuel : Nat) → State → Option State
  | 0, _ => none
  | fuel + 1, s =>
    if bitOf (s.hostRead 2) 0 then
      match step (s.withPins (pollPins (low s.edges))) with
      | .next t => waitIdle low fuel t
      | .fault _ => none
      | .refused _ => none
    else some s

/-- `ISSUE c` (R80): a write to CMDL and one to CMDH, at two edges. -/
def issue (low : Nat → Bool) (w : CmdWord) (s : State) : Option State :=
  match step (s.withPins ⟨false, true, 0, lowByte w, low s.edges⟩) with
  | .next t =>
    match step (t.withPins ⟨false, true, 1, highByte w, low t.edges⟩) with
    | .next u => some u
    | .fault _ => none
    | .refused _ => none
  | .fault _ => none
  | .refused _ => none

/-- `CMD c` (R80): `ISSUE c; WAITIDLE`. -/
def cmdOnClock (low : Nat → Bool) (fuel : Nat) (w : CmdWord) (s : State) : Option State :=
  (issue low w s).bind (waitIdle low fuel)

end Sys2Proof.Machine
end

