-- ==== Sys2Proof/Machine/Pulse.lean ====
section
/-! DEFINITION. The reference devices on a wire with times (spec/70_reset_and_hazards.md R211): a device tells the master's primitives
apart by the length of the low pulse alone. `Obligations` states for which timing constants this is the reference
environment of Machine/Bus.lean. -/

namespace Sys2Proof.Machine

/-- The events of R130. -/
inductive BusEvent where
  | rst
  | s0
  | s1
deriving DecidableEq, Repr

/-- The event a low pulse of `low` µs is to a device (R130, R211); `none` for a pulse outside every window. -/
def pulseEvent (low : Nat) : Option BusEvent :=
  if Config.isResetPulse low then some .rst
  else if Config.isLongPulse low then some .s0
  else if Config.isShortPulse low then some .s1
  else none

/-- What devices do, and how the line reads, where a time is outside its window: the spec gives neither, so a claim takes both as
arguments of which nothing is known (notes/assumptions/15.md). -/
structure OutOfWindow where
  /-- The devices after a pulse of the given length. -/
  after : Nat → List Device → List Device
  /-- The line level at a sample after a pulse of the given length. -/
  level : Nat → List Device → Bool

/-- The devices after a pulse of `low` µs (R131). -/
def afterPulse (odd : OutOfWindow) (low : Nat) (ds : List Device) : List Device :=
  match pulseEvent low with
  | some .rst => ds.map Device.onReset
  | some .s0 => ds.map (Device.onSlot false)
  | some .s1 => ds.map (Device.onSlot true)
  | none => odd.after low ds

/-- The devices after a slot that opens with a pulse of `low` µs. -/
def afterSlotPulse (odd : OutOfWindow) (c : Config) (low : Nat) (ds : List Device) : List Device :=
  if c.slotWindow then afterPulse odd low ds else odd.after low ds

/-- The reference devices on a line that the block drives with the times of `c`: every primitive is to them the pulse of R105, R107 or
R108, and a sample is theirs where its pulse and its instant lie in their windows. -/
def pulseEnv (odd : OutOfWindow) (c : Config) : BusEnv (List Device) where
  rst ds :=
    (if pulseEvent c.tRstl = some .rst ∧ c.presenceWindow then presenceLevel ds else odd.level c.tRstl ds,
      afterPulse odd c.tRstl ds)
  writeSlot b ds := afterSlotPulse odd c (writeLow c b) ds
  readSlot ds :=
    (if pulseEvent c.tRl = some .s1 ∧ c.slotWindow then slotLevel ds else odd.level c.tRl ds, afterSlotPulse odd c c.tRl ds)

end Sys2Proof.Machine
end

