-- ==== Sys2Proof/Machine/RomHelpers.lean ====
section
/-! DEFINITION. The host procedures of spec/42_rom_helpers.md (R140 to R145), over an idle block and a bus environment. -/

namespace Sys2Proof.Machine

variable {σ : Type}

/-- `for i in 0 .. m-1: CMD WRITE_BYTE #buf[i]` (R141). -/
def writeBytes (env : BusEnv σ) : List Byte → Wired σ → Wired σ
  | [], y => y
  | b :: rest, y => writeBytes env rest (y.cmdPseudo env (.writeByte b))

/-- `write_command(cmd, buf)` (R141). -/
def writeCommand (env : BusEnv σ) (cmd : Byte) (buf : List Byte) (y : Wired σ) : Wired σ :=
  writeBytes env buf (y.cmdPseudo env (.writeByte cmd))

/-- `CMD READ_BYTE`, `m` times, each followed by a host read of DATA (R142). -/
def readBytesLoop (env : BusEnv σ) : (m : Nat) → Wired σ → List Byte × Wired σ
  | 0, y => ([], y)
  | m + 1, y =>
    let y' := y.cmdPseudo env .readByte
    let rest := readBytesLoop env m y'
    (y'.blk.hostRead 3 :: rest.1, rest.2)

/-- The result of `read_bytes` (R142). -/
structure ReadBytes (σ : Type) where
  buf : List Byte
  tail : Byte
  crcOk : Bool
  sys : Wired σ
deriving DecidableEq, Repr

/-- `read_bytes(count)` (R142). -/
def readBytes (env : BusEnv σ) (count : Nat) (y : Wired σ) : ReadBytes σ :=
  let q := readBytesLoop env count (y.cmdPseudo env .crcClear)
  let y' := q.2.cmdPseudo env .readByte
  ⟨q.1, y'.blk.hostRead 3, y'.blk.hostRead 4 == 0x00, y'⟩

/-- `STATUS.PD` as a host reads it (R140). -/
def presenceRead (s : State) : Bool := bitOf (s.hostRead 2) 1

/-- `match_rom(code)` (R143). -/
def matchRom (env : BusEnv σ) (code : List Byte) (y : Wired σ) : Bool × Wired σ :=
  let y1 := y.cmd env .busReset
  if presenceRead y1.blk then (true, writeCommand env matchRomByte code y1) else (false, y1)

/-- `skip_rom()` (R144). -/
def skipRom (env : BusEnv σ) (y : Wired σ) : Bool × Wired σ :=
  let y1 := y.cmd env .busReset
  if presenceRead y1.blk then (true, y1.cmdPseudo env (.writeByte skipRomByte)) else (false, y1)

/-- The result of `read_rom` (R145). -/
structure ReadRom (σ : Type) where
  ok : Bool
  code : List Byte
  sys : Wired σ
deriving DecidableEq, Repr

/-- The `code` output of `read_rom` without presence: 8 unspecified bytes (R145, U10). -/
def unspecifiedCode : List Byte := (List.range 8).map Config.unspecifiedCodeByte

/-- `read_rom()` (R145). -/
def readRom (env : BusEnv σ) (y : Wired σ) : ReadRom σ :=
  let y1 := y.cmd env .busReset
  if presenceRead y1.blk then
    let q := readBytes env 7 (y1.cmdPseudo env (.writeByte readRomByte))
    ⟨q.crcOk, q.buf ++ [q.tail], q.sys⟩
  else ⟨false, unspecifiedCode, y1⟩

end Sys2Proof.Machine
end

