-- ==== Sys2Proof/Machine/RomSearch.lean ====
section
/-! DEFINITION. The ROM search of spec/43_rom_search.md (R160 to R168), a host procedure over an idle block and a bus
environment. -/

namespace Sys2Proof.Machine

variable {σ : Type}

/-- `FIRST = -1` (R160). -/
def searchFirst : Int := -1

/-- `LAST = 64` (R160). -/
def searchLast : Int := 64

/-- What a search returns: the distinct result ERROR, or a code and the next discrepancy (R160). -/
inductive SearchResult where
  | error
  | found (code : List Byte) (next : Int)
deriving DecidableEq, Repr

/-- The direction hint at position `p` (R162, R163). -/
def searchHint (prev : List Byte) (last : Int) (p : Nat) : Bool :=
  if (p : Int) = last then true else if (p : Int) < last then codeBit prev p else false

/-- `code[p div 8][p mod 8] <- b` (R161, R162). -/
def setCodeBit (code : List Byte) (p : Nat) (b : Bool) : List Byte :=
  code.set (p / 8) (setBit (code.getD (p / 8) 0) (p % 8) b)

/-- The buffer a pass fills: 8 bytes, every bit of which a pass that returns a code writes. -/
def emptyCode : List Byte := List.replicate 8 0x00

/-- The walk of R162 from position `p` on, with `m` positions left. -/
def searchWalk (env : BusEnv σ) (prev : List Byte) (last : Int) :
    (m p : Nat) → (code : List Byte) → (next : Int) → Wired σ → SearchResult × Wired σ
  | 0, _, code, next, y => (.found code next, y)
  | m + 1, p, code, next, y =>
    let y' := y.cmd env (.triplet (searchHint prev last p))
    let d := y'.blk.hostRead 3
    let r0 := bitOf d 0
    let r1 := bitOf d 1
    let dir := bitOf d 2
    if r0 && r1 then (.error, y')
    else
      searchWalk env prev last m (p + 1) (setCodeBit code p dir)
        (if !r0 && !r1 && !dir then (p : Int) else next) y'

/-- `search_pass(cmd, prev, last)` (R162, R164, R165, R167). -/
def searchPass (env : BusEnv σ) (cmd : Byte) (prev : List Byte) (last : Int) (y : Wired σ) : SearchResult × Wired σ :=
  let y1 := y.cmd env .busReset
  if presenceRead y1.blk then
    searchWalk env prev last 64 0 emptyCode searchLast (y1.cmdPseudo env (.writeByte cmd))
  else (.error, y1)

/-- `search_rom(family, cmd, prev, last)` (R166). The procedure's `loop` has no bound of its own, so `fuel` bounds its passes and
`none` says that it has not returned within them (notes/assumptions/14.md). -/
def searchRom (env : BusEnv σ) (family cmd : Byte) :
    (fuel : Nat) → (prev : List Byte) → (last : Int) → Wired σ → Option (SearchResult × Wired σ)
  | 0, _, _, _ => none
  | fuel + 1, prev, last, y =>
    match searchPass env cmd prev last y with
    | (.error, y') => some (.error, y')
    | (.found code next, y') =>
      if family = 0 ∨ code.getD 0 0 = family ∨ next = searchLast then some (.found code next, y')
      else searchRom env family cmd fuel code next y'

/-- The caller's loop of R168 with no family filter: the codes found, in order, until a call returns LAST (`true`), or an ERROR or
the end of `fuel` (`false`). -/
def enumerate (env : BusEnv σ) (cmd : Byte) :
    (fuel : Nat) → (prev : List Byte) → (last : Int) → Wired σ → List Byte × List (List Byte) × Bool × Wired σ
  | 0, prev, _, y => (prev, [], false, y)
  | fuel + 1, prev, last, y =>
    match searchPass env cmd prev last y with
    | (.error, y') => (prev, [], false, y')
    | (.found code next, y') =>
      if next = searchLast then (code, [code], true, y')
      else
        let rest := enumerate env cmd fuel code next y'
        (rest.1, code :: rest.2.1, rest.2.2)

/-- Code `c` comes before code `c'`: they agree before the first position where they differ, and there `c` has 0 (R168). -/
def CodeBefore (c c' : List Byte) : Prop :=
  ∃ q, q < 64 ∧ codeBit c q = false ∧ codeBit c' q = true ∧ ∀ p, p < q → codeBit c p = codeBit c' p

end Sys2Proof.Machine
end

