-- ==== Sys2Proof/Machine/Trace.lean ====
section
/-! DEFINITION. Runs of the clocked machine, and the bus environment a run presents: what claims about a whole command are
stated with. -/

namespace Sys2Proof.Machine

/-- The state `j` edges after `s` (`s` itself if the machine stopped, which it never does: R180). -/
def State.after (s : State) (j : Nat) : State :=
  match (Host.Core.run Sys2Proof.core j s : Answer) with
  | .next t => t
  | .fault _ => s
  | .refused _ => s

/-- `SAMPLE()` at the edge numbered `e`, counted from an accepting edge that left `t`: the edge itself is edge 0 (R101). -/
def State.sampleAt (t : State) (e : Nat) : Bool := (t.after (e - 1)).sampleNow

/-- The sample a run from `t` takes at microsecond `us` of the command `t` has just accepted (R101). -/
def State.sampleAtUs (t : State) (us : Nat) : Bool := t.sampleAt (us * t.cfg.clkPerUs)

/-- The bus environment a run from `t` presents to the command `t` has just accepted: its state is the microsecond at which the next
attempt or slot starts, and its samples are the run's (R104, R105, R108). -/
def traceEnv (t : State) : BusEnv Nat where
  rst us := (t.sampleAtUs (us + (t.cfg.tRstl + t.cfg.tPds)), us + t.cfg.attempt)
  writeSlot _ us := us + t.cfg.tSlot
  readSlot us := (t.sampleAtUs (us + (t.cfg.tRl + t.cfg.tRs)), us + t.cfg.tSlot)

/-- No reset in the `n` edges after `t`. -/
abbrev noResetFor (n : Nat) (t : State) : Prop := ∀ j, j < n → (t.pinsAt j).rst = false

/-- No reset and no host write in the `n` edges after `t`: the host at most reads (R53). -/
abbrev quietFor (n : Nat) (t : State) : Prop :=
  ∀ j, j < n → (t.pinsAt j).rst = false ∧ (t.pinsAt j).hWe = false

end Sys2Proof.Machine
end

