-- ==== Sys2Proof/Safety.lean ====
section
/-! DEFINITION. What a safe run is: the states a block can be in after its first reset, and the host's duties
(spec/70_reset_and_hazards.md R206; spec/30_encoding.md R76). -/

namespace Sys2Proof.Machine

/-- The latched operands are ones a word encodes (R72). -/
abbrev Timed.wf : Timed → Prop
  | .busReset => True
  | .writeBits _ n => 1 ≤ n ∧ n ≤ 8
  | .readBits n => 1 ≤ n ∧ n ≤ 8
  | .triplet _ => True

/-- The slot or attempt index is one the command has (R7, R112 to R114). -/
abbrev Run.indexOk (c : Config) (r : Run) : Prop :=
  match r.cur with
  | .busReset => r.k ≤ c.resetRetries
  | .writeBits _ n => r.k < n
  | .readBits n => r.k < n
  | .triplet _ => r.k ≤ 2

/-- What a running sequencer satisfies: the prescaler is below CLK_PER_US (R23), `t` lies in slot `k` (R104), the index and operands
are ones the command has, no bit of `sh` above the current slot is set (R56), and a TRIPLET in its write slot did not read
0b11 (R114). -/
abbrev Run.ok (c : Config) (r : Run) : Prop :=
  r.sub < c.clkPerUs ∧ r.k * r.cur.slotLength c ≤ r.t ∧ r.t < (r.k + 1) * r.cur.slotLength c ∧ r.cur.wf ∧ r.indexOk c ∧
    r.sh.toNat < 2 ^ (r.k + 1) ∧ (r.k = 2 → ∀ d, r.cur = .triplet d → (r.a1 && r.a2) = false)

/-- `ow_oe` is what the time axis says (R101), and the line is released while the sequencer is idle (R102, R195). -/
abbrev State.seqOk (s : State) : Prop :=
  match s.seq with
  | .idle => s.owOe = false
  | .run r => r.ok s.cfg ∧ s.owOe = r.drive s.cfg

/-- The invariant of the block: a parameter set as R4 and R6 ask, a synchronizer of SYNC_STAGES stages (R109), and a sequencer
and line that agree. -/
def Inv (s : State) : Prop := s.cfg.wf ∧ s.sync.length = s.cfg.syncStages ∧ s.seqOk

/-- What a well-formed host does at the coming edge: it writes CMDH only while the block is idle (R206, U15), and then a command a
program may use (R76, U12). -/
def Disciplined (s : State) : Prop :=
  s.nextPins.hWe = true → s.nextPins.hAddr = 1 →
    s.busy = false ∧ (s.presentedInstr s.nextPins.hWdata).isReserved = false

/-- No error flag of the host's own making is set (E4 and E5 of R181). -/
def Clean (s : State) : Prop := s.ill = false ∧ s.cerr = false

/-- Two states with the same running command, results and line. -/
def SameCommand (s s' : State) : Prop :=
  s.cfg = s'.cfg ∧ s.pd = s'.pd ∧ s.bf = s'.bf ∧ s.ill = s'.ill ∧ s.data = s'.data ∧ s.crc = s'.crc ∧ s.seq = s'.seq ∧
    s.owOe = s'.owOe ∧ s.sync = s'.sync

end Sys2Proof.Machine
end

