-- ==== Sys2Proof/Certificates/Slice0/Obligations.lean ====
section
/-! DEFINITION. What is claimed of the block, rule by rule. Each docstring names the rule of spec/ a statement formalises. -/

open Sys2Proof Sys2Proof.Machine

/-! ## Encoding -/

/-- R70 to R75: decoding the word, or the two bytes, of a well-formed command gives the command back. -/
def Obligations.DecodeUndoesEncode : Prop :=
  ∀ i : Instr, i.wf → decodeWord (encode i) = i ∧ decodeBytes (encodeBytes i) = .ok (i, [])

/-- R77: a field outside the "uses" column of R75 is ignored; any value has the same effect as zero. Zeroing those fields gives
the command's canonical word. -/
def Obligations.IgnoredFieldsHaveNoEffect : Prop :=
  (∀ w : CmdWord, (decodeWord w).wf ∧ decodeWord w = decodeWord (w &&& usedMask (opField w)) ∧
      encode (decodeWord w) = w &&& usedMask (opField w)) ∧
    decodeWord 0x1FFF = decodeWord 0x1000 ∧ decodeWord 0x1000 = .busReset

/-- R75 and spec/opcode_table.json: every word meets the match and mask of exactly one row, the row of the command it decodes to. -/
def Obligations.EveryWordLiesInOneRow : Prop :=
  ∀ (w : CmdWord) (k : Nat) (row : OpcodeRow), opcodeRows[k]? = some row →
    row.matches w = (k == rowIndex (decodeWord w))

/-- R70 to R74: the fields of a word, and its two bytes (R55), stand where the format puts them. -/
def Obligations.FieldsStandWhereTheFormatPutsThem : Prop :=
  ∀ w : CmdWord,
    (opField w).toNat = w.toNat / 4096 ∧ (nm1Field w).toNat = w.toNat / 512 % 8 ∧
      (dirField w).toNat = w.toNat / 256 % 2 ∧ (valField w).toNat = w.toNat % 256 ∧
      (lowByte w).toNat = w.toNat % 256 ∧ (highByte w).toNat = w.toNat / 256

/-- Words written out from R75 and R78 decode to the commands they stand for. -/
def Obligations.WrittenOutWordsDecode : Prop :=
  decodeWord 0b0000000000000000 = .nop ∧ decodeWord 0b0001000000000000 = .busReset ∧
    decodeWord 0b0010111011001100 = .writeBits 0xCC 8 ∧ decodeWord 0b0010010000000101 = .writeBits 0x05 3 ∧
    decodeWord 0b0011111000000000 = .readBits 8 ∧ decodeWord 0b0100000100000000 = .triplet true ∧
    decodeWord 0b0101000001011010 = .crcLoad 0x5A ∧ decodeWord 0b0110000000101000 = .crcUpdate 0x28 ∧
    decodeWord 0b0111000000000000 = .reserved7 ∧ decodeWord 0b1111000100100011 = .reservedHigh 0xF

/-! ## Commands at their accepting edge -/

/-- R110: NOP, with its word, its flag updates, the drop while busy and the example. Everything but BF, ILL and CERR is unchanged. -/
def Obligations.NopCompletes : Prop :=
  encode .nop = 0x0000 ∧ (∀ w : CmdWord, opField w = 0x0 → decodeWord w = .nop) ∧
    (∀ s : State, s.busy = false →
      ∃ t, exec .nop s = .next t ∧ t = { s with cerr := false, bf := false, ill := false } ∧ t.busy = false ∧
        (s.status = 0x0E → t.status = 0x02)) ∧
    ∀ s : State, s.busy = true → exec .nop s = .next { s with cerr := true }

/-- R94: CRC_LOAD. Everything but CRC, BF, ILL and CERR is unchanged. -/
def Obligations.CrcLoadCompletes : Prop :=
  (∀ v : Byte, encode (.crcLoad v) = 0x5000 ||| v.setWidth 16 ∧ decodeWord (0x5000 ||| v.setWidth 16) = .crcLoad v) ∧
    (∀ (v : Byte) (s : State), s.busy = false →
      ∃ t, exec (.crcLoad v) s = .next t ∧ t = { s with crc := v, cerr := false, bf := false, ill := false } ∧
        t.busy = false) ∧
    (∀ (v : Byte) (s : State), s.busy = true → exec (.crcLoad v) s = .next { s with cerr := true }) ∧
    Pseudo.crcClear.expand = .crcLoad 0

/-- R95: CRC_UPDATE, with its corner cases and example. Everything but CRC, BF, ILL and CERR is unchanged. -/
def Obligations.CrcUpdateCompletes : Prop :=
  (∀ v : Byte, encode (.crcUpdate v) = 0x6000 ||| v.setWidth 16 ∧ decodeWord (0x6000 ||| v.setWidth 16) = .crcUpdate v) ∧
    (∀ (v : Byte) (s : State), s.busy = false →
      ∃ t, exec (.crcUpdate v) s = .next t ∧
        t = { s with crc := crc8Update s.crc v, cerr := false, bf := false, ill := false } ∧ t.busy = false) ∧
    (∀ (v : Byte) (s : State), s.busy = true → exec (.crcUpdate v) s = .next { s with cerr := true }) ∧
    (∀ x : Byte, crc8Update x x = 0) ∧ crc8Update 0 0 = 0 ∧ crc8Update 0 0x80 = 0x8C ∧ crc8Update 0 0x01 = 0x5E

/-- R182: a reserved opcode sets ILL, clears BF and CERR and changes nothing else; the next accepted command with a defined opcode
clears ILL. -/
def Obligations.ReservedOpcodesOnlySetIll : Prop :=
  (∀ s : State, s.busy = false →
      exec .reserved7 s = .next { s with ill := true, bf := false, cerr := false } ∧
        ∀ op, exec (.reservedHigh op) s = .next { s with ill := true, bf := false, cerr := false }) ∧
    (∀ w : CmdWord, 0x7 ≤ (opField w).toNat ↔ (decodeWord w).isReserved = true) ∧
    ∀ (i : Instr) (s : State), i.isReserved = false → s.busy = false → ∃ t, exec i s = .next t ∧ t.ill = false

/-- R100, R101: a timed command accepted by an idle block latches its fields with `t = 0`, clears ILL, BF and CERR, raises BUSY and
drives the line low; no other register changes. `Config.wf` is the premise of notes/assumptions/4.md. -/
def Obligations.TimedCommandsStart : Prop :=
  ∀ s : State, s.busy = false → s.cfg.wf →
    (∀ i c, (i = .busReset ∧ c = .busReset) ∨ (∃ v n, i = .writeBits v n ∧ c = .writeBits v n) ∨
        (∃ n, i = .readBits n ∧ c = .readBits n) ∨ (∃ d, i = .triplet d ∧ c = .triplet d) →
      ∃ t, exec i s = .next t ∧
        t = { s with cerr := false, bf := false, ill := false, seq := .run (Run.start c), owOe := true } ∧
        (Run.start c).t = 0 ∧ (Run.start c).sub = 0 ∧ bitOf (t.hostRead 2) 0 = true)

/-- R183 and R188: whatever word is written to CMDH, a busy block sets CERR and does nothing else with it. -/
def Obligations.BusyBlockDropsEveryWord : Prop :=
  ∀ (i : Instr) (s : State), s.busy = true → exec i s = .next { s with cerr := true }

/-- R30: BUSY is 1 exactly while the sequencer is not idle, STATUS bit 0 reads it, and a command that takes no time never makes the
sequencer leave IDLE. -/
def Obligations.UntimedCommandsNeverRaiseBusy : Prop :=
  (∀ s : State, (s.busy = true ↔ s.seq ≠ .idle) ∧ bitOf s.status 0 = s.busy) ∧
    ∀ (i : Instr) (s : State), i.isTimed = false → s.seq = .idle →
      ∃ t, exec i s = .next t ∧ t.seq = .idle ∧ t.owOe = s.owOe ∧ bitOf t.status 0 = false

/-! ## One edge -/

/-- R25, R53, R100: at an edge with no reset where the host writes `h` to CMDH, an idle block runs the command that `{h, CMDL}`
decodes to, on the state whose inputs the edge has taken in; a busy block sets CERR and its command goes on. -/
def Obligations.StepRunsThePresentedCommand : Prop :=
  ∀ s : State, s.nextPins.rst = false → s.nextPins.hWe = true → s.nextPins.hAddr = 1 →
    (s.busy = false → step s = exec (decodeWord (s.nextPins.hWdata ++ s.cmdl)) s.clockIn) ∧
      (s.busy = true → step s = .next (State.tick s.sampleNow { s.clockIn with cerr := true })) ∧
      s.clockIn = { s with sync := (s.owIn :: s.sync).take s.cfg.syncStages, pins := s.pins.tail, edges := s.edges + 1 }

/-- R183: a CMDH write while BUSY = 1 leaves the running command as a quiet edge would, and CERR, once set, is cleared only by an
accepted command (or a reset of the block). At a completion edge the results are written and CERR is set (R102, R188). -/
def Obligations.DroppedWordLeavesTheCommandRunning : Prop :=
  (∀ s : State, s.nextPins.rst = false → s.nextPins.hWe = true → s.nextPins.hAddr = 1 → s.busy = true →
      step s = .next { s.clockIn.tick s.sampleNow with cerr := true }) ∧
    ∀ s t : State, step s = .next t → s.cerr = true → t.cerr = false →
      s.nextPins.rst = true ∨ (s.busy = false ∧ s.nextPins.hWe = true ∧ s.nextPins.hAddr = 1)

/-- R180: no command, register access or line condition stops the machine. -/
def Obligations.EveryStepAnswersNext : Prop :=
  (∀ s : State, ∃ t, step s = .next t) ∧ ∀ (i : Instr) (s : State), ∃ t, exec i s = .next t

/-- R200: at an edge with `rst = 1` the registers become 0x00, the sequencer idle and the line released, whatever the host writes;
the state stays so while `rst` stays 1, and the first edge with `rst = 0` may accept a command. -/
def Obligations.ResetEdgeTakesTheResetValues : Prop :=
  ∀ s : State, s.nextPins.rst = true →
    ∃ t, step s = .next t ∧
      t.cmdl = 0x00 ∧ t.status = 0x00 ∧ t.data = 0x00 ∧ t.crc = 0x00 ∧ t.seq = .idle ∧ t.owOe = false ∧ t.cfg = s.cfg ∧
      (t.nextPins.rst = false → t.nextPins.hWe = true → t.nextPins.hAddr = 1 →
        step t = exec (decodeWord (t.nextPins.hWdata ++ 0x00#8)) t.clockIn)

/-- R33: the values after reset, as a host reads them and in the sequencer and line. -/
def Obligations.ResetStateHasTheResetValues : Prop :=
  (∀ off : Offset, State.reset.hostRead off = 0x00) ∧ State.reset.seq = .idle ∧ State.reset.owOe = false ∧
    State.reset.pd = false ∧ State.reset.bf = false ∧ State.reset.ill = false ∧ State.reset.cerr = false

/-- R52, R53: what a host read returns at each offset and at host address OW_BASE + offset (R5). That a host address has no width, so
that the sum never wraps, is the model's (DESIGN CHOICE, notes/assumptions/16.md). -/
def Obligations.HostReadsFollowTheRegisterMap : Prop :=
  ∀ s : State,
    s.hostRead 0x0 = s.cmdl ∧ s.hostRead 0x1 = 0x00 ∧ s.hostRead 0x2 = s.status ∧ s.hostRead 0x3 = s.data ∧
      s.hostRead 0x4 = s.crc ∧ (∀ off : Offset, 5 ≤ off.toNat → s.hostRead off = 0x00) ∧
      s.hRdata = s.hostRead s.nextPins.hAddr ∧
      (∀ off : Offset, s.hostReadAt (s.cfg.owBase + off.toNat) = some (s.hostRead off)) ∧
      ∀ a, (a < s.cfg.owBase ∨ s.cfg.owBase + 16 ≤ a) → s.hostReadAt a = none

/-- R26: the fields of STATUS and its hardwired bits. -/
def Obligations.StatusFieldsStandWhereTheTablePutsThem : Prop :=
  ∀ s : State, s.status.toNat = s.busy.toNat + 2 * s.pd.toNat + 4 * s.bf.toNat + 8 * s.ill.toNat + 16 * s.cerr.toNat

/-- R53, R54: an edge without reset and without a write to CMDL or CMDH only advances the sequencer; writes to read-only and reserved
offsets, and reads, have no effect. -/
def Obligations.OtherAccessesHaveNoEffect : Prop :=
  ∀ s : State, s.nextPins.rst = false → (s.nextPins.hWe = false ∨ 2 ≤ s.nextPins.hAddr.toNat) →
    step s = .next (if s.busy then s.clockIn.tick s.sampleNow else s.clockIn)

/-- R24: a write to CMDL stores at any time, does not affect a running command, is the VAL of the next word, and a read returns it. -/
def Obligations.CmdlWriteStoresAndDisturbsNothing : Prop :=
  ∀ s : State, s.nextPins.rst = false → s.nextPins.hWe = true → s.nextPins.hAddr = 0 →
    ∃ t, step s = .next t ∧
      t = { (if s.busy then s.clockIn.tick s.sampleNow else s.clockIn) with cmdl := s.nextPins.hWdata } ∧
      t.hostRead 0x0 = s.nextPins.hWdata ∧ (∀ h, valField (t.presentedWord h) = s.nextPins.hWdata) ∧ State.reset.cmdl = 0x00

/-- R26: only a completing BUS_RESET (and a reset of the block) changes PD. -/
def Obligations.PdChangesOnlyWhenABusResetCompletes : Prop :=
  ∀ s t : State, step s = .next t → t.pd ≠ s.pd →
    s.nextPins.rst = true ∨ (t.seq = .idle ∧ ∃ r, s.seq = .run r ∧ r.cur = .busReset)

/-- R27: only a completing READ_BITS or TRIPLET (and a reset of the block) changes DATA. -/
def Obligations.DataChangesOnlyWhenAReadCompletes : Prop :=
  ∀ s t : State, step s = .next t → t.data ≠ s.data →
    s.nextPins.rst = true ∨
      (t.seq = .idle ∧ ∃ r, s.seq = .run r ∧ ((∃ n, r.cur = .readBits n) ∨ ∃ d, r.cur = .triplet d))

/-- R29: the three things that write CRC, besides a reset of the block: CRC_LOAD, CRC_UPDATE, and a sample of a READ_BITS with
`n = 8`, which folds into it. -/
def Obligations.CrcChangesOnlyInThreeWays : Prop :=
  ∀ s t : State, step s = .next t → t.crc ≠ s.crc →
    s.nextPins.rst = true ∨
      (s.busy = false ∧ s.nextPins.hWe = true ∧ s.nextPins.hAddr = 1 ∧
        ∃ v, (s.presentedInstr s.nextPins.hWdata = .crcLoad v ∧ t.crc = v) ∨
          (s.presentedInstr s.nextPins.hWdata = .crcUpdate v ∧ t.crc = crc8Update s.crc v)) ∨
      ∃ r, s.seq = .run r ∧ r.cur = .readBits 8 ∧ r.sub + 1 ≥ s.cfg.clkPerUs ∧
        readInstant s.cfg { r with t := r.t + 1 } = true ∧ t.crc = crc8FoldBit s.crc s.sampleNow

/-- R184: BF is set only by a TRIPLET that read 0b11, at its completion: the first bit was 1, and so was the second, which is the
sample of this edge where its instant falls on the end of the slot. -/
def Obligations.BfIsSetOnlyByATripletWithNoDevice : Prop :=
  ∀ s t : State, step s = .next t → s.bf = false → t.bf = true →
    t.seq = .idle ∧ ∃ r d, s.seq = .run r ∧ r.cur = .triplet d ∧ r.k = 1 ∧ r.sub + 1 ≥ s.cfg.clkPerUs ∧
      r.a1 = true ∧ (if readInstant s.cfg { r with t := r.t + 1 } then s.sampleNow else r.a2) = true ∧
      t.data = tripletData d true true

/-- R4 to R8, R14: no step changes a parameter. -/
def Obligations.ParametersNeverChange : Prop :=
  ∀ s t : State, step s = .next t → t.cfg = s.cfg

/-- The invariant holds right after reset. That the synchronizer has its two values then is the model's (notes/assumptions/6.md). -/
def Obligations.InvariantHoldsAtReset : Prop := Inv State.reset

/-- Every step keeps the invariant: the line is released while idle, the output follows the time axis, `t` lies in slot `k`, and
the shift register holds no bit above it (R23, R56, R101, R102, R104, R109, R114). -/
def Obligations.EveryStepKeepsTheInvariant : Prop :=
  ∀ s t : State, Inv s → step s = .next t → Inv t

/-- R206: a host that writes CMDH only while the block is idle, and only commands a program may use, never sees E4 or E5. -/
def Obligations.DisciplinedHostSeesNoErrorFlags : Prop :=
  ∀ s t : State, Clean s → Disciplined s → step s = .next t → Clean t

/-- R103: over any number of edges of a running command without reset, what the host does has no influence on the command, its
timing, its results or the line. -/
def Obligations.HostCannotDisturbARunningCommand : Prop :=
  ∀ (n : Nat) (s s' : State), SameCommand s s' →
    (∀ j, j < n → (s.after j).busy = true ∧ (s.pinsAt j).rst = false ∧ (s'.pinsAt j).rst = false ∧
      (s.pinsAt j).devLow = (s'.pinsAt j).devLow) →
    SameCommand (s.after n) (s'.after n)

/-- R129: at an edge that is no sample instant of the running command, the sampled level has no effect on it. -/
def Obligations.LineMattersOnlyAtSampleInstants : Prop :=
  ∀ (s : State) (r : Run) (a b : Bool), s.seq = .run r →
    (r.sub + 1 < s.cfg.clkPerUs ∨
      match r.cur with
      | .busReset => presenceInstant s.cfg { r with t := r.t + 1 } = false
      | .writeBits _ _ => True
      | .readBits _ => readInstant s.cfg { r with t := r.t + 1 } = false
      | .triplet _ => readInstant s.cfg { r with t := r.t + 1 } = false ∨ 2 ≤ r.k) →
    s.tick a = s.tick b

/-- R109: a sample is the line level SYNC_STAGES edges before. It is exactly that level, where U5 allows either near a change
(DEDUCED, notes/assumptions/12.md), and it is so over edges with `rst = 1` in between too, since the model's reset does not clear
the synchronizer (DESIGN CHOICE, notes/assumptions/6.md). -/
def Obligations.SampleIsTheLineSyncStagesBefore : Prop :=
  ∀ s u : State, s.sync.length = s.cfg.syncStages →
    (Host.Core.run Sys2Proof.core s.cfg.syncStages s : Answer) = .next u → u.sampleNow = s.owIn

/-- R80: `ISSUE c` on an idle block presents the command `c` at its second edge. -/
def Obligations.IssuePresentsTheCommand : Prop :=
  ∀ (s : State) (w : CmdWord) (low0 low1 : Bool) (rest : List Pins), s.busy = false →
    s.pins = issuePins w low0 low1 ++ rest →
    ∃ t, step s = .next t ∧ t.cmdl = lowByte w ∧ t.busy = false ∧ step t = exec (decodeWord w) t.clockIn

/-! ## Whole commands on the clock

The premise `Config.wf` of these statements is what the model asks of a parameter set (notes/assumptions/4.md). -/

/-- R111: BUS_RESET makes attempts until one answers so that no other follows (R106), takes 970 µs for each with the defaults,
drives the line low for the first T_RSTL of each and releases it for the rest (R101, R105), and writes PD with the last one's
presence; everything else is as acceptance left it. -/
def Obligations.BusResetRunsToItsResult : Prop :=
  ∀ s : State, s.busy = false → s.cfg.wf →
    ∃ t, exec .busReset s = .next t ∧
      ∀ K : Nat,
        (∀ k, k ≤ K → again s.cfg (!t.sampleAtUs (k * s.cfg.attempt + (s.cfg.tRstl + s.cfg.tPds))) k = decide (k < K)) →
        quietFor ((K + 1) * s.cfg.attempt * s.cfg.clkPerUs) t →
        (∀ j, j < (K + 1) * s.cfg.attempt * s.cfg.clkPerUs →
          (t.after j).busy = true ∧ (t.after j).owOe = decide (j / s.cfg.clkPerUs % s.cfg.attempt < s.cfg.tRstl)) ∧
        ∃ u, (Host.Core.run Sys2Proof.core ((K + 1) * s.cfg.attempt * s.cfg.clkPerUs) t : Answer) = .next u ∧
          u = { t with pd := !t.sampleAtUs (K * s.cfg.attempt + (s.cfg.tRstl + s.cfg.tPds)), seq := .idle, owOe := false,
                       sync := u.sync, pins := u.pins, edges := u.edges }

/-- R107, R112: WRITE_BITS drives the line, in slot `i`, low for the low time of bit `i` and then releases it, completes after `n`
slots, and changes nothing else. -/
def Obligations.WriteBitsRunsToItsResult : Prop :=
  ∀ (s : State) (v : Byte) (n : Nat), s.busy = false → s.cfg.wf → 1 ≤ n → n ≤ 8 →
    ∃ t, exec (.writeBits v n) s = .next t ∧
      (quietFor (n * s.cfg.tSlot * s.cfg.clkPerUs) t →
        (∀ j, j < n * s.cfg.tSlot * s.cfg.clkPerUs →
          (t.after j).busy = true ∧
            (t.after j).owOe =
              decide (j / s.cfg.clkPerUs % s.cfg.tSlot < writeLow s.cfg (bitOf v (j / s.cfg.clkPerUs / s.cfg.tSlot)))) ∧
        ∃ u, (Host.Core.run Sys2Proof.core (n * s.cfg.tSlot * s.cfg.clkPerUs) t : Answer) = .next u ∧
          u = { t with seq := .idle, owOe := false, sync := u.sync, pins := u.pins, edges := u.edges })

/-- R108, R113: READ_BITS drives the line low for the first T_RL of each slot, samples bit `i` in slot `i`, writes the bits to DATA
with the rest zero, and for `n = 8` leaves `CRC = crc8_update(CRC_before, DATA)` (R92); everything else is as acceptance left it. -/
def Obligations.ReadBitsRunsToItsResult : Prop :=
  ∀ (s : State) (n : Nat), s.busy = false → s.cfg.wf → 1 ≤ n → n ≤ 8 →
    ∃ t, exec (.readBits n) s = .next t ∧
      (quietFor (n * s.cfg.tSlot * s.cfg.clkPerUs) t →
        (∀ j, j < n * s.cfg.tSlot * s.cfg.clkPerUs →
          (t.after j).busy = true ∧ (t.after j).data = s.data ∧
            (t.after j).owOe = decide (j / s.cfg.clkPerUs % s.cfg.tSlot < s.cfg.tRl)) ∧
        ∃ u, (Host.Core.run Sys2Proof.core (n * s.cfg.tSlot * s.cfg.clkPerUs) t : Answer) = .next u ∧
          (∀ i, bitOf u.data i = (decide (i < n) && t.sampleAtUs (i * s.cfg.tSlot + (s.cfg.tRl + s.cfg.tRs)))) ∧
          u = { t with data := u.data, crc := if n = 8 then crc8Update s.crc u.data else s.crc, seq := .idle, owOe := false,
                       sync := u.sync, pins := u.pins, edges := u.edges })

/-- R114: TRIPLET reads two bits and, unless both are 1, writes a direction: the hint when both are 0, else the first bit. DATA holds
the direction and the bits; on 0b11 it holds the hint and BF is set. It is busy for exactly three slots, or two on 0b11 (R102), with
the line low for the first T_RL of the read slots (R108) and for the low time of the direction in the write slot (R107), and
DATA as before until then. Everything else is as acceptance left it. -/
def Obligations.TripletRunsToItsResult : Prop :=
  ∀ (s : State) (dir : Bool), s.busy = false → s.cfg.wf →
    ∃ t, exec (.triplet dir) s = .next t ∧
      ∀ a1 a2 : Bool, a1 = t.sampleAtUs (s.cfg.tRl + s.cfg.tRs) →
        a2 = t.sampleAtUs (s.cfg.tSlot + (s.cfg.tRl + s.cfg.tRs)) →
        (a1 = true → a2 = true → quietFor (2 * s.cfg.tSlot * s.cfg.clkPerUs) t →
          (∀ j, j < 2 * s.cfg.tSlot * s.cfg.clkPerUs →
            (t.after j).busy = true ∧ (t.after j).data = s.data ∧
              (t.after j).owOe = decide (j / s.cfg.clkPerUs % s.cfg.tSlot < s.cfg.tRl)) ∧
          ∃ u, (Host.Core.run Sys2Proof.core (2 * s.cfg.tSlot * s.cfg.clkPerUs) t : Answer) = .next u ∧
            u = { t with data := 3 + 4 * BitVec.ofNat 8 dir.toNat, bf := true, seq := .idle, owOe := false,
                         sync := u.sync, pins := u.pins, edges := u.edges }) ∧
        ((a1 && a2) = false → quietFor (3 * s.cfg.tSlot * s.cfg.clkPerUs) t →
          (∀ j, j < 3 * s.cfg.tSlot * s.cfg.clkPerUs → (t.after j).busy = true ∧ (t.after j).data = s.data) ∧
          (∀ j, j < 2 * s.cfg.tSlot * s.cfg.clkPerUs →
            (t.after j).owOe = decide (j / s.cfg.clkPerUs % s.cfg.tSlot < s.cfg.tRl)) ∧
          ∃ u, (Host.Core.run Sys2Proof.core (3 * s.cfg.tSlot * s.cfg.clkPerUs) t : Answer) = .next u ∧
            (∀ j, j < s.cfg.tSlot * s.cfg.clkPerUs →
              (t.after (2 * s.cfg.tSlot * s.cfg.clkPerUs + j)).owOe =
                decide (j / s.cfg.clkPerUs < writeLow s.cfg (if a1 || a2 then a1 else dir))) ∧
            u = { t with data := BitVec.ofNat 8 (a1.toNat + 2 * a2.toNat + 4 * (if a1 || a2 then a1 else dir).toNat),
                         seq := .idle, owOe := false, sync := u.sync, pins := u.pins, edges := u.edges })

/-- The clocked machine refines the pseudocode of R94, R95 and R110 to R114: accepted on an idle block and run for its duration without
reset, whatever the host writes meanwhile, a command ends idle with the line released and with the results the slot-level
command has on the samples the run takes. -/
def Obligations.ClockRefinesTheWholeCommand : Prop :=
  ∀ (i : Instr) (s : State), i.wf → Inv s → s.busy = false →
    ∃ t, exec i s = .next t ∧
      ∀ y : Wired Nat, y = wholeCommand (traceEnv t) i ⟨s, 0, 0⟩ →
        noResetFor (y.us * s.cfg.clkPerUs) t →
        ∃ u, (Host.Core.run Sys2Proof.core (y.us * s.cfg.clkPerUs) t : Answer) = .next u ∧
          u.seq = .idle ∧ u.owOe = false ∧ u.pd = y.blk.pd ∧ u.bf = y.blk.bf ∧ u.ill = y.blk.ill ∧ u.data = y.blk.data ∧
          u.crc = y.blk.crc

/-- R187, R210: no command can wait without bound: a timed command is over within the longest duration of its parameters (4850 µs
with the defaults). -/
def Obligations.EveryCommandEndsWithinItsBound : Prop :=
  ∀ (i : Instr) (s : State) (bound : Nat), i.wf → s.busy = false → s.cfg.wf →
    bound = max ((s.cfg.resetRetries + 1) * s.cfg.attempt) (8 * s.cfg.tSlot) →
    ∃ t, exec i s = .next t ∧
      (noResetFor (bound * s.cfg.clkPerUs) t →
        ∃ d u, d ≤ bound ∧ (Host.Core.run Sys2Proof.core (d * s.cfg.clkPerUs) t : Answer) = .next u ∧ u.seq = .idle)

/-- R80: on the clock, `CMD c` on an idle block, whatever the devices do, comes back to a host that polls, with the block idle, the
line released, CMDL the low byte of the word, CERR clear and ILL set exactly for a reserved opcode. -/
def Obligations.CmdIssuesAndWaitsForCompletion : Prop :=
  ∀ (i : Instr) (s : State) (low : Nat → Bool), i.wf → s.busy = false → s.cfg.wf → s.owOe = false →
    ∃ (fuel : Nat) (t : State), cmdOnClock low fuel (encode i) s = some t ∧
      t.seq = .idle ∧ t.owOe = false ∧ t.cmdl = lowByte (encode i) ∧ t.cerr = false ∧ t.ill = i.isReserved

/-- R210: the duration of every command, in every bus environment, and its figures under the defaults. -/
def Obligations.CommandDurationsFollowTheTable : Prop :=
  (∀ (σ : Type) (env : BusEnv σ) (i : Instr) (y : Wired σ),
      ∃ k, k ≤ y.blk.cfg.resetRetries ∧
        (wholeCommand env i y).us = y.us + duration y.blk.cfg i k (wholeCommand env i y).blk.bf) ∧
    ∀ (clk base k n : Nat) (v : Byte) (d : Bool),
      duration (Config.defaults clk base) .busReset k false = 970 * (k + 1) ∧
        duration (Config.defaults clk base) (.writeBits v n) k false = 70 * n ∧
        duration (Config.defaults clk base) (.readBits n) k false = 70 * n ∧
        duration (Config.defaults clk base) (.triplet d) k false = 210 ∧
        duration (Config.defaults clk base) (.triplet d) k true = 140 ∧
        duration (Config.defaults clk base) .nop k false = 0

/-- R108, R112: with equal low times (as the defaults have), writing all ones drives the line exactly as reading does. -/
def Obligations.WritingOnesLooksLikeReading : Prop :=
  ∀ (s t t' : State) (v : Byte) (n : Nat), s.busy = false → s.cfg.wf → s.cfg.tRl = s.cfg.tW1l → 1 ≤ n → n ≤ 8 →
    (∀ i, i < n → bitOf v i = true) →
    exec (.writeBits v n) s = .next t → exec (.readBits n) s = .next t' →
    ∀ j, noResetFor j t → (t.after j).busy = true → (t.after j).owOe = (t'.after j).owOe ∧ (t'.after j).busy = true

/-! ## CRC -/

/-- R92: eight folds, least significant bit first, are one update. -/
def Obligations.EightFoldsAreOneUpdate : Prop :=
  ∀ c d : Byte, crc8FoldBits c ((List.range 8).map (bitOf d)) = crc8Update c d

/-- R96: a code of 8 bytes is well-formed exactly when the 8 bytes validate, and every payload has exactly one such trailing byte,
whatever the family. -/
def Obligations.WellFormedCodesAreThoseThatValidate : Prop :=
  (∀ rom : List Byte, rom.length = 8 → romWellFormed rom = crc8Validate rom) ∧
    ∀ (payload : List Byte) (x : Byte), crc8Validate (payload ++ [x]) = true ↔ x = crc8Of payload

/-- L1-7 of spec/95_test_vectors.md: flipping any single bit of a well-formed code makes validation fail. -/
def Obligations.SingleBitFlipsFailValidation : Prop :=
  ∀ (rom : List Byte) (p : Nat), romWellFormed rom = true → p < 64 →
    crc8Validate (setCodeBit rom p (!codeBit rom p)) = false

/-! ## Host procedures and the bus environment -/

/-- R142: in every bus environment, `crc_ok` of `read_bytes` says whether the bytes read and the trailing byte validate, and `count`
bytes are read before it, 560 µs each with the defaults. -/
def Obligations.ReadBytesReportsValidity : Prop :=
  ∀ (σ : Type) (env : BusEnv σ) (count : Nat) (y : Wired σ),
    (readBytes env count y).crcOk = crc8Validate ((readBytes env count y).buf ++ [(readBytes env count y).tail]) ∧
      (readBytes env count y).buf.length = count ∧
      (readBytes env count y).sys.us = y.us + (count + 1) * (8 * y.blk.cfg.tSlot)

/-- R143 to R145, R162: where no attempt ever finds presence, every procedure fails, and nothing follows the reset. -/
def Obligations.NoPresenceFailsEveryProcedure : Prop :=
  ∀ (σ : Type) (env : BusEnv σ) (y : Wired σ) (code prev : List Byte) (cmd : Byte) (last : Int),
    (∀ w, (env.rst w).1 = true) →
    matchRom env code y = (false, y.cmd env .busReset) ∧ skipRom env y = (false, y.cmd env .busReset) ∧
      (readRom env y).ok = false ∧ (readRom env y).sys = y.cmd env .busReset ∧
      searchPass env cmd prev last y = (.error, y.cmd env .busReset)

/-- R106, R111: on a line whose presence answer does not change, both values of RESET_RETRY_ON give the same PD, and they differ in
the number of attempts: one, or all RESET_RETRIES + 1. -/
def Obligations.StableLineHidesTheRetryPolarity : Prop :=
  ∀ (σ : Type) (env : BusEnv σ) (y : Wired σ) (high : Bool), (∀ w, (env.rst w).1 = high) →
    (wholeBusReset env y).blk.pd = !high ∧
      (wholeBusReset env y).us =
        y.us + (if (y.blk.cfg.retryOn = .presence ↔ high = false) then y.blk.cfg.resetRetries + 1 else 1) *
          y.blk.cfg.attempt

/-- R111, R113, R114 (U18): on an empty line BUS_RESET finds no presence, READ_BITS reads ones, and TRIPLET reads 0b11. -/
def Obligations.EmptyLineReadsOnes : Prop :=
  ∀ (y : Wired (List Device)) (n : Nat) (dir : Bool), y.bus = [] → n ≤ 8 →
    (wholeCommand refEnv .busReset y).blk.pd = false ∧
      (wholeCommand refEnv (.readBits n) y).blk.data = BitVec.ofNat 8 (2 ^ n - 1) ∧
      (wholeCommand refEnv (.triplet dir) y).blk.data = 3 + 4 * BitVec.ofNat 8 dir.toNat ∧
      (wholeCommand refEnv (.triplet dir) y).blk.bf = true

/-- R132: what TRIPLET reads when the devices `A` in `SEARCH(p, id)` are the only ones driving, and which of them stay in the search:
those with `bit(x, p) = d`, which after position 63 are selected (R131). -/
def Obligations.TripletSeesTheSearchingDevices : Prop :=
  ∀ (y : Wired (List Device)) (p : Nat) (dir : Bool) (a1 a2 d : Bool), p < 64 →
    (∀ x ∈ y.bus, x.mode = .search p .idBit ∨ x.mode = .idle) →
    a1 = (searching p y.bus).all (fun x => x.bit p) →
    a2 = (searching p y.bus).all (fun x => !x.bit p) →
    d = (if a1 || a2 then a1 else dir) →
    bitOf (wholeCommand refEnv (.triplet dir) y).blk.data 0 = a1 ∧
      bitOf (wholeCommand refEnv (.triplet dir) y).blk.data 1 = a2 ∧
      (wholeCommand refEnv (.triplet dir) y).blk.bf = (searching p y.bus).isEmpty ∧
      ((searching p y.bus).isEmpty = false →
        bitOf (wholeCommand refEnv (.triplet dir) y).blk.data 2 = d ∧
        (wholeCommand refEnv (.triplet dir) y).bus =
          y.bus.map (fun x =>
            if x.mode = .search p .idBit then
              { x with mode := if x.bit p = d then (if p < 63 then .search (p + 1) .idBit else .selected) else .idle }
            else x))

/-- R145: `read_rom` on devices that are present reads, bit by bit, the AND of their codes; with exactly one device the code is its
ROM code and `ok = true`. -/
def Obligations.ReadRomReadsTheWiredAnd : Prop :=
  ∀ y : Wired (List Device), y.bus ≠ [] → devicesWellFormed y.bus = true →
    ((readRom refEnv y).code.length = 8 ∧
      ∀ p, p < 64 → codeBit (readRom refEnv y).code p = y.bus.all (fun x => x.bit p)) ∧
    ∀ x, y.bus = [x] → (readRom refEnv y).ok = true ∧ (readRom refEnv y).code = x.rom

/-- R146: how long the procedures take on devices that are present, host gaps aside. -/
def Obligations.ProcedureDurationsFollowTheTable : Prop :=
  ∀ (y : Wired (List Device)) (code : List Byte) (c : Config) (attempts : Nat), y.bus ≠ [] → code.length = 8 → c = y.blk.cfg →
    attempts = (if c.retryOn = .presence then c.resetRetries + 1 else 1) →
    (matchRom refEnv code y).2.us = y.us + attempts * c.attempt + 9 * (8 * c.tSlot) ∧
      (skipRom refEnv y).2.us = y.us + attempts * c.attempt + 8 * c.tSlot ∧
      (readRom refEnv y).sys.us = y.us + attempts * c.attempt + 9 * (8 * c.tSlot)

/-- R163: the direction hint, and that it matters only when a TRIPLET reads 0b00: on 0b01 and 0b10 the direction is the first bit
read, and on 0b11 the pass ends in ERROR whatever the hint (R165). -/
def Obligations.SearchHintFollowsTheCursor : Prop :=
  ∀ (prev : List Byte) (last : Int) (p : Nat),
    ((p : Int) = last → searchHint prev last p = true) ∧
      ((p : Int) < last → searchHint prev last p = bitOf (prev.getD (p / 8) 0) (p % 8)) ∧
      ((p : Int) > last → searchHint prev last p = false) ∧ searchHint prev searchFirst p = false ∧
      (∀ a1 a2 h h' : Bool, a1 ≠ a2 → tripletDir h a1 a2 = a1 ∧ tripletDir h a1 a2 = tripletDir h' a1 a2) ∧
      ∀ (σ : Type) (env : BusEnv σ) (y : Wired σ) (m : Nat) (code : List Byte) (next : Int),
        (env.readSlot y.bus).1 = true → (env.readSlot (env.readSlot y.bus).2).1 = true →
        (searchWalk env prev last (m + 1) p code next y).1 = .error

/-- R167: with devices present and no alarm set, ALARM_SEARCH ends in ERROR at the first TRIPLET, with BF set. -/
def Obligations.AlarmSearchWithoutAlarmsIsAnError : Prop :=
  ∀ (y : Wired (List Device)) (prev : List Byte) (last : Int), y.bus ≠ [] → (∀ x ∈ y.bus, x.alarm = false) →
    (searchPass refEnv alarmSearchByte prev last y).1 = .error ∧
      (searchPass refEnv alarmSearchByte prev last y).2.blk.bf = true ∧
      (searchPass refEnv alarmSearchByte prev last y).2.us =
        (y.cmd refEnv .busReset).us + 8 * y.blk.cfg.tSlot + 2 * y.blk.cfg.tSlot

/-- L1-9, R168 for one device: the first pass returns its code and LAST. -/
def Obligations.LoneDeviceIsFoundAtOnce : Prop :=
  ∀ (y : Wired (List Device)) (x : Device) (prev : List Byte), y.bus = [x] → romWellFormed x.rom = true →
    (searchPass refEnv searchRomByte prev searchFirst y).1 = .found x.rom searchLast

/-- R169: with two or more devices that first diverge at position `q`, the first pass returns a discrepancy from `q` to 63. -/
def Obligations.FirstDiscrepancyIsAtOrAfterTheFirstDivergence : Prop :=
  ∀ (y : Wired (List Device)) (prev : List Byte) (q : Nat), devicesWellFormed y.bus = true → q < 64 →
    (∀ p, p < q → ∀ x ∈ y.bus, ∀ x' ∈ y.bus, x.bit p = x'.bit p) →
    (∃ x ∈ y.bus, ∃ x' ∈ y.bus, x.bit q ≠ x'.bit q) →
    ∃ code next, (searchPass refEnv searchRomByte prev searchFirst y).1 = .found code next ∧ (q : Int) ≤ next ∧ next ≤ 63 ∧
      code ∈ y.bus.map (fun x => x.rom)

/-- R168: from FIRST, with a fixed set of N devices, N calls return the N codes, each exactly once, the 0-branch first, and the N-th
call, and no earlier one, returns LAST. With `family = 0` a call of `search_rom` is one pass. -/
def Obligations.EnumerationFindsEveryDeviceOnce : Prop :=
  ∀ (y : Wired (List Device)) (prev : List Byte), y.bus ≠ [] → devicesWellFormed y.bus = true →
    (y.bus.map (fun x => x.rom)).Nodup →
    ∃ found, (enumerate refEnv searchRomByte y.bus.length prev searchFirst y).2.1 = found ∧
      (enumerate refEnv searchRomByte y.bus.length prev searchFirst y).2.2.1 = true ∧
      found.Perm (y.bus.map (fun x => x.rom)) ∧ found.Pairwise CodeBefore ∧
      ∀ (fuel : Nat) (cmd : Byte) (prev' : List Byte) (last : Int) (y' : Wired (List Device)),
        searchRom refEnv 0 cmd (fuel + 1) prev' last y' = some (searchPass refEnv cmd prev' last y')

/-- R211: the windows are exactly what makes the reference devices, which tell the block's pulses apart by their low times, the
reference environment of R130 and R131, whatever happens outside the windows; so what is claimed over `refEnv` is a claim about
the wire for a block whose constants meet them. The defaults do, and they do not with the times of write 1 and write 0
swapped. That the "~" figures are exact is DEDUCED (notes/assumptions/15.md). -/
def Obligations.WindowsMakeTheWireTheReference : Prop :=
  (∀ c : Config, (∀ odd, pulseEnv odd c = refEnv) ↔ c.meetsWindows) ∧
    (∀ (odd : OutOfWindow) (y : Wired (List Device)), y.blk.cfg.meetsWindows →
      (∀ i, wholeCommand (pulseEnv odd y.blk.cfg) i y = wholeCommand refEnv i y) ∧
        readRom (pulseEnv odd y.blk.cfg) y = readRom refEnv y ∧
        ∀ fuel family cmd prev last,
          searchRom (pulseEnv odd y.blk.cfg) family cmd fuel prev last y = searchRom refEnv family cmd fuel prev last y) ∧
    ∀ clk base : Nat, (Config.defaults clk base).meetsWindows ∧
      ¬ ({ Config.defaults clk base with tW1l := 60, tW1h := 10, tW0l := 6, tW0h := 64 } : Config).meetsWindows
end

