-- ==== Sys2Proof/Laws/State.lean ====
section
/-! SUPPORT. What each update of State does to each field, once, so that no later proof unfolds a record update. -/

namespace Sys2Proof.Machine

@[simp] theorem State.acceptFlags_cfg (x : Bool) (s : State) : (s.acceptFlags x).cfg = s.cfg := rfl
@[simp] theorem State.acceptFlags_cmdl (x : Bool) (s : State) : (s.acceptFlags x).cmdl = s.cmdl := rfl
@[simp] theorem State.acceptFlags_pd (x : Bool) (s : State) : (s.acceptFlags x).pd = s.pd := rfl
@[simp] theorem State.acceptFlags_bf (x : Bool) (s : State) : (s.acceptFlags x).bf = false := rfl
@[simp] theorem State.acceptFlags_ill (x : Bool) (s : State) : (s.acceptFlags x).ill = x := rfl
@[simp] theorem State.acceptFlags_cerr (x : Bool) (s : State) : (s.acceptFlags x).cerr = false := rfl
@[simp] theorem State.acceptFlags_data (x : Bool) (s : State) : (s.acceptFlags x).data = s.data := rfl
@[simp] theorem State.acceptFlags_crc (x : Bool) (s : State) : (s.acceptFlags x).crc = s.crc := rfl
@[simp] theorem State.acceptFlags_seq (x : Bool) (s : State) : (s.acceptFlags x).seq = s.seq := rfl
@[simp] theorem State.acceptFlags_owOe (x : Bool) (s : State) : (s.acceptFlags x).owOe = s.owOe := rfl
@[simp] theorem State.acceptFlags_sync (x : Bool) (s : State) : (s.acceptFlags x).sync = s.sync := rfl
@[simp] theorem State.acceptFlags_pins (x : Bool) (s : State) : (s.acceptFlags x).pins = s.pins := rfl
@[simp] theorem State.acceptFlags_edges (x : Bool) (s : State) : (s.acceptFlags x).edges = s.edges := rfl

@[simp] theorem State.dropCommand_cfg (s : State) : (s.dropCommand).cfg = s.cfg := rfl
@[simp] theorem State.dropCommand_cmdl (s : State) : (s.dropCommand).cmdl = s.cmdl := rfl
@[simp] theorem State.dropCommand_pd (s : State) : (s.dropCommand).pd = s.pd := rfl
@[simp] theorem State.dropCommand_bf (s : State) : (s.dropCommand).bf = s.bf := rfl
@[simp] theorem State.dropCommand_ill (s : State) : (s.dropCommand).ill = s.ill := rfl
@[simp] theorem State.dropCommand_cerr (s : State) : (s.dropCommand).cerr = true := rfl
@[simp] theorem State.dropCommand_data (s : State) : (s.dropCommand).data = s.data := rfl
@[simp] theorem State.dropCommand_crc (s : State) : (s.dropCommand).crc = s.crc := rfl
@[simp] theorem State.dropCommand_seq (s : State) : (s.dropCommand).seq = s.seq := rfl
@[simp] theorem State.dropCommand_owOe (s : State) : (s.dropCommand).owOe = s.owOe := rfl
@[simp] theorem State.dropCommand_sync (s : State) : (s.dropCommand).sync = s.sync := rfl
@[simp] theorem State.dropCommand_pins (s : State) : (s.dropCommand).pins = s.pins := rfl
@[simp] theorem State.dropCommand_edges (s : State) : (s.dropCommand).edges = s.edges := rfl

@[simp] theorem State.clockIn_cfg (s : State) : (s.clockIn).cfg = s.cfg := rfl
@[simp] theorem State.clockIn_cmdl (s : State) : (s.clockIn).cmdl = s.cmdl := rfl
@[simp] theorem State.clockIn_pd (s : State) : (s.clockIn).pd = s.pd := rfl
@[simp] theorem State.clockIn_bf (s : State) : (s.clockIn).bf = s.bf := rfl
@[simp] theorem State.clockIn_ill (s : State) : (s.clockIn).ill = s.ill := rfl
@[simp] theorem State.clockIn_cerr (s : State) : (s.clockIn).cerr = s.cerr := rfl
@[simp] theorem State.clockIn_data (s : State) : (s.clockIn).data = s.data := rfl
@[simp] theorem State.clockIn_crc (s : State) : (s.clockIn).crc = s.crc := rfl
@[simp] theorem State.clockIn_seq (s : State) : (s.clockIn).seq = s.seq := rfl
@[simp] theorem State.clockIn_owOe (s : State) : (s.clockIn).owOe = s.owOe := rfl
@[simp] theorem State.clockIn_sync (s : State) : (s.clockIn).sync = (s.owIn :: s.sync).take s.cfg.syncStages := rfl
@[simp] theorem State.clockIn_pins (s : State) : (s.clockIn).pins = s.pins.tail := rfl
@[simp] theorem State.clockIn_edges (s : State) : (s.clockIn).edges = s.edges + 1 := rfl

@[simp] theorem State.applyReset_cfg (s : State) : (s.applyReset).cfg = s.cfg := rfl
@[simp] theorem State.applyReset_cmdl (s : State) : (s.applyReset).cmdl = 0x00 := rfl
@[simp] theorem State.applyReset_pd (s : State) : (s.applyReset).pd = false := rfl
@[simp] theorem State.applyReset_bf (s : State) : (s.applyReset).bf = false := rfl
@[simp] theorem State.applyReset_ill (s : State) : (s.applyReset).ill = false := rfl
@[simp] theorem State.applyReset_cerr (s : State) : (s.applyReset).cerr = false := rfl
@[simp] theorem State.applyReset_data (s : State) : (s.applyReset).data = 0x00 := rfl
@[simp] theorem State.applyReset_crc (s : State) : (s.applyReset).crc = 0x00 := rfl
@[simp] theorem State.applyReset_seq (s : State) : (s.applyReset).seq = .idle := rfl
@[simp] theorem State.applyReset_owOe (s : State) : (s.applyReset).owOe = false := rfl
@[simp] theorem State.applyReset_sync (s : State) : (s.applyReset).sync = s.sync := rfl
@[simp] theorem State.applyReset_pins (s : State) : (s.applyReset).pins = s.pins := rfl
@[simp] theorem State.applyReset_edges (s : State) : (s.applyReset).edges = s.edges := rfl

@[simp] theorem State.writeCmdl_cfg (v : Byte) (s : State) : (s.writeCmdl v).cfg = s.cfg := rfl
@[simp] theorem State.writeCmdl_cmdl (v : Byte) (s : State) : (s.writeCmdl v).cmdl = v := rfl
@[simp] theorem State.writeCmdl_pd (v : Byte) (s : State) : (s.writeCmdl v).pd = s.pd := rfl
@[simp] theorem State.writeCmdl_bf (v : Byte) (s : State) : (s.writeCmdl v).bf = s.bf := rfl
@[simp] theorem State.writeCmdl_ill (v : Byte) (s : State) : (s.writeCmdl v).ill = s.ill := rfl
@[simp] theorem State.writeCmdl_cerr (v : Byte) (s : State) : (s.writeCmdl v).cerr = s.cerr := rfl
@[simp] theorem State.writeCmdl_data (v : Byte) (s : State) : (s.writeCmdl v).data = s.data := rfl
@[simp] theorem State.writeCmdl_crc (v : Byte) (s : State) : (s.writeCmdl v).crc = s.crc := rfl
@[simp] theorem State.writeCmdl_seq (v : Byte) (s : State) : (s.writeCmdl v).seq = s.seq := rfl
@[simp] theorem State.writeCmdl_owOe (v : Byte) (s : State) : (s.writeCmdl v).owOe = s.owOe := rfl
@[simp] theorem State.writeCmdl_sync (v : Byte) (s : State) : (s.writeCmdl v).sync = s.sync := rfl
@[simp] theorem State.writeCmdl_pins (v : Byte) (s : State) : (s.writeCmdl v).pins = s.pins := rfl
@[simp] theorem State.writeCmdl_edges (v : Byte) (s : State) : (s.writeCmdl v).edges = s.edges := rfl

@[simp] theorem State.resume_cfg (r : Run) (s : State) : (s.resume r).cfg = s.cfg := rfl
@[simp] theorem State.resume_cmdl (r : Run) (s : State) : (s.resume r).cmdl = s.cmdl := rfl
@[simp] theorem State.resume_pd (r : Run) (s : State) : (s.resume r).pd = s.pd := rfl
@[simp] theorem State.resume_bf (r : Run) (s : State) : (s.resume r).bf = s.bf := rfl
@[simp] theorem State.resume_ill (r : Run) (s : State) : (s.resume r).ill = s.ill := rfl
@[simp] theorem State.resume_cerr (r : Run) (s : State) : (s.resume r).cerr = s.cerr := rfl
@[simp] theorem State.resume_data (r : Run) (s : State) : (s.resume r).data = s.data := rfl
@[simp] theorem State.resume_crc (r : Run) (s : State) : (s.resume r).crc = s.crc := rfl
@[simp] theorem State.resume_seq (r : Run) (s : State) : (s.resume r).seq = .run r := rfl
@[simp] theorem State.resume_owOe (r : Run) (s : State) : (s.resume r).owOe = r.drive s.cfg := rfl
@[simp] theorem State.resume_sync (r : Run) (s : State) : (s.resume r).sync = s.sync := rfl
@[simp] theorem State.resume_pins (r : Run) (s : State) : (s.resume r).pins = s.pins := rfl
@[simp] theorem State.resume_edges (r : Run) (s : State) : (s.resume r).edges = s.edges := rfl

@[simp] theorem State.start_cfg (c : Timed) (s : State) : (s.start c).cfg = s.cfg := rfl
@[simp] theorem State.start_cmdl (c : Timed) (s : State) : (s.start c).cmdl = s.cmdl := rfl
@[simp] theorem State.start_pd (c : Timed) (s : State) : (s.start c).pd = s.pd := rfl
@[simp] theorem State.start_bf (c : Timed) (s : State) : (s.start c).bf = s.bf := rfl
@[simp] theorem State.start_ill (c : Timed) (s : State) : (s.start c).ill = s.ill := rfl
@[simp] theorem State.start_cerr (c : Timed) (s : State) : (s.start c).cerr = s.cerr := rfl
@[simp] theorem State.start_data (c : Timed) (s : State) : (s.start c).data = s.data := rfl
@[simp] theorem State.start_crc (c : Timed) (s : State) : (s.start c).crc = s.crc := rfl
@[simp] theorem State.start_seq (c : Timed) (s : State) : (s.start c).seq = .run (Run.start c) := rfl
@[simp] theorem State.start_owOe (c : Timed) (s : State) : (s.start c).owOe = (Run.start c).drive s.cfg := rfl
@[simp] theorem State.start_sync (c : Timed) (s : State) : (s.start c).sync = s.sync := rfl
@[simp] theorem State.start_pins (c : Timed) (s : State) : (s.start c).pins = s.pins := rfl
@[simp] theorem State.start_edges (c : Timed) (s : State) : (s.start c).edges = s.edges := rfl

@[simp] theorem State.complete_cfg (s : State) : (s.complete).cfg = s.cfg := rfl
@[simp] theorem State.complete_cmdl (s : State) : (s.complete).cmdl = s.cmdl := rfl
@[simp] theorem State.complete_pd (s : State) : (s.complete).pd = s.pd := rfl
@[simp] theorem State.complete_bf (s : State) : (s.complete).bf = s.bf := rfl
@[simp] theorem State.complete_ill (s : State) : (s.complete).ill = s.ill := rfl
@[simp] theorem State.complete_cerr (s : State) : (s.complete).cerr = s.cerr := rfl
@[simp] theorem State.complete_data (s : State) : (s.complete).data = s.data := rfl
@[simp] theorem State.complete_crc (s : State) : (s.complete).crc = s.crc := rfl
@[simp] theorem State.complete_seq (s : State) : (s.complete).seq = .idle := rfl
@[simp] theorem State.complete_owOe (s : State) : (s.complete).owOe = false := rfl
@[simp] theorem State.complete_sync (s : State) : (s.complete).sync = s.sync := rfl
@[simp] theorem State.complete_pins (s : State) : (s.complete).pins = s.pins := rfl
@[simp] theorem State.complete_edges (s : State) : (s.complete).edges = s.edges := rfl

end Sys2Proof.Machine
end

