-- ==== Sys2Proof/Laws/Ops.lean ====
section
/-! SUPPORT. One lemma per shared operation: what acceptance, the host access and the sequencer can do. -/

namespace Sys2Proof.Machine

theorem busy_eq_false_iff (s : State) : s.busy = false ↔ s.seq = .idle := by
  unfold State.busy; cases s.seq <;> simp

theorem busy_eq_true_iff (s : State) : s.busy = true ↔ ∃ r, s.seq = .run r := by
  unfold State.busy; cases s.seq <;> simp

@[simp] theorem clockIn_busy (s : State) : s.clockIn.busy = s.busy := rfl

/-- Acceptance on an idle block takes the command's own effect after the flag updates. -/
theorem accepted_of_idle {ill : Bool} {f : State → State} {s : State} (h : s.busy = false) :
    accepted ill f s = .next (f (s.acceptFlags ill)) := by
  simp [accepted, h]

/-- Acceptance on a busy block drops the word. -/
theorem accepted_of_busy {ill : Bool} {f : State → State} {s : State} (h : s.busy = true) :
    accepted ill f s = .next s.dropCommand := by
  simp [accepted, h]

/-- The own effect of each command, after the flag updates of acceptance. -/
def ownEffect (i : Instr) (s : State) : State :=
  match i with
  | .nop => s
  | .busReset => s.start .busReset
  | .writeBits v n => s.start (.writeBits v n)
  | .readBits n => s.start (.readBits n)
  | .triplet d => s.start (.triplet d)
  | .crcLoad v => { s with crc := v }
  | .crcUpdate v => { s with crc := crc8Update s.crc v }
  | .reserved7 => s
  | .reservedHigh _ => s

/-- Every command is acceptance followed by its own effect. -/
theorem exec_eq_accepted (i : Instr) (s : State) : exec i s = accepted i.isReserved (ownEffect i) s := by
  cases i <;> rfl

theorem exec_of_idle (i : Instr) {s : State} (h : s.busy = false) :
    exec i s = .next (ownEffect i (s.acceptFlags i.isReserved)) := by
  rw [exec_eq_accepted, accepted_of_idle h]

/-- What no command's own effect touches. -/
theorem ownEffect_frame (i : Instr) (s : State) :
    (ownEffect i s).cfg = s.cfg ∧ (ownEffect i s).cmdl = s.cmdl ∧ (ownEffect i s).pd = s.pd ∧ (ownEffect i s).bf = s.bf ∧
      (ownEffect i s).ill = s.ill ∧ (ownEffect i s).cerr = s.cerr ∧ (ownEffect i s).data = s.data ∧
      (ownEffect i s).sync = s.sync ∧ (ownEffect i s).pins = s.pins ∧ (ownEffect i s).edges = s.edges := by
  cases i <;> simp [ownEffect]

/-- The state a host access leaves. -/
def accessed (p : Pins) (s : State) : State :=
  if p.hWe then
    if p.hAddr = 0 then s.writeCmdl p.hWdata
    else if p.hAddr = 1 then
      if s.busy then s.dropCommand
      else ownEffect (s.presentedInstr p.hWdata) (s.acceptFlags (s.presentedInstr p.hWdata).isReserved)
    else s
  else s

/-- A host access always answers a next state. -/
theorem hostAccess_eq (p : Pins) (s : State) : hostAccess p s = .next (accessed p s) := by
  have h0 : p.hAddr = 0 ↔ p.hAddr.toNat = 0 := by
    constructor
    · intro h; simp [h]
    · intro h; exact BitVec.eq_of_toNat_eq (by simpa using h)
  have h1 : p.hAddr = 1 ↔ p.hAddr.toNat = 1 := by
    constructor
    · intro h; simp [h]
    · intro h; exact BitVec.eq_of_toNat_eq (by simpa using h)
  unfold hostAccess accessed
  by_cases hw : p.hWe
  · simp only [hw, if_true]
    split
    · rename_i h; simp [h0.2 h]
    · rename_i h
      have : p.hAddr = 1 := h1.2 h
      simp only [this, exec_eq_accepted, accepted]
      split <;> simp
    · rename_i a b
      have ne0 : ¬ p.hAddr = 0 := fun h => a (h0.1 h)
      have ne1 : ¬ p.hAddr = 1 := fun h => b (h1.1 h)
      rw [if_neg ne0, if_neg ne1]
  · simp [hw]

/-- The state one rising edge leaves. -/
def edge (s : State) : State :=
  if s.nextPins.rst then s.clockIn.applyReset
  else if s.busy then (accessed s.nextPins s.clockIn).tick s.sampleNow
  else accessed s.nextPins s.clockIn

/-- Every edge answers a next state. -/
theorem clockEdge_eq (s : State) : clockEdge s = .next (edge s) := by
  unfold clockEdge edge
  by_cases h : s.nextPins.rst
  · simp [h]
  · simp only [h, hostAccess_eq]
    cases s.busy <;> simp

/-- While the block is busy, a host access touches CMDL and CERR only. -/
theorem accessed_of_busy (p : Pins) {s : State} (h : s.busy = true) :
    accessed p s = { s with cmdl := (accessed p s).cmdl, cerr := (accessed p s).cerr } := by
  unfold accessed
  split
  · split
    · rfl
    · split
      · simp [State.dropCommand]
      · rfl
  · rfl

end Sys2Proof.Machine
end

