-- ==== Sys2Proof/Laws/Sequencer.lean ====
section
/-! SUPPORT. What the sequencer can do at an edge: the fields no running command touches, and each command's boundary. -/

namespace Sys2Proof.Machine

/-- The fields no running command writes (R26, R32, R100). -/
structure SameOutside (t s : State) : Prop where
  cfg : t.cfg = s.cfg
  cmdl : t.cmdl = s.cmdl
  ill : t.ill = s.ill
  cerr : t.cerr = s.cerr
  sync : t.sync = s.sync
  pins : t.pins = s.pins
  edges : t.edges = s.edges

theorem SameOutside.refl (s : State) : SameOutside s s := ⟨rfl, rfl, rfl, rfl, rfl, rfl, rfl⟩

/-- BUS_RESET at a boundary: the attempt goes on, another one starts, or PD is written and the block is idle. -/
theorem busResetBoundary_cases (smp : Bool) (r : Run) (s : State) :
    ∃ r' : Run, r' = { r with p := if presenceInstant s.cfg r then !smp else r.p } ∧
      ((r.slotOver s.cfg = false ∧ busResetBoundary smp r s = s.resume r') ∨
        (r.slotOver s.cfg = true ∧ again s.cfg r'.p r.k = true ∧
          busResetBoundary smp r s = s.resume { r' with k := r.k + 1 }) ∨
        (r.slotOver s.cfg = true ∧ again s.cfg r'.p r.k = false ∧
          busResetBoundary smp r s = State.complete { s with pd := r'.p })) := by
  refine ⟨_, rfl, ?_⟩
  have hso : ∀ b, Run.slotOver s.cfg { r with p := b } = r.slotOver s.cfg := fun _ => rfl
  unfold busResetBoundary
  simp only [hso]
  cases r.slotOver s.cfg
  · simp
  · cases again s.cfg (if presenceInstant s.cfg r then !smp else r.p) r.k <;> simp

/-- WRITE_BITS at a boundary: the slot goes on, the next one starts, or the block is idle. -/
theorem writeBitsBoundary_cases (n : Nat) (r : Run) (s : State) :
    (r.slotOver s.cfg = false ∧ writeBitsBoundary n r s = s.resume r) ∨
      (r.slotOver s.cfg = true ∧ r.k + 1 < n ∧ writeBitsBoundary n r s = s.resume { r with k := r.k + 1 }) ∨
      (r.slotOver s.cfg = true ∧ ¬ r.k + 1 < n ∧ writeBitsBoundary n r s = s.complete) := by
  unfold writeBitsBoundary
  cases r.slotOver s.cfg
  · simp
  · by_cases h : r.k + 1 < n <;> simp [h]

/-- READ_BITS at a boundary: the sample lands in `sh` (and in CRC for `n = 8`), and the slot goes on, the next one starts, or
DATA is written and the block is idle. -/
theorem readBitsBoundary_cases (n : Nat) (smp : Bool) (r : Run) (s : State) :
    ∃ (r' : Run) (s' : State),
      r' = { r with sh := if readInstant s.cfg r then setBit r.sh r.k smp else r.sh } ∧
      s' = { s with crc := if readInstant s.cfg r && n == 8 then crc8FoldBit s.crc smp else s.crc } ∧
      ((r.slotOver s.cfg = false ∧ readBitsBoundary n smp r s = s'.resume r') ∨
        (r.slotOver s.cfg = true ∧ r.k + 1 < n ∧ readBitsBoundary n smp r s = s'.resume { r' with k := r.k + 1 }) ∨
        (r.slotOver s.cfg = true ∧ ¬ r.k + 1 < n ∧
          readBitsBoundary n smp r s = State.complete { s' with data := r'.sh })) := by
  refine ⟨_, _, rfl, rfl, ?_⟩
  have hso : ∀ b, Run.slotOver s.cfg { r with sh := b } = r.slotOver s.cfg := fun _ => rfl
  unfold readBitsBoundary
  simp only [hso]
  cases r.slotOver s.cfg
  · simp
  · by_cases h : r.k + 1 < n <;> simp [h]

/-- TRIPLET at a boundary: the samples land in `a1` and `a2`, and the slot goes on, the next one starts, or DATA (and on 0b11 BF)
is written and the block is idle. -/
theorem tripletBoundary_cases (dir smp : Bool) (r : Run) (s : State) :
    ∃ r' : Run,
      r' = { r with a1 := if readInstant s.cfg r && r.k == 0 then smp else r.a1,
                    a2 := if readInstant s.cfg r && r.k == 1 then smp else r.a2 } ∧
      ((r.slotOver s.cfg = false ∧ tripletBoundary dir smp r s = s.resume r') ∨
        (r.slotOver s.cfg = true ∧ r.k = 0 ∧ tripletBoundary dir smp r s = s.resume { r' with k := 1 }) ∨
        (r.slotOver s.cfg = true ∧ r.k = 1 ∧ tripletFault r'.a1 r'.a2 = true ∧
          tripletBoundary dir smp r s =
            State.complete { s with data := tripletData dir true true, bf := true }) ∨
        (r.slotOver s.cfg = true ∧ r.k = 1 ∧ tripletFault r'.a1 r'.a2 = false ∧
          tripletBoundary dir smp r s = s.resume { r' with k := 2 }) ∨
        (r.slotOver s.cfg = true ∧ 2 ≤ r.k ∧
          tripletBoundary dir smp r s =
            State.complete { s with data := tripletData (tripletDir dir r'.a1 r'.a2) r'.a1 r'.a2 })) := by
  refine ⟨_, rfl, ?_⟩
  have hso : ∀ b b', Run.slotOver s.cfg { r with a1 := b, a2 := b' } = r.slotOver s.cfg := fun _ _ => rfl
  unfold tripletBoundary
  simp only [hso]
  cases r.slotOver s.cfg
  · simp
  · rcases hk : r.k with _ | _ | k
    · simp
    · cases tripletFault (if (readInstant s.cfg r && (1 : Nat) == 0) = true then smp else r.a1)
        (if (readInstant s.cfg r && (1 : Nat) == 1) = true then smp else r.a2) <;> simp_all
    · simp

/-- No running command touches the fields of `SameOutside`. -/
theorem boundary_sameOutside (smp : Bool) (r : Run) (s : State) : SameOutside (boundary smp r s) s := by
  unfold boundary
  cases r.cur with
  | busReset =>
    obtain ⟨r', -, ⟨-, h⟩ | ⟨-, -, h⟩ | ⟨-, -, h⟩⟩ := busResetBoundary_cases smp r s <;>
      simp only [h] <;> exact ⟨rfl, rfl, rfl, rfl, rfl, rfl, rfl⟩
  | writeBits v n =>
    obtain ⟨-, h⟩ | ⟨-, -, h⟩ | ⟨-, -, h⟩ := writeBitsBoundary_cases n r s <;>
      simp only [h] <;> exact ⟨rfl, rfl, rfl, rfl, rfl, rfl, rfl⟩
  | readBits n =>
    obtain ⟨r', s', -, rfl, ⟨-, h⟩ | ⟨-, -, h⟩ | ⟨-, -, h⟩⟩ := readBitsBoundary_cases n smp r s <;>
      simp only [h] <;> exact ⟨rfl, rfl, rfl, rfl, rfl, rfl, rfl⟩
  | triplet d =>
    obtain ⟨r', -, ⟨-, h⟩ | ⟨-, -, h⟩ | ⟨-, -, -, h⟩ | ⟨-, -, -, h⟩ | ⟨-, -, h⟩⟩ := tripletBoundary_cases d smp r s <;>
      simp only [h] <;> exact ⟨rfl, rfl, rfl, rfl, rfl, rfl, rfl⟩

theorem tickRun_sameOutside (smp : Bool) (r : Run) (s : State) : SameOutside (tickRun smp r s) s := by
  unfold tickRun
  split
  · exact ⟨rfl, rfl, rfl, rfl, rfl, rfl, rfl⟩
  · exact boundary_sameOutside smp _ s

theorem tick_sameOutside (smp : Bool) (s : State) : SameOutside (s.tick smp) s := by
  unfold State.tick
  split
  · exact SameOutside.refl s
  · exact tickRun_sameOutside smp _ s

theorem tick_of_idle (smp : Bool) {s : State} (h : s.seq = .idle) : s.tick smp = s := by
  simp [State.tick, h]

theorem tick_of_run (smp : Bool) {s : State} {r : Run} (h : s.seq = .run r) : s.tick smp = tickRun smp r s := by
  simp [State.tick, h]

end Sys2Proof.Machine
end

