-- ==== Sys2Proof/Laws/Step.lean ====
section
/-! SUPPORT. What a step can do, and how runs are put together. -/

namespace Sys2Proof.Machine

theorem step_eq (s : State) : step s = .next (edge s) := clockEdge_eq s

theorem step_next_iff {s t : State} : step s = .next t ↔ t = edge s := by
  rw [step_eq]
  constructor
  · intro h; injection h with h; exact h.symm
  · rintro rfl; rfl

/-- The state `n` edges later. -/
def runEdges : Nat → State → State
  | 0, s => s
  | n + 1, s => runEdges n (edge s)

theorem run_eq_runEdges (n : Nat) (s : State) : (Host.Core.run Sys2Proof.core n s : Answer) = .next (runEdges n s) := by
  induction n generalizing s with
  | zero => rfl
  | succ n ih =>
    have h : Sys2Proof.core.step s = .next (edge s) := step_eq s
    simp only [Host.Core.run, h]
    exact ih (edge s)

theorem after_eq_runEdges (n : Nat) (s : State) : s.after n = runEdges n s := by
  unfold State.after; rw [run_eq_runEdges]

theorem runEdges_add (m n : Nat) (s : State) : runEdges (m + n) s = runEdges n (runEdges m s) := by
  induction m generalizing s with
  | zero => simp [runEdges]
  | succ m ih =>
    rw [Nat.succ_add]
    exact ih (edge s)

theorem runEdges_succ (n : Nat) (s : State) : runEdges (n + 1) s = edge (runEdges n s) := by
  rw [runEdges_add]; rfl

/-- Every edge uses up one entry of the inputs, counts itself and keeps the parameters. -/
theorem accessed_ports (p : Pins) (s : State) :
    (accessed p s).cfg = s.cfg ∧ (accessed p s).sync = s.sync ∧ (accessed p s).pins = s.pins ∧
      (accessed p s).edges = s.edges := by
  unfold accessed
  split
  · split
    · simp
    · split
      · split
        · simp
        · simp [ownEffect_frame]
      · simp
  · simp

theorem edge_ports (s : State) :
    (edge s).cfg = s.cfg ∧ (edge s).sync = (s.owIn :: s.sync).take s.cfg.syncStages ∧ (edge s).pins = s.pins.tail ∧
      (edge s).edges = s.edges + 1 := by
  unfold edge
  split
  · simp
  · have h := accessed_ports s.nextPins s.clockIn
    split
    · have k := tick_sameOutside s.sampleNow (accessed s.nextPins s.clockIn)
      simp [k.cfg, k.sync, k.pins, k.edges, h]
    · simp [h]

theorem nextPins_eq_pinsAt (s : State) : s.nextPins = s.pinsAt 0 := by
  unfold State.nextPins State.pinsAt
  cases s.pins <;> simp

theorem pinsAt_edge (s : State) (j : Nat) : (edge s).pinsAt j = s.pinsAt (j + 1) := by
  obtain ⟨-, -, hp, he⟩ := edge_ports s
  unfold State.pinsAt
  rw [hp, he]
  cases s.pins <;> simp [Nat.add_assoc, Nat.add_comm 1 j]

theorem pinsAt_runEdges (n : Nat) (s : State) (j : Nat) : (runEdges n s).pinsAt j = s.pinsAt (n + j) := by
  induction n generalizing s with
  | zero => simp [runEdges]
  | succ n ih =>
    show (runEdges n (edge s)).pinsAt j = _
    rw [ih, pinsAt_edge]
    congr 1
    omega

theorem cfg_runEdges (n : Nat) (s : State) : (runEdges n s).cfg = s.cfg := by
  induction n generalizing s with
  | zero => rfl
  | succ n ih =>
    show (runEdges n (edge s)).cfg = _
    rw [ih, (edge_ports s).1]

end Sys2Proof.Machine
end

