-- ==== Sys2Proof/Laws/Run.lean ====
section
/-! SUPPORT. Runs of a command without reset, microsecond by microsecond: what the clock adds between two boundaries is nothing but the
prescaler, and what the host does touches CMDL and CERR only. -/

namespace Sys2Proof.Machine

theorem SameCommand.refl (s : State) : SameCommand s s := ⟨rfl, rfl, rfl, rfl, rfl, rfl, rfl, rfl, rfl⟩

/-- The part of a state that a running command reads and writes, without the synchronizer. -/
structure SamePart (s s' : State) : Prop where
  cfg : s.cfg = s'.cfg
  pd : s.pd = s'.pd
  bf : s.bf = s'.bf
  ill : s.ill = s'.ill
  data : s.data = s'.data
  crc : s.crc = s'.crc
  seq : s.seq = s'.seq
  owOe : s.owOe = s'.owOe

theorem SamePart.refl (s : State) : SamePart s s := ⟨rfl, rfl, rfl, rfl, rfl, rfl, rfl, rfl⟩

theorem SamePart.trans {a b c : State} (h : SamePart a b) (k : SamePart b c) : SamePart a c :=
  ⟨h.1.trans k.1, h.2.trans k.2, h.3.trans k.3, h.4.trans k.4, h.5.trans k.5, h.6.trans k.6, h.7.trans k.7, h.8.trans k.8⟩

/-- A boundary depends on the parameters and results only, and sets the sequencer and the line itself. -/
theorem boundary_congr {s s' : State} (smp : Bool) (r : Run) (cfg : s.cfg = s'.cfg) (pd : s.pd = s'.pd) (bf : s.bf = s'.bf)
    (ill : s.ill = s'.ill) (data : s.data = s'.data) (crc : s.crc = s'.crc) :
    SamePart (boundary smp r s) (boundary smp r s') := by
  cases s; cases s'
  simp only at cfg pd bf ill data crc
  subst cfg pd bf ill data crc
  simp only [boundary, busResetBoundary, writeBitsBoundary, readBitsBoundary, tripletBoundary]
  cases r.cur with
  | busReset => dsimp only; split_ifs <;> exact ⟨rfl, rfl, rfl, rfl, rfl, rfl, rfl, rfl⟩
  | writeBits v n => dsimp only; split_ifs <;> exact ⟨rfl, rfl, rfl, rfl, rfl, rfl, rfl, rfl⟩
  | readBits n => dsimp only; split_ifs <;> exact ⟨rfl, rfl, rfl, rfl, rfl, rfl, rfl, rfl⟩
  | triplet d =>
    dsimp only
    rcases r.k with _ | _ | k <;> split_ifs <;> exact ⟨rfl, rfl, rfl, rfl, rfl, rfl, rfl, rfl⟩

theorem boundary_samePart {s s' : State} (smp : Bool) (r : Run) (h : SamePart s s') :
    SamePart (boundary smp r s) (boundary smp r s') :=
  boundary_congr smp r h.cfg h.pd h.bf h.ill h.data h.crc

theorem accessed_samePart {s : State} (p : Pins) (h : s.busy = true) : SamePart (accessed p s) s := by
  rw [accessed_of_busy p h]
  exact ⟨rfl, rfl, rfl, rfl, rfl, rfl, rfl, rfl⟩

theorem clockIn_samePart (s : State) : SamePart s.clockIn s := ⟨rfl, rfl, rfl, rfl, rfl, rfl, rfl, rfl⟩

/-- One edge of a running command without reset, before the next boundary: the prescaler counts. -/
theorem edge_insideMicrosecond {s : State} {r : Run} (hs : s.seq = .run r) (hr : s.nextPins.rst = false)
    (hc : r.sub + 1 < s.cfg.clkPerUs) :
    SamePart (edge s) { s with seq := .run { r with sub := r.sub + 1 } } := by
  have hb : s.busy = true := (busy_eq_true_iff s).2 ⟨r, hs⟩
  have ha := accessed_samePart s.nextPins (s := s.clockIn) hb
  have hseq : (accessed s.nextPins s.clockIn).seq = .run r := by rw [ha.seq]; exact hs
  have hcfg : (accessed s.nextPins s.clockIn).cfg = s.cfg := ha.cfg
  unfold edge
  rw [if_neg (by simp [hr]), if_pos hb, tick_of_run _ hseq, tickRun, hcfg, if_pos hc]
  exact ⟨rfl, ha.pd, ha.bf, ha.ill, ha.data, ha.crc, rfl, ha.owOe⟩

/-- One edge of a running command without reset, at a boundary. -/
theorem edge_atBoundary {s : State} {r : Run} (hs : s.seq = .run r) (hr : s.nextPins.rst = false)
    (hc : ¬ r.sub + 1 < s.cfg.clkPerUs) :
    SamePart (edge s) (boundary s.sampleNow { r with t := r.t + 1, sub := 0 } s) := by
  have hb : s.busy = true := (busy_eq_true_iff s).2 ⟨r, hs⟩
  have ha := accessed_samePart s.nextPins (s := s.clockIn) hb
  have hseq : (accessed s.nextPins s.clockIn).seq = .run r := by rw [ha.seq]; exact hs
  have hcfg : (accessed s.nextPins s.clockIn).cfg = s.cfg := ha.cfg
  unfold edge
  rw [if_neg (by simp [hr]), if_pos hb, tick_of_run _ hseq, tickRun, hcfg, if_neg hc]
  exact boundary_samePart _ _ (ha.trans (clockIn_samePart s))

/-- The command `j` cycles into a microsecond. -/
theorem runEdges_insideMicrosecond {s : State} {r : Run} (hs : s.seq = .run r) (h0 : r.sub = 0) (j : Nat)
    (hj : j < s.cfg.clkPerUs) (hr : noResetFor j s) :
    SamePart (runEdges j s) { s with seq := .run { r with sub := j } } := by
  induction j with
  | zero =>
    have : ({ r with sub := 0 } : Run) = r := by cases r; simp_all
    rw [this, ← hs]
    exact SamePart.refl s
  | succ j ih =>
    have ih := ih (by omega) (fun i hi => hr i (by omega))
    rw [runEdges_succ]
    have hseq : (runEdges j s).seq = .run { r with sub := j } := ih.seq
    have hrst : (runEdges j s).nextPins.rst = false := by
      rw [nextPins_eq_pinsAt, pinsAt_runEdges]; exact hr _ (by omega)
    have hcfg : (runEdges j s).cfg = s.cfg := ih.cfg
    have := edge_insideMicrosecond hseq hrst (by rw [hcfg]; exact hj)
    exact this.trans ⟨ih.cfg, ih.pd, ih.bf, ih.ill, ih.data, ih.crc, rfl, ih.owOe⟩

/-- One whole microsecond of a running command without reset is one boundary, with the sample of its last edge. -/
theorem runEdges_microsecond {s : State} {r : Run} (hs : s.seq = .run r) (h0 : r.sub = 0) (hc : 0 < s.cfg.clkPerUs)
    (hr : noResetFor s.cfg.clkPerUs s) :
    SamePart (runEdges s.cfg.clkPerUs s)
      (boundary (runEdges (s.cfg.clkPerUs - 1) s).sampleNow { r with t := r.t + 1 } s) := by
  obtain ⟨c, hc'⟩ : ∃ c, s.cfg.clkPerUs = c + 1 := ⟨s.cfg.clkPerUs - 1, by omega⟩
  rw [hc'] at hr ⊢
  have inside := runEdges_insideMicrosecond hs h0 c (by omega) (fun i hi => hr i (by omega))
  rw [runEdges_succ, Nat.add_sub_cancel]
  have hseq : (runEdges c s).seq = .run { r with sub := c } := inside.seq
  have hrst : (runEdges c s).nextPins.rst = false := by
    rw [nextPins_eq_pinsAt, pinsAt_runEdges]; exact hr _ (by omega)
  have hcfg : (runEdges c s).cfg = s.cfg := inside.cfg
  have hb := edge_atBoundary hseq hrst (by rw [hcfg, hc']; simp)
  have hrun : ({ ({ r with sub := c } : Run) with t := r.t + 1, sub := 0 } : Run) = { r with t := r.t + 1 } := by
    cases r; simp_all
  rw [hrun] at hb
  exact hb.trans (boundary_congr _ _ inside.cfg inside.pd inside.bf inside.ill inside.data inside.crc)

/-- At an edge with no reset and no write, CMDL, ILL and CERR keep their values. -/
theorem edge_quiet {s : State} (hr : s.nextPins.rst = false) (hw : s.nextPins.hWe = false) :
    (edge s).cmdl = s.cmdl ∧ (edge s).ill = s.ill ∧ (edge s).cerr = s.cerr := by
  have ha : accessed s.nextPins s.clockIn = s.clockIn := by simp [accessed, hw]
  have hk := tick_sameOutside s.sampleNow s.clockIn
  unfold edge
  rw [if_neg (by simp [hr]), ha]
  split
  · exact ⟨hk.cmdl, hk.ill, hk.cerr⟩
  · exact ⟨rfl, rfl, rfl⟩

/-- Over edges with no reset and no write, CMDL, ILL and CERR keep their values. -/
theorem runEdges_quiet {n : Nat} {s : State} (h : quietFor n s) :
    (runEdges n s).cmdl = s.cmdl ∧ (runEdges n s).ill = s.ill ∧ (runEdges n s).cerr = s.cerr := by
  induction n with
  | zero => exact ⟨rfl, rfl, rfl⟩
  | succ n ih =>
    obtain ⟨a, b, c⟩ := ih (fun j hj => h j (by omega))
    have hq := h n (by omega)
    have hp : (runEdges n s).nextPins = s.pinsAt n := by rw [nextPins_eq_pinsAt, pinsAt_runEdges]; rfl
    rw [runEdges_succ]
    obtain ⟨a', b', c'⟩ := edge_quiet (s := runEdges n s) (by rw [hp]; exact hq.1) (by rw [hp]; exact hq.2)
    exact ⟨a'.trans a, b'.trans b, c'.trans c⟩

/-- A boundary leaves the prescaler as it is. -/
theorem boundary_sub {smp : Bool} {r r' : Run} {s : State} (h : (boundary smp r s).seq = .run r') : r'.sub = r.sub := by
  revert h
  unfold boundary
  cases r.cur with
  | busReset =>
    obtain ⟨q, rfl, ⟨-, e⟩ | ⟨-, -, e⟩ | ⟨-, -, e⟩⟩ := busResetBoundary_cases smp r s <;>
      simp only [e] <;> intro h <;> cases h <;> rfl
  | writeBits v n =>
    obtain ⟨-, e⟩ | ⟨-, -, e⟩ | ⟨-, -, e⟩ := writeBitsBoundary_cases n r s <;>
      simp only [e] <;> intro h <;> cases h <;> rfl
  | readBits n =>
    obtain ⟨q, s', rfl, rfl, ⟨-, e⟩ | ⟨-, -, e⟩ | ⟨-, -, e⟩⟩ := readBitsBoundary_cases n smp r s <;>
      simp only [e] <;> intro h <;> cases h <;> rfl
  | triplet d =>
    obtain ⟨q, rfl, ⟨-, e⟩ | ⟨-, -, e⟩ | ⟨-, -, -, e⟩ | ⟨-, -, -, e⟩ | ⟨-, -, e⟩⟩ := tripletBoundary_cases d smp r s <;>
      simp only [e] <;> intro h <;> cases h <;> rfl

/-- One microsecond on its own: the running command at its next boundary. -/
def microsecond (smp : Bool) (s : State) : State :=
  match s.seq with
  | .idle => s
  | .run r => boundary smp { r with t := r.t + 1 } s

/-- `m` microseconds, `smp j` being the sample at the end of the `j`-th. -/
def microseconds (smp : Nat → Bool) : Nat → State → State
  | 0, s => s
  | m + 1, s => microsecond (smp (m + 1)) (microseconds smp m s)

/-- The clocked machine, read at microsecond boundaries, is the sequence of boundaries, as long as the command runs. -/
theorem runEdges_eq_microseconds {t : State} {r : Run} (ht : t.seq = .run r) (h0 : r.sub = 0) (hc : 0 < t.cfg.clkPerUs) (m : Nat)
    (hr : noResetFor (m * t.cfg.clkPerUs) t)
    (hb : ∀ j, j < m → (microseconds t.sampleAtUs j t).busy = true) :
    SamePart (runEdges (m * t.cfg.clkPerUs) t) (microseconds t.sampleAtUs m t) ∧
      ∀ q, (microseconds t.sampleAtUs m t).seq = .run q → q.sub = 0 := by
  induction m with
  | zero =>
    rw [Nat.zero_mul]
    exact ⟨SamePart.refl t, fun q hq => by rw [show (microseconds t.sampleAtUs 0 t) = t from rfl, ht] at hq; cases hq; exact h0⟩
  | succ m ih =>
    rw [Nat.succ_mul] at hr ⊢
    obtain ⟨hp, hs⟩ := ih (fun j hj => hr j (by omega)) (fun j hj => hb j (by omega))
    obtain ⟨q, hq⟩ := (busy_eq_true_iff _).1 (hb m (by omega))
    have hcfg : (runEdges (m * t.cfg.clkPerUs) t).cfg = t.cfg := cfg_runEdges _ _
    have hone := runEdges_microsecond (s := runEdges (m * t.cfg.clkPerUs) t) (r := q) (by rw [hp.seq, hq]) (hs q hq)
      (by rw [hcfg]; exact hc) (fun j hj => by
        rw [hcfg] at hj; rw [pinsAt_runEdges]; exact hr _ (by omega))
    rw [hcfg] at hone
    have hsmp : (runEdges (t.cfg.clkPerUs - 1) (runEdges (m * t.cfg.clkPerUs) t)).sampleNow = t.sampleAtUs (m + 1) := by
      rw [← runEdges_add, State.sampleAtUs, State.sampleAt, after_eq_runEdges, Nat.succ_mul]
      congr 2
      omega
    rw [hsmp, ← runEdges_add] at hone
    have hstep : microseconds t.sampleAtUs (m + 1) t =
        boundary (t.sampleAtUs (m + 1)) { q with t := q.t + 1 } (microseconds t.sampleAtUs m t) := by
      show microsecond _ _ = _
      unfold microsecond
      rw [hq]
    rw [hstep]
    refine ⟨hone.trans (boundary_congr _ _ hp.cfg hp.pd hp.bf hp.ill hp.data hp.crc), fun q' hq' => ?_⟩
    rw [boundary_sub hq']
    exact hs q hq

end Sys2Proof.Machine
end

