-- ==== Sys2Proof/Laws/Slots.lean ====
section
/-! SUPPORT. One slot (or attempt) of a command as a whole: the sample lands at its instant, and the slot ends after its length. -/

namespace Sys2Proof.Machine

/-- The time in the slot at which a sample is taken, if one is (R105, R107, R108, R114). -/
def sampleOffset (c : Config) (r : Run) : Option Nat :=
  match r.cur with
  | .busReset => some (c.tRstl + c.tPds)
  | .writeBits _ _ => none
  | .readBits _ => some (c.tRl + c.tRs)
  | .triplet _ => if r.k < 2 then some (c.tRl + c.tRs) else none

/-- What a sample does to the sequencer's fields. -/
def absorbRun (smp : Bool) (r : Run) : Run :=
  match r.cur with
  | .busReset => { r with p := !smp }
  | .writeBits _ _ => r
  | .readBits _ => { r with sh := setBit r.sh r.k smp }
  | .triplet _ => { r with a1 := if r.k = 0 then smp else r.a1, a2 := if r.k = 1 then smp else r.a2 }

/-- What a sample does to CRC. -/
def absorbCrc (smp : Bool) (r : Run) (crc : Byte) : Byte :=
  match r.cur with
  | .busReset => crc
  | .writeBits _ _ => crc
  | .readBits n => if n = 8 then crc8FoldBit crc smp else crc
  | .triplet _ => crc

/-- What the end of a slot does. -/
def slotEnd (r : Run) (s : State) : State :=
  match r.cur with
  | .busReset =>
    if again s.cfg r.p r.k then s.resume { r with k := r.k + 1 } else State.complete { s with pd := r.p }
  | .writeBits _ n => if r.k + 1 < n then s.resume { r with k := r.k + 1 } else s.complete
  | .readBits n => if r.k + 1 < n then s.resume { r with k := r.k + 1 } else State.complete { s with data := r.sh }
  | .triplet d =>
    match r.k with
    | 0 => s.resume { r with k := 1 }
    | 1 =>
      if tripletFault r.a1 r.a2 then State.complete { s with data := tripletData d true true, bf := true }
      else s.resume { r with k := 2 }
    | _ => State.complete { s with data := tripletData (tripletDir d r.a1 r.a2) r.a1 r.a2 }

/-- A boundary at a sample instant absorbs the sample, and one at the end of a slot ends it. -/
theorem boundary_eq (smp : Bool) (r : Run) (s : State) :
    boundary smp r s =
      if sampleOffset s.cfg r = some (r.slotTime s.cfg) then
        if r.slotOver s.cfg then slotEnd (absorbRun smp r) { s with crc := absorbCrc smp r s.crc }
        else State.resume (absorbRun smp r) { s with crc := absorbCrc smp r s.crc }
      else if r.slotOver s.cfg then slotEnd r s else s.resume r := by
  obtain ⟨cur, t, sub, k, sh, a1, a2, p⟩ := r
  cases cur with
  | busReset =>
    simp only [boundary, busResetBoundary, presenceInstant, sampleOffset, absorbRun, absorbCrc, slotEnd, Option.some.injEq,
      beq_iff_eq, eq_comm (a := s.cfg.tRstl + s.cfg.tPds)]
    by_cases h : Run.slotTime s.cfg ⟨.busReset, t, sub, k, sh, a1, a2, p⟩ = s.cfg.tRstl + s.cfg.tPds
    · simp only [h, if_true]; rfl
    · simp only [h, if_false]
  | writeBits v n =>
    simp only [boundary, writeBitsBoundary, sampleOffset, slotEnd, reduceCtorEq, if_false]
  | readBits n =>
    simp only [boundary, readBitsBoundary, readInstant, sampleOffset, absorbRun, absorbCrc, slotEnd, Option.some.injEq,
      beq_iff_eq, eq_comm (a := s.cfg.tRl + s.cfg.tRs), Bool.and_eq_true]
    by_cases h : Run.slotTime s.cfg ⟨.readBits n, t, sub, k, sh, a1, a2, p⟩ = s.cfg.tRl + s.cfg.tRs
    · simp only [h, true_and, if_true]; rfl
    · simp only [h, false_and, if_false]
  | triplet d =>
    simp only [boundary, tripletBoundary, readInstant, sampleOffset, absorbRun, absorbCrc, slotEnd, beq_iff_eq, Bool.and_eq_true]
    by_cases h : Run.slotTime s.cfg ⟨.triplet d, t, sub, k, sh, a1, a2, p⟩ = s.cfg.tRl + s.cfg.tRs
    · rcases k with _ | _ | k
      · simp only [h, true_and, if_true, Nat.zero_lt_succ]; rfl
      · simp only [h, true_and, if_true, Nat.lt_succ_self]; rfl
      · have hk : ¬ k + 1 + 1 < 2 := by omega
        simp only [h, true_and, hk, if_false, reduceCtorEq]; rfl
    · rcases k with _ | _ | k
      · simp only [h, false_and, if_false, Nat.zero_lt_succ, if_true, Option.some.injEq, eq_comm (a := s.cfg.tRl + s.cfg.tRs)]
      · simp only [h, false_and, if_false, Nat.lt_succ_self, if_true, Option.some.injEq, eq_comm (a := s.cfg.tRl + s.cfg.tRs)]
      · have hk : ¬ k + 1 + 1 < 2 := by omega
        simp only [h, false_and, hk, if_false, reduceCtorEq]

theorem microseconds_add (smp : Nat → Bool) (a b : Nat) (s : State) :
    microseconds smp (a + b) s = microseconds (fun j => smp (a + j)) b (microseconds smp a s) := by
  induction b with
  | zero => rfl
  | succ b ih =>
    show microsecond (smp (a + b + 1)) (microseconds smp (a + b) s) = _
    rw [ih]
    rfl

theorem microseconds_of_idle (smp : Nat → Bool) (m : Nat) {s : State} (h : s.seq = .idle) : microseconds smp m s = s := by
  induction m with
  | zero => rfl
  | succ m ih =>
    show microsecond (smp (m + 1)) (microseconds smp m s) = s
    rw [ih, microsecond, h]

theorem absorbRun_t (smp : Bool) (r : Run) (x : Nat) : absorbRun smp { r with t := x } = { absorbRun smp r with t := x } := by
  obtain ⟨cur, t, sub, k, sh, a1, a2, p⟩ := r
  cases cur <;> rfl

theorem absorbRun_frame (smp : Bool) (r : Run) :
    (absorbRun smp r).cur = r.cur ∧ (absorbRun smp r).t = r.t ∧ (absorbRun smp r).sub = r.sub ∧ (absorbRun smp r).k = r.k := by
  obtain ⟨cur, t, sub, k, sh, a1, a2, p⟩ := r
  cases cur <;> exact ⟨rfl, rfl, rfl, rfl⟩

/-- A sample changes neither the low time nor the length of the slot it is taken in. -/
theorem absorbRun_lowTime (smp : Bool) (c : Config) (r : Run) (h : (sampleOffset c r).isSome) :
    (absorbRun smp r).lowTime c = r.lowTime c := by
  obtain ⟨cur, t, sub, k, sh, a1, a2, p⟩ := r
  cases cur with
  | busReset => rfl
  | writeBits v n => rfl
  | readBits n => rfl
  | triplet d =>
    by_cases hk : k < 2
    · simp [absorbRun, Run.lowTime, hk]
    · simp [sampleOffset, hk] at h

/-- The sequencer's fields `m` microseconds into a slot, with the sample taken if its instant has come. -/
def inSlot (smp : Nat → Bool) (c : Config) (r : Run) (m : Nat) : Run :=
  match sampleOffset c r with
  | none => { r with t := r.t + m }
  | some o => if o ≤ m then absorbRun (smp o) { r with t := r.t + m } else { r with t := r.t + m }

/-- CRC `m` microseconds into a slot. -/
def inSlotCrc (smp : Nat → Bool) (c : Config) (r : Run) (m : Nat) (crc : Byte) : Byte :=
  match sampleOffset c r with
  | none => crc
  | some o => if o ≤ m then absorbCrc (smp o) r crc else crc

theorem inSlot_frame (smp : Nat → Bool) (c : Config) (r : Run) (m : Nat) :
    (inSlot smp c r m).cur = r.cur ∧ (inSlot smp c r m).t = r.t + m ∧ (inSlot smp c r m).k = r.k ∧
      (inSlot smp c r m).lowTime c = r.lowTime c := by
  unfold inSlot
  cases h : sampleOffset c r with
  | none => exact ⟨rfl, rfl, rfl, rfl⟩
  | some o =>
    dsimp only
    split
    · have f := absorbRun_frame (smp o) { r with t := r.t + m }
      refine ⟨f.1, f.2.1, f.2.2.2, ?_⟩
      rw [absorbRun_lowTime _ _ _ (by simpa [sampleOffset] using (show (sampleOffset c r).isSome by rw [h]; rfl))]
      rfl
    · exact ⟨rfl, rfl, rfl, rfl⟩

theorem slotTime_inSlot (smp : Nat → Bool) (c : Config) (r : Run) (m : Nat) (ht : r.t = r.k * r.cur.slotLength c) :
    (inSlot smp c r m).slotTime c = m := by
  obtain ⟨h1, h2, h3, -⟩ := inSlot_frame smp c r m
  rw [Run.slotTime, h1, h2, h3, ht]
  omega

/-- A microsecond of a slot before its last: the time moves on, and the sample lands at its instant. -/
theorem boundary_inSlot (smp : Nat → Bool) (r : Run) (s : State) (m : Nat) (ht : r.t = r.k * r.cur.slotLength s.cfg)
    (ho : ∀ o, sampleOffset s.cfg r = some o → 0 < o) (crc : Byte) (q : Seq) (oe : Bool) :
    boundary (smp (m + 1)) { inSlot smp s.cfg r m with t := (inSlot smp s.cfg r m).t + 1 }
        { s with crc := inSlotCrc smp s.cfg r m crc, seq := q, owOe := oe } =
      if r.cur.slotLength s.cfg ≤ m + 1 then
        slotEnd (inSlot smp s.cfg r (m + 1))
          { s with crc := inSlotCrc smp s.cfg r (m + 1) crc, seq := q, owOe := oe }
      else State.resume (inSlot smp s.cfg r (m + 1)) { s with crc := inSlotCrc smp s.cfg r (m + 1) crc } := by
  obtain ⟨f1, f2, f3, f4⟩ := inSlot_frame smp s.cfg r m
  have hoff : sampleOffset s.cfg { inSlot smp s.cfg r m with t := (inSlot smp s.cfg r m).t + 1 } = sampleOffset s.cfg r := by
    simp only [sampleOffset, f1, f3]
  have hst : Run.slotTime s.cfg { inSlot smp s.cfg r m with t := (inSlot smp s.cfg r m).t + 1 } = m + 1 := by
    simp only [Run.slotTime, f1, f2, f3, ht]
    omega
  have hover : Run.slotOver s.cfg { inSlot smp s.cfg r m with t := (inSlot smp s.cfg r m).t + 1 } =
      decide (r.cur.slotLength s.cfg ≤ m + 1) := by
    unfold Run.slotOver
    rw [hst]
    simp only [f1]
  rw [boundary_eq]
  simp only [hoff, hst, hover, decide_eq_true_eq]
  cases h : sampleOffset s.cfg r with
  | none =>
    have e : ∀ j, inSlot smp s.cfg r j = { r with t := r.t + j } := fun j => by simp [inSlot, h]
    have ec : ∀ j, inSlotCrc smp s.cfg r j crc = crc := fun j => by simp [inSlotCrc, h]
    simp only [reduceCtorEq, if_false, e, ec]
    rfl
  | some o =>
    have pos := ho o h
    have e : ∀ j, inSlot smp s.cfg r j = if o ≤ j then { absorbRun (smp o) r with t := r.t + j } else { r with t := r.t + j } :=
      fun j => by simp only [inSlot, h, absorbRun_t]
    have ec : ∀ j, inSlotCrc smp s.cfg r j crc = if o ≤ j then absorbCrc (smp o) r crc else crc :=
      fun j => by simp only [inSlotCrc, h]
    rcases Nat.lt_trichotomy o (m + 1) with lt | rfl | gt
    · have h1 : o ≤ m := by omega
      have h2 : o ≤ m + 1 := by omega
      have h3 : ¬ some o = some (m + 1) := by simp; omega
      simp only [h3, if_false, e, ec, h1, h2, if_true]
      rfl
    · have h1 : ¬ m + 1 ≤ m := by omega
      simp only [if_true, e, ec, h1, if_false, le_refl, absorbRun_t]
      have : ∀ x, absorbCrc (smp (m + 1)) { r with t := x } crc = absorbCrc (smp (m + 1)) r crc := fun _ => rfl
      simp only [this]
      rfl
    · have h1 : ¬ o ≤ m := by omega
      have h2 : ¬ o ≤ m + 1 := by omega
      have h3 : ¬ some o = some (m + 1) := by simp; omega
      simp only [h3, if_false, e, ec, h1, h2]
      rfl

/-- A slot `m` microseconds after its start. -/
theorem microseconds_inSlot (smp : Nat → Bool) {r : Run} {s : State} (hs : s.seq = .run r) (hd : s.owOe = r.drive s.cfg)
    (ht : r.t = r.k * r.cur.slotLength s.cfg) (ho : ∀ o, sampleOffset s.cfg r = some o → 0 < o) (m : Nat)
    (hm : m < r.cur.slotLength s.cfg) :
    microseconds smp m s = State.resume (inSlot smp s.cfg r m) { s with crc := inSlotCrc smp s.cfg r m s.crc } := by
  induction m with
  | zero =>
    have e : inSlot smp s.cfg r 0 = r := by
      unfold inSlot
      cases h : sampleOffset s.cfg r with
      | none => rfl
      | some o => dsimp only; rw [if_neg (by have := ho o h; omega)]; rfl
    have ec : inSlotCrc smp s.cfg r 0 s.crc = s.crc := by
      unfold inSlotCrc
      cases h : sampleOffset s.cfg r with
      | none => rfl
      | some o => dsimp only; rw [if_neg (by have := ho o h; omega)]
    rw [e, ec]
    cases s
    simp only at hs hd
    subst hs hd
    rfl
  | succ m ih =>
    show microsecond (smp (m + 1)) (microseconds smp m s) = _
    rw [ih (by omega), microsecond]
    show boundary (smp (m + 1)) { inSlot smp s.cfg r m with t := (inSlot smp s.cfg r m).t + 1 }
        { s with crc := inSlotCrc smp s.cfg r m s.crc, seq := .run (inSlot smp s.cfg r m),
                 owOe := Run.drive s.cfg (inSlot smp s.cfg r m) } = _
    rw [boundary_inSlot smp r s m ht ho s.crc, if_neg (by omega)]

/-- A whole slot ends with what the command does at the end of a slot. -/
theorem microseconds_slot (smp : Nat → Bool) {r : Run} {s : State} (hs : s.seq = .run r) (hd : s.owOe = r.drive s.cfg)
    (ht : r.t = r.k * r.cur.slotLength s.cfg) (ho : ∀ o, sampleOffset s.cfg r = some o → 0 < o)
    (hl : 0 < r.cur.slotLength s.cfg) :
    microseconds smp (r.cur.slotLength s.cfg) s =
      slotEnd (inSlot smp s.cfg r (r.cur.slotLength s.cfg))
        { s with crc := inSlotCrc smp s.cfg r (r.cur.slotLength s.cfg) s.crc,
                 seq := .run (inSlot smp s.cfg r (r.cur.slotLength s.cfg - 1)),
                 owOe := Run.drive s.cfg (inSlot smp s.cfg r (r.cur.slotLength s.cfg - 1)) } := by
  obtain ⟨m, hm⟩ : ∃ m, r.cur.slotLength s.cfg = m + 1 := ⟨r.cur.slotLength s.cfg - 1, by omega⟩
  rw [hm]
  show microsecond (smp (m + 1)) (microseconds smp m s) = _
  rw [microseconds_inSlot smp hs hd ht ho m (by omega), microsecond]
  show boundary (smp (m + 1)) { inSlot smp s.cfg r m with t := (inSlot smp s.cfg r m).t + 1 }
      { s with crc := inSlotCrc smp s.cfg r m s.crc, seq := .run (inSlot smp s.cfg r m),
               owOe := Run.drive s.cfg (inSlot smp s.cfg r m) } = _
  rw [boundary_inSlot smp r s m ht ho s.crc, if_pos (by omega)]
  rfl

end Sys2Proof.Machine
end

