-- ==== Sys2Proof/Laws/Commands.lean ====
section
/-! SUPPORT. A timed command as a sequence of slots: what the microseconds of a whole command leave, in terms of the slot-level
loops of Machine/Command.lean. -/

namespace Sys2Proof.Machine

/-- A running command at the start of slot `r.k`. -/
structure AtSlot (s : State) (r : Run) : Prop where
  seq : s.seq = .run r
  owOe : s.owOe = r.drive s.cfg
  t : r.t = r.k * r.cur.slotLength s.cfg

theorem wf_slot {c : Config} (h : c.wf) : 0 < c.tSlot := by obtain ⟨_, h1, h2, h3, h4, h5, h6, h7⟩ := h; omega
theorem wf_rl {c : Config} (h : c.wf) : 0 < c.tRl + c.tRs ∧ c.tRl + c.tRs ≤ c.tSlot := by
  obtain ⟨_, h1, h2, h3, h4, h5, h6, h7⟩ := h; omega
theorem wf_att {c : Config} (h : c.wf) : 0 < c.tRstl + c.tPds ∧ c.tRstl + c.tPds ≤ c.attempt := by
  obtain ⟨_, h1, h2, h3, h4, h5, h6, h7⟩ := h; unfold Config.attempt; omega

/-- Inside a slot the block is busy. -/
theorem busy_inSlot (smp : Nat → Bool) {r : Run} {s : State} (hs : AtSlot s r)
    (ho : ∀ o, sampleOffset s.cfg r = some o → 0 < o) (m : Nat) (hm : m < r.cur.slotLength s.cfg) :
    (microseconds smp m s).busy = true := by
  rw [microseconds_inSlot smp hs.seq hs.owOe hs.t ho m hm]; rfl

/-- A block that is busy at some microsecond was busy at all earlier ones. -/
theorem busy_before (smp : Nat → Bool) (N : Nat) (s : State) (h : (microseconds smp (N - 1) s).busy = true) :
    ∀ j, j < N → (microseconds smp j s).busy = true := by
  intro j hj
  by_contra hb
  have hi : (microseconds smp j s).seq = .idle := (busy_eq_false_iff _).1 (by simpa using hb)
  have : N - 1 = j + (N - 1 - j) := by omega
  rw [this, microseconds_add, microseconds_of_idle _ _ hi] at h
  exact hb h

/-- The bus environment given by a sample for each microsecond. -/
def smpEnv (c : Config) (smp : Nat → Bool) : BusEnv Nat where
  rst us := (smp (us + (c.tRstl + c.tPds)), us + c.attempt)
  writeSlot _ us := us + c.tSlot
  readSlot us := (smp (us + (c.tRl + c.tRs)), us + c.tSlot)

/-- WRITE_BITS from the start of slot `k` on: busy up to its last microsecond, then idle and released. -/
theorem write_slots (smp : Nat → Bool) (v : Byte) (n : Nat) (c : Config) (hc : c.wf) :
    ∀ m k s r, k + m = n → 0 < m → AtSlot s r → r.cur = .writeBits v n → r.k = k → s.cfg = c →
      (microseconds (fun j => smp (k * c.tSlot + j)) (m * c.tSlot - 1) s).busy = true ∧ SamePart (microseconds (fun j => smp (k * c.tSlot + j)) (m * c.tSlot) s) { s with seq := .idle, owOe := false } := by
  intro m
  induction m with
  | zero => intros; omega
  | succ m ih =>
    intro k s r hk _ hs hcur hrk hcfg
    have hS := wf_slot hc
    have hlen : r.cur.slotLength s.cfg = c.tSlot := by rw [hcur, hcfg]; rfl
    have hoff : sampleOffset s.cfg r = none := by simp [sampleOffset, hcur]
    have one := microseconds_slot (fun j => smp (k * c.tSlot + j)) hs.seq hs.owOe hs.t (by simp [hoff]) (by rw [hlen]; exact hS)
    rw [hlen] at one
    have e : inSlot (fun j => smp (k * c.tSlot + j)) s.cfg r c.tSlot = { r with t := r.t + c.tSlot } := by simp [inSlot, hoff]
    have ec : inSlotCrc (fun j => smp (k * c.tSlot + j)) s.cfg r c.tSlot s.crc = s.crc := by simp [inSlotCrc, hoff]
    have hb0 := busy_inSlot (fun j => smp (k * c.tSlot + j)) hs (by simp [hoff]) (c.tSlot - 1) (by rw [hlen]; omega)
    rw [Nat.succ_mul, Nat.add_comm (m * c.tSlot), microseconds_add, one, e, ec]
    simp only [slotEnd, hcur]
    rw [hrk]
    by_cases hlast : k + 1 < n
    · rw [if_pos hlast]
      have := ih (k + 1) (State.resume { r with t := r.t + c.tSlot, k := k + 1, cur := .writeBits v n }
        { s with crc := s.crc, seq := .run (inSlot (fun j => smp (k * c.tSlot + j)) s.cfg r (c.tSlot - 1)), owOe := Run.drive s.cfg (inSlot (fun j => smp (k * c.tSlot + j)) s.cfg r (c.tSlot - 1)) })
        _ (by omega) (by omega) ⟨rfl, rfl, ?_⟩ rfl rfl hcfg
      · have hshift : (fun j => smp (k * c.tSlot + (c.tSlot + j))) = (fun j => smp ((k + 1) * c.tSlot + j)) := by
          funext j; congr 1; rw [Nat.succ_mul]; omega
        rw [hshift]
        have hm : 0 < m * c.tSlot := Nat.mul_pos (by omega) hS
        rw [show c.tSlot + m * c.tSlot - 1 = c.tSlot + (m * c.tSlot - 1) by omega, microseconds_add, one, e, ec, hshift]
        simp only [slotEnd, hcur]
        rw [hrk, if_pos hlast]
        exact ⟨this.1, this.2.trans ⟨rfl, rfl, rfl, rfl, rfl, rfl, rfl, rfl⟩⟩
      · show r.t + c.tSlot = (k + 1) * Timed.slotLength s.cfg (.writeBits v n)
        rw [hs.t, hrk, hlen, Nat.succ_mul, ← hcfg]; rfl
    · rw [if_neg hlast]
      have : m = 0 := by omega
      subst this
      simp only [Nat.zero_mul, Nat.add_zero, hb0, microseconds]
      exact ⟨trivial, rfl, rfl, rfl, rfl, rfl, rfl, rfl, rfl⟩

/-- READ_BITS from the start of slot `k` on leaves what the loop of R113 leaves. -/
theorem read_slots (smp : Nat → Bool) (n : Nat) (c : Config) (hc : c.wf) :
    ∀ m k s r, k + m = n → 0 < m → AtSlot s r → r.cur = .readBits n → r.k = k → s.cfg = c →
      (microseconds (fun j => smp (k * c.tSlot + j)) (m * c.tSlot - 1) s).busy = true ∧ SamePart (microseconds (fun j => smp (k * c.tSlot + j)) (m * c.tSlot) s)
        { s with seq := .idle, owOe := false,
                 data := (readLoop (smpEnv c smp) (n == 8) m k ⟨r.sh, s.crc, k * c.tSlot⟩).sh,
                 crc := (readLoop (smpEnv c smp) (n == 8) m k ⟨r.sh, s.crc, k * c.tSlot⟩).crc } := by
  intro m
  induction m with
  | zero => intros; omega
  | succ m ih =>
    intro k s r hk _ hs hcur hrk hcfg
    have hS := wf_slot hc
    have hO := wf_rl hc
    have hlen : r.cur.slotLength s.cfg = c.tSlot := by rw [hcur, hcfg]; rfl
    have hoff : sampleOffset s.cfg r = some (c.tRl + c.tRs) := by simp [sampleOffset, hcur, hcfg]
    have one := microseconds_slot (fun j => smp (k * c.tSlot + j)) hs.seq hs.owOe hs.t (by simp [hoff]; omega) (by rw [hlen]; exact hS)
    rw [hlen] at one
    have e : inSlot (fun j => smp (k * c.tSlot + j)) s.cfg r c.tSlot =
      { r with t := r.t + c.tSlot, sh := setBit r.sh k (smp (k * c.tSlot + (c.tRl + c.tRs))) } := by
        simp [inSlot, hoff, hO, absorbRun, hcur, hrk]
    have ec : inSlotCrc (fun j => smp (k * c.tSlot + j)) s.cfg r c.tSlot s.crc =
       if n = 8 then crc8FoldBit s.crc (smp (k * c.tSlot + (c.tRl + c.tRs))) else s.crc := by simp [inSlotCrc, hoff, hO, absorbCrc, hcur]
    have hb0 := busy_inSlot (fun j => smp (k * c.tSlot + j)) hs (by simp [hoff]; omega) (c.tSlot - 1) (by rw [hlen]; omega)
    rw [Nat.succ_mul, Nat.add_comm (m * c.tSlot), microseconds_add, one, e, ec]
    have hloop : readLoop (smpEnv c smp) (n == 8) (m + 1) k ⟨r.sh, s.crc, k * c.tSlot⟩ =
       readLoop (smpEnv c smp) (n == 8) m (k + 1) ⟨setBit r.sh k (smp (k * c.tSlot + (c.tRl + c.tRs))),
         if n = 8 then crc8FoldBit s.crc (smp (k * c.tSlot + (c.tRl + c.tRs))) else s.crc, (k + 1) * c.tSlot⟩ := by
      rw [Nat.succ_mul]
      simp [readLoop, smpEnv]
    rw [hloop]
    simp only [slotEnd, hcur]
    rw [hrk]
    by_cases hlast : k + 1 < n
    · rw [if_pos hlast]
      have := ih (k + 1) (State.resume { r with t := r.t + c.tSlot, k := k + 1, cur := .readBits n, sh := setBit r.sh k (smp (k * c.tSlot + (c.tRl + c.tRs))) }
        { s with crc := if n = 8 then crc8FoldBit s.crc (smp (k * c.tSlot + (c.tRl + c.tRs))) else s.crc, seq := .run (inSlot (fun j => smp (k * c.tSlot + j)) s.cfg r (c.tSlot - 1)), owOe := Run.drive s.cfg (inSlot (fun j => smp (k * c.tSlot + j)) s.cfg r (c.tSlot - 1)) })
        _ (by omega) (by omega) ⟨rfl, rfl, ?_⟩ rfl rfl hcfg
      · have hshift : (fun j => smp (k * c.tSlot + (c.tSlot + j))) = (fun j => smp ((k + 1) * c.tSlot + j)) := by
          funext j; congr 1; rw [Nat.succ_mul]; omega
        rw [hshift]
        have hm : 0 < m * c.tSlot := Nat.mul_pos (by omega) hS
        rw [show c.tSlot + m * c.tSlot - 1 = c.tSlot + (m * c.tSlot - 1) by omega, microseconds_add, one, e, ec, hshift]
        simp only [slotEnd, hcur]
        rw [hrk, if_pos hlast]
        exact ⟨this.1, this.2.trans ⟨rfl, rfl, rfl, rfl, rfl, rfl, rfl, rfl⟩⟩
      · show r.t + c.tSlot = (k + 1) * Timed.slotLength s.cfg (.readBits n)
        rw [hs.t, hrk, hlen, Nat.succ_mul, ← hcfg]; rfl
    · rw [if_neg hlast]
      have : m = 0 := by omega
      subst this
      simp only [Nat.zero_mul, Nat.add_zero, hb0, microseconds]
      exact ⟨trivial, rfl, rfl, rfl, rfl, rfl, rfl, rfl, rfl⟩

/-- BUS_RESET from the start of attempt `k` on leaves what the loop of R111 leaves. -/
theorem reset_slots (smp : Nat → Bool) (c : Config) (hc : c.wf) :
    ∀ f k s r, k + f = c.resetRetries → AtSlot s r → r.cur = .busReset → r.k = k → s.cfg = c →
      k ≤ (resetLoop (smpEnv c smp) c f k (k * c.attempt)).k ∧
      (microseconds (fun j => smp (k * c.attempt + j)) (((resetLoop (smpEnv c smp) c f k (k * c.attempt)).k + 1 - k) * c.attempt - 1) s).busy = true ∧ SamePart (microseconds (fun j => smp (k * c.attempt + j)) (((resetLoop (smpEnv c smp) c f k (k * c.attempt)).k + 1 - k) * c.attempt) s)
        { s with seq := .idle, owOe := false, pd := (resetLoop (smpEnv c smp) c f k (k * c.attempt)).p } := by
  intro f
  induction f with
  | zero =>
    intro k s r hk hs hcur hrk hcfg
    have hO := wf_att hc
    have hlen : r.cur.slotLength s.cfg = c.attempt := by rw [hcur, hcfg]; rfl
    have hoff : sampleOffset s.cfg r = some (c.tRstl + c.tPds) := by simp [sampleOffset, hcur, hcfg]
    have one := microseconds_slot (fun j => smp (k * c.attempt + j)) hs.seq hs.owOe hs.t (by simp [hoff]; omega) (by rw [hlen]; omega)
    rw [hlen] at one
    have hb0 := busy_inSlot (fun j => smp (k * c.attempt + j)) hs (by simp [hoff]; omega) (c.attempt - 1) (by rw [hlen]; omega)
    refine ⟨by simp [resetLoop], by simpa [resetLoop] using hb0, ?_⟩
    simp only [resetLoop, Nat.add_sub_cancel_left, Nat.one_mul, one]
    have e : inSlot (fun j => smp (k * c.attempt + j)) s.cfg r c.attempt =
      { r with t := r.t + c.attempt, p := !(smp (k * c.attempt + (c.tRstl + c.tPds))) } := by
        simp [inSlot, hoff, hO, absorbRun, hcur]
    have ec : inSlotCrc (fun j => smp (k * c.attempt + j)) s.cfg r c.attempt s.crc = s.crc := by
      simp [inSlotCrc, hoff, hO, absorbCrc, hcur]
    rw [e, ec]
    have hag : ∀ b, again s.cfg b r.k = false := by intro b; simp [again, hcfg, hrk]; omega
    simp only [slotEnd, hcur, hag, smpEnv]
    exact ⟨rfl, rfl, rfl, rfl, rfl, rfl, rfl, rfl⟩
  | succ f ih =>
    intro k s r hk hs hcur hrk hcfg
    have hO := wf_att hc
    have hlen : r.cur.slotLength s.cfg = c.attempt := by rw [hcur, hcfg]; rfl
    have hoff : sampleOffset s.cfg r = some (c.tRstl + c.tPds) := by simp [sampleOffset, hcur, hcfg]
    have one := microseconds_slot (fun j => smp (k * c.attempt + j)) hs.seq hs.owOe hs.t (by simp [hoff]; omega) (by rw [hlen]; omega)
    rw [hlen] at one
    have e : inSlot (fun j => smp (k * c.attempt + j)) s.cfg r c.attempt =
      { r with t := r.t + c.attempt, p := !(smp (k * c.attempt + (c.tRstl + c.tPds))) } := by
        simp [inSlot, hoff, hO, absorbRun, hcur]
    have ec : inSlotCrc (fun j => smp (k * c.attempt + j)) s.cfg r c.attempt s.crc = s.crc := by
      simp [inSlotCrc, hoff, hO, absorbCrc, hcur]
    have hloop : resetLoop (smpEnv c smp) c (f + 1) k (k * c.attempt) =
       if again c (!(smp (k * c.attempt + (c.tRstl + c.tPds)))) k then resetLoop (smpEnv c smp) c f (k + 1) ((k + 1) * c.attempt)
       else ⟨k, !(smp (k * c.attempt + (c.tRstl + c.tPds))), (k + 1) * c.attempt⟩ := by
      rw [Nat.succ_mul]
      rfl
    rw [hloop]
    by_cases hag : again c (!(smp (k * c.attempt + (c.tRstl + c.tPds)))) k
    · rw [if_pos hag]
      obtain ⟨hle, hbusy, this⟩ := ih (k + 1) (State.resume { r with t := r.t + c.attempt, k := k + 1, cur := .busReset, p := !(smp (k * c.attempt + (c.tRstl + c.tPds))) }
        { s with crc := s.crc, seq := .run (inSlot (fun j => smp (k * c.attempt + j)) s.cfg r (c.attempt - 1)), owOe := Run.drive s.cfg (inSlot (fun j => smp (k * c.attempt + j)) s.cfg r (c.attempt - 1)) })
        _ (by omega) ⟨rfl, rfl, by
           show r.t + c.attempt = (k + 1) * Timed.slotLength s.cfg .busReset
           rw [hs.t, hrk, hlen, Nat.succ_mul, ← hcfg]; rfl⟩ rfl rfl hcfg
      generalize hq : resetLoop (smpEnv c smp) c f (k + 1) ((k + 1) * c.attempt) = q at *
      refine ⟨by omega, ?_⟩
      have hsplit : (q.k + 1 - k) * c.attempt = c.attempt + (q.k + 1 - (k + 1)) * c.attempt := by
        rw [show q.k + 1 - k = (q.k + 1 - (k + 1)) + 1 by omega, Nat.succ_mul]; omega
      have hm : 0 < (q.k + 1 - (k + 1)) * c.attempt := Nat.mul_pos (by omega) (by omega)
      rw [hsplit, show c.attempt + (q.k + 1 - (k + 1)) * c.attempt - 1 = c.attempt + ((q.k + 1 - (k + 1)) * c.attempt - 1) by omega, microseconds_add, microseconds_add, one, e, ec]
      have hshift : (fun j => smp (k * c.attempt + (c.attempt + j))) = (fun j => smp ((k + 1) * c.attempt + j)) := by
          funext j; congr 1; rw [Nat.succ_mul]; omega
      rw [hshift]
      simp only [slotEnd, hcur]
      rw [hrk, hcfg, if_pos hag]
      rw [hcfg] at this hbusy
      exact ⟨hbusy, this.trans ⟨rfl, rfl, rfl, rfl, rfl, rfl, rfl, rfl⟩⟩
    · rw [if_neg hag]
      have hb0 := busy_inSlot (fun j => smp (k * c.attempt + j)) hs (by simp [hoff]; omega) (c.attempt - 1) (by rw [hlen]; omega)
      refine ⟨le_refl _, by simpa using hb0, ?_⟩
      simp only [Nat.add_sub_cancel_left, Nat.one_mul, one]
      rw [e, ec]
      simp only [slotEnd, hcur]
      rw [hrk, hcfg, if_neg hag]
      exact ⟨rfl, rfl, rfl, rfl, rfl, rfl, rfl, rfl⟩

/-- TRIPLET from its acceptance on leaves what R114 says. -/
theorem triplet_slots (smp : Nat → Bool) (dir : Bool) (c : Config) (hc : c.wf) (s : State) (hs : AtSlot s (Run.start (.triplet dir)))
    (hcfg : s.cfg = c) (y : Wired Nat) (hy : y = wholeTriplet (smpEnv c smp) dir ⟨s, 0, 0⟩) :
    (microseconds smp (y.us - 1) s).busy = true ∧
    SamePart (microseconds smp y.us s) { s with seq := .idle, owOe := false, data := y.blk.data, bf := if y.blk.bf then true else s.bf } := by
  have hS := wf_slot hc
  have hO := wf_rl hc
  subst hcfg
  have hoff0 : sampleOffset s.cfg (Run.start (.triplet dir)) = some (s.cfg.tRl + s.cfg.tRs) := by simp [sampleOffset, Run.start]
  have one := microseconds_slot smp hs.seq hs.owOe hs.t (by intro o h; rw [hoff0] at h; cases h; exact hO.1) (by exact hS)
  have hb0 := busy_inSlot smp hs (by intro o h; rw [hoff0] at h; cases h; exact hO.1)
  change microseconds smp s.cfg.tSlot s = _ at one
  change ∀ m, m < s.cfg.tSlot → _ at hb0
  let a1 := smp (s.cfg.tRl + s.cfg.tRs)
  let a2 := smp (s.cfg.tSlot + (s.cfg.tRl + s.cfg.tRs))
  let r1 : Run := { Run.start (.triplet dir) with t := 0 + s.cfg.tSlot, k := 1, a1 := a1 }
  have e1 : microseconds smp s.cfg.tSlot s = s.resume r1 := by
    rw [one]
    have e : inSlot smp s.cfg (Run.start (.triplet dir)) s.cfg.tSlot = { Run.start (.triplet dir) with t := 0 + s.cfg.tSlot, a1 := a1 } := by
      simp only [inSlot, hoff0, hO, if_true]; rfl
    have ec : inSlotCrc smp s.cfg (Run.start (.triplet dir)) s.cfg.tSlot s.crc = s.crc := by
      simp only [inSlotCrc, hoff0, hO, if_true]; rfl
    show slotEnd (inSlot smp s.cfg (Run.start (.triplet dir)) s.cfg.tSlot) { s with crc := inSlotCrc smp s.cfg (Run.start (.triplet dir)) s.cfg.tSlot s.crc, seq := _, owOe := _ } = _
    rw [e, ec]
    rfl
  have hs1 : AtSlot (s.resume r1) r1 := ⟨rfl, rfl, by show 0 + s.cfg.tSlot = 1 * s.cfg.tSlot; omega⟩
  have hoff1 : sampleOffset (s.resume r1).cfg r1 = some (s.cfg.tRl + s.cfg.tRs) := rfl
  have two := microseconds_slot (fun j => smp (s.cfg.tSlot + j)) hs1.seq hs1.owOe hs1.t (by intro o h; rw [hoff1] at h; cases h; exact hO.1) (by exact hS)
  have hb1 := busy_inSlot (fun j => smp (s.cfg.tSlot + j)) hs1 (by intro o h; rw [hoff1] at h; cases h; exact hO.1)
  change microseconds (fun j => smp (s.cfg.tSlot + j)) s.cfg.tSlot (s.resume r1) = _ at two
  change ∀ m, m < s.cfg.tSlot → _ at hb1
  let r1' : Run := { r1 with t := 0 + s.cfg.tSlot + s.cfg.tSlot, a2 := a2 }
  have e2 : ∃ q oe, microseconds smp (2 * s.cfg.tSlot) s = slotEnd r1' { s with seq := q, owOe := oe } := by
    rw [show 2 * s.cfg.tSlot = s.cfg.tSlot + s.cfg.tSlot by omega, microseconds_add, e1, two]
    have e : inSlot (fun j => smp (s.cfg.tSlot + j)) (s.resume r1).cfg r1 s.cfg.tSlot = r1' := by
      simp only [inSlot, hoff1, hO, if_true]; rfl
    have ec : inSlotCrc (fun j => smp (s.cfg.tSlot + j)) (s.resume r1).cfg r1 s.cfg.tSlot (s.resume r1).crc = s.crc := by
      simp only [inSlotCrc, hoff1, hO, if_true]; rfl
    refine ⟨Seq.run (inSlot (fun j => smp (s.cfg.tSlot + j)) (s.resume r1).cfg r1 (s.cfg.tSlot - 1)), Run.drive s.cfg (inSlot (fun j => smp (s.cfg.tSlot + j)) (s.resume r1).cfg r1 (s.cfg.tSlot - 1)), ?_⟩
    show slotEnd (inSlot (fun j => smp (s.cfg.tSlot + j)) (s.resume r1).cfg r1 s.cfg.tSlot) { s.resume r1 with crc := inSlotCrc (fun j => smp (s.cfg.tSlot + j)) (s.resume r1).cfg r1 s.cfg.tSlot (s.resume r1).crc, seq := _, owOe := _ } = _
    rw [e, ec]
    rfl
  obtain ⟨q, oe, e2⟩ := e2
  have hw : y = if tripletFault a1 a2 then
      ⟨{ s.acceptFlags false with data := tripletData dir true true, bf := true }, s.cfg.tSlot + s.cfg.tSlot, 0 + 2 * s.cfg.tSlot⟩
      else ⟨{ s.acceptFlags false with data := tripletData (tripletDir dir a1 a2) a1 a2 }, s.cfg.tSlot + s.cfg.tSlot + s.cfg.tSlot, 0 + 3 * s.cfg.tSlot⟩ := by
    rw [hy]
    have hz1 : smp (0 + (s.cfg.tRl + s.cfg.tRs)) = a1 := by rw [Nat.zero_add]
    have hz2 : smp (0 + s.cfg.tSlot + (s.cfg.tRl + s.cfg.tRs)) = a2 := by rw [Nat.zero_add]
    unfold wholeTriplet
    show (if tripletFault (smp (0 + (s.cfg.tRl + s.cfg.tRs))) (smp (0 + s.cfg.tSlot + (s.cfg.tRl + s.cfg.tRs))) then _ else _) = _
    rw [hz1, hz2]
    by_cases hf : tripletFault a1 a2
    · rw [if_pos hf, if_pos hf]; simp [smpEnv]
    · rw [if_neg hf, if_neg hf]; simp [smpEnv, a1, a2]
  by_cases hf : tripletFault a1 a2
  · rw [if_pos hf] at hw
    subst hw
    simp only [Nat.zero_add]
    constructor
    · rw [show 2 * s.cfg.tSlot - 1 = s.cfg.tSlot + (s.cfg.tSlot - 1) by omega, microseconds_add, e1]
      exact hb1 _ (by omega)
    · rw [e2]
      show SamePart (if tripletFault a1 a2 then State.complete { s with data := tripletData dir true true, bf := true, seq := q, owOe := oe } else _) _
      rw [if_pos hf]
      exact ⟨rfl, rfl, rfl, rfl, rfl, rfl, rfl, rfl⟩
  · rw [if_neg hf] at hw
    subst hw
    simp only [Nat.zero_add]
    let r2 : Run := { r1' with k := 2 }
    have e2' : microseconds smp (2 * s.cfg.tSlot) s = s.resume r2 := by
      rw [e2]
      show (if tripletFault a1 a2 then _ else State.resume r2 { s with seq := q, owOe := oe }) = _
      rw [if_neg hf]
      rfl
    have hs2 : AtSlot (s.resume r2) r2 := ⟨rfl, rfl, by show 0 + s.cfg.tSlot + s.cfg.tSlot = 2 * s.cfg.tSlot; omega⟩
    have hoff2 : sampleOffset (s.resume r2).cfg r2 = none := rfl
    have three := microseconds_slot (fun j => smp (2 * s.cfg.tSlot + j)) hs2.seq hs2.owOe hs2.t (by intro o h; rw [hoff2] at h; cases h) (by exact hS)
    have hb2 := busy_inSlot (fun j => smp (2 * s.cfg.tSlot + j)) hs2 (by intro o h; rw [hoff2] at h; cases h)
    change microseconds (fun j => smp (2 * s.cfg.tSlot + j)) s.cfg.tSlot (s.resume r2) = _ at three
    change ∀ m, m < s.cfg.tSlot → _ at hb2
    constructor
    · rw [show 3 * s.cfg.tSlot - 1 = 2 * s.cfg.tSlot + (s.cfg.tSlot - 1) by omega, microseconds_add, e2']
      exact hb2 _ (by omega)
    · rw [show 3 * s.cfg.tSlot = 2 * s.cfg.tSlot + s.cfg.tSlot by omega, microseconds_add, e2', three]
      exact ⟨rfl, rfl, rfl, rfl, rfl, rfl, rfl, rfl⟩

theorem traceEnv_eq (t : State) : traceEnv t = smpEnv t.cfg t.sampleAtUs := rfl

/-- The clocked run over the microseconds of a command. -/
theorem runEdges_command (t : State) (r : Run) (us : Nat) (v : State) (ht : t.seq = .run r) (h0 : r.sub = 0) (hc : 0 < t.cfg.clkPerUs)
   (hbusy : (microseconds t.sampleAtUs (us - 1) t).busy = true) (hp : SamePart (microseconds t.sampleAtUs us t) v)
   (hr : noResetFor (us * t.cfg.clkPerUs) t) : SamePart (runEdges (us * t.cfg.clkPerUs) t) v :=
  (runEdges_eq_microseconds ht h0 hc us hr (busy_before _ _ _ hbusy)).1.trans hp

end Sys2Proof.Machine
end

