-- ==== Sys2Proof/Laws/Decode.lean ====
section
/-! SUPPORT. The bits of a word and of its fields. -/

namespace Sys2Proof

/-- Bit `k` of a word built from its fields (R70). -/
theorem getLsbD_wordOf (op : BitVec 4) (nm1 : BitVec 3) (dir : Bool) (val : Byte) (k : Nat) :
    (wordOf op nm1 dir val).getLsbD k =
      if k < 8 then val.getLsbD k
      else if k < 9 then dir
      else if k < 12 then nm1.getLsbD (k - 9)
      else op.getLsbD (k - 12) := by
  unfold wordOf
  show BitVec.getLsbD (op ++ nm1 ++ BitVec.ofBool dir ++ val : BitVec (4 + 3 + 1 + 8)) k = _
  rw [BitVec.getLsbD_append, BitVec.getLsbD_append, BitVec.getLsbD_append]
  by_cases h8 : k < 8
  · simp [h8]
  · by_cases h9 : k < 9
    · have : k = 8 := by omega
      subst this; simp [BitVec.getLsbD, BitVec.ofBool]
      cases dir <;> rfl
    · have one : ¬ k - 8 < 1 := by omega
      by_cases h12 : k < 12
      · have three : k - (8 + 1) < 3 := by omega
        simp only [h8, h9, h12, one, three, if_true, if_false, Nat.sub_sub]
      · have three : ¬ k - (8 + 1) < 3 := by omega
        simp only [h8, h9, h12, one, three, if_false, Nat.sub_sub]

@[simp] theorem opField_wordOf (op : BitVec 4) (nm1 : BitVec 3) (dir : Bool) (val : Byte) :
    opField (wordOf op nm1 dir val) = op := by
  apply BitVec.eq_of_getLsbD_eq
  intro k hk
  rw [opField, BitVec.getLsbD_extractLsb', getLsbD_wordOf]
  simp [hk, show ¬ 12 + k < 8 by omega, show ¬ 12 + k < 9 by omega]

@[simp] theorem nm1Field_wordOf (op : BitVec 4) (nm1 : BitVec 3) (dir : Bool) (val : Byte) :
    nm1Field (wordOf op nm1 dir val) = nm1 := by
  apply BitVec.eq_of_getLsbD_eq
  intro k hk
  rw [nm1Field, BitVec.getLsbD_extractLsb', getLsbD_wordOf]
  simp [hk, show ¬ 9 + k < 8 by omega, show 9 + k < 12 by omega]

@[simp] theorem dirField_wordOf (op : BitVec 4) (nm1 : BitVec 3) (dir : Bool) (val : Byte) :
    dirField (wordOf op nm1 dir val) = dir := by
  rw [dirField, getLsbD_wordOf]; simp

@[simp] theorem valField_wordOf (op : BitVec 4) (nm1 : BitVec 3) (dir : Bool) (val : Byte) :
    valField (wordOf op nm1 dir val) = val := by
  apply BitVec.eq_of_getLsbD_eq
  intro k hk
  rw [valField, BitVec.getLsbD_extractLsb', getLsbD_wordOf]
  simp [hk]

/-- The two bytes of a word, high then low, are the word (R55). -/
theorem highByte_append_lowByte (w : CmdWord) : highByte w ++ lowByte w = w := by
  apply BitVec.eq_of_getLsbD_eq
  intro k hk
  rw [BitVec.getLsbD_append, lowByte, highByte, BitVec.getLsbD_extractLsb', BitVec.getLsbD_extractLsb']
  by_cases h : k < 8
  · simp [h]
  · simp [h, show k - 8 < 8 by omega, show 8 + (k - 8) = k by omega]

end Sys2Proof
end

