-- ==== Sys2Proof/Laws/Operands.lean ====
section
/-! SUPPORT. Bits of operands, codes and results, the reference environment's two moves, and that the CRC functions are linear. -/

namespace Sys2Proof.Machine

theorem bitOf_setBit (v : Byte) (i : Nat) (b : Bool) (j : Nat) (hi : i < 8) :
    bitOf (setBit v i b) j = if j = i then b else bitOf v j := by
  unfold bitOf setBit
  by_cases hj : j < 8
  · by_cases h : j = i <;> cases b <;> simp [h, hj, hi] <;> intros <;> omega
  · have h : j ≠ i := by omega
    rw [if_neg h, BitVec.getLsbD_of_ge _ _ (by omega), BitVec.getLsbD_of_ge _ _ (by omega)]

@[simp] theorem bitOf_tripletData_0 (d a1 a2 : Bool) : bitOf (tripletData d a1 a2) 0 = a1 := by
  revert d a1 a2; decide

@[simp] theorem bitOf_tripletData_1 (d a1 a2 : Bool) : bitOf (tripletData d a1 a2) 1 = a2 := by
  revert d a1 a2; decide

@[simp] theorem bitOf_tripletData_2 (d a1 a2 : Bool) : bitOf (tripletData d a1 a2) 2 = d := by
  revert d a1 a2; decide

@[simp] theorem length_setCodeBit (code : List Byte) (p : Nat) (b : Bool) : (setCodeBit code p b).length = code.length := by
  simp [setCodeBit]

theorem codeBit_setCodeBit (code : List Byte) (p : Nat) (b : Bool) (q : Nat) (hp : p < 8 * code.length) :
    codeBit (setCodeBit code p b) q = if q = p then b else codeBit code q := by
  unfold codeBit setCodeBit
  have hlt : p / 8 < code.length := by omega
  by_cases h : q / 8 = p / 8
  · rw [h, List.getD_eq_getElem?_getD, List.getElem?_set_self hlt, Option.getD_some, bitOf_setBit _ _ _ _ (by omega)]
    have : (q % 8 = p % 8) ↔ q = p := by omega
    simp only [this]
  · have hne : q ≠ p := fun e => h (by rw [e])
    rw [if_neg hne, List.getD_eq_getElem?_getD, List.getElem?_set_ne (fun e => h e.symm), ← List.getD_eq_getElem?_getD]

@[simp] theorem refEnv_rst (ds : List Device) : refEnv.rst ds = (presenceLevel ds, ds.map Device.onReset) := rfl

@[simp] theorem refEnv_writeSlot (b : Bool) (ds : List Device) : refEnv.writeSlot b ds = ds.map (Device.onSlot b) := rfl

@[simp] theorem refEnv_readSlot (ds : List Device) : refEnv.readSlot ds = (slotLevel ds, ds.map (Device.onSlot true)) := rfl

theorem crcShift_xor (x y : Byte) : crcShift (x ^^^ y) = crcShift x ^^^ crcShift y := by
  unfold crcShift
  rw [BitVec.getLsbD_xor, BitVec.ushiftRight_xor_distrib]
  cases x.getLsbD 0 <;> cases y.getLsbD 0 <;> simp
  · rw [BitVec.xor_assoc]
  · rw [BitVec.xor_assoc, BitVec.xor_comm (y >>> 1), ← BitVec.xor_assoc]
  · rw [BitVec.xor_assoc, ← BitVec.xor_assoc 0x8C#8, BitVec.xor_comm 0x8C#8, BitVec.xor_assoc, BitVec.xor_self, BitVec.xor_zero]

theorem crcRepeat_xor (m : Nat) (x y : Byte) : crcRepeat m (x ^^^ y) = crcRepeat m x ^^^ crcRepeat m y := by
  induction m generalizing x y with
  | zero => rfl
  | succ m ih => rw [crcRepeat, crcShift_xor, ih]; rfl

/-- One wire bit is one shift of CRC with that bit folded into its lowest place. -/
theorem crc8FoldBit_eq (c : Byte) (b : Bool) : crc8FoldBit c b = crcShift (c ^^^ if b then 1 else 0) := by
  have h : (c ^^^ if b then 1#8 else 0#8) >>> 1 = c >>> 1 := by cases b <;> simp [BitVec.ushiftRight_xor_distrib]
  unfold crc8FoldBit crcShift
  cases b <;> simp_all

end Sys2Proof.Machine
end

