-- ==== Sys2Proof/Laws/PerInstr.lean ====
section
/-! SUPPORT. The family RowMatch: the canonical word of a well-formed command lies in its own row of spec/opcode_table.json. -/

namespace Sys2Proof.Laws.RowMatch

/-- The word of a well-formed command meets the match and mask of its row (R75). -/
def Statement (i : Instr) : Prop :=
  i.wf → ((opcodeRows[rowIndex i]?).map fun row => row.matches (encode i)) = some true

/-- The mask of a row that tests OP only keeps only OP of a word. -/
theorem wordOf_and_opMask (op : BitVec 4) (nm1 : BitVec 3) (dir : Bool) (val : Byte) :
    wordOf op nm1 dir val &&& 0xF000 = wordOf op 0 false 0 := by
  apply BitVec.eq_of_getLsbD_eq
  intro k hk
  rw [BitVec.getLsbD_and, getLsbD_wordOf, getLsbD_wordOf]
  interval_cases k <;> simp

theorem nop : Statement .nop := by intro _; decide

theorem busReset : Statement .busReset := by intro _; decide

theorem writeBits (val : Byte) (n : Nat) : Statement (.writeBits val n) := by
  intro _
  simp only [rowIndex, opcodeRows, OpcodeRow.matches, encode, List.getElem?_cons_succ, List.getElem?_cons_zero,
    Option.map_some, wordOf_and_opMask]
  decide

theorem readBits (n : Nat) : Statement (.readBits n) := by
  intro _
  simp only [rowIndex, opcodeRows, OpcodeRow.matches, encode, List.getElem?_cons_succ, List.getElem?_cons_zero,
    Option.map_some, wordOf_and_opMask]
  decide

theorem triplet (dir : Bool) : Statement (.triplet dir) := by
  intro _; cases dir <;> decide

theorem crcLoad (val : Byte) : Statement (.crcLoad val) := by
  intro _
  simp only [rowIndex, opcodeRows, OpcodeRow.matches, encode, List.getElem?_cons_succ, List.getElem?_cons_zero,
    Option.map_some, wordOf_and_opMask]
  decide

theorem crcUpdate (val : Byte) : Statement (.crcUpdate val) := by
  intro _
  simp only [rowIndex, opcodeRows, OpcodeRow.matches, encode, List.getElem?_cons_succ, List.getElem?_cons_zero,
    Option.map_some, wordOf_and_opMask]
  decide

theorem reserved7 : Statement .reserved7 := by intro _; decide

theorem reservedHigh (op : BitVec 4) : Statement (.reservedHigh op) := by
  revert op; unfold Statement; decide

end Sys2Proof.Laws.RowMatch
end

