-- ==== Sys2Proof/Laws/Pulse.lean ====
section
/-! SUPPORT. What a low pulse is to a device: one lemma per event. -/

namespace Sys2Proof.Machine

theorem pulseEvent_eq_rst_iff (low : Nat) : pulseEvent low = some .rst ↔ Config.isResetPulse low := by
  unfold pulseEvent; split_ifs <;> simp_all

theorem pulseEvent_eq_s0_iff (low : Nat) : pulseEvent low = some .s0 ↔ Config.isLongPulse low := by
  unfold pulseEvent Config.isResetPulse Config.isLongPulse
  split_ifs <;> simp <;> omega

theorem pulseEvent_eq_s1_iff (low : Nat) : pulseEvent low = some .s1 ↔ Config.isShortPulse low := by
  unfold pulseEvent Config.isResetPulse Config.isLongPulse Config.isShortPulse
  split_ifs <;> simp <;> omega

@[simp] theorem afterPulse_rst (odd : OutOfWindow) {low : Nat} (h : pulseEvent low = some .rst) (ds : List Device) :
    afterPulse odd low ds = ds.map Device.onReset := by
  simp [afterPulse, h]

@[simp] theorem afterPulse_s0 (odd : OutOfWindow) {low : Nat} (h : pulseEvent low = some .s0) (ds : List Device) :
    afterPulse odd low ds = ds.map (Device.onSlot false) := by
  simp [afterPulse, h]

@[simp] theorem afterPulse_s1 (odd : OutOfWindow) {low : Nat} (h : pulseEvent low = some .s1) (ds : List Device) :
    afterPulse odd low ds = ds.map (Device.onSlot true) := by
  simp [afterPulse, h]

end Sys2Proof.Machine
end

