-- ==== Sys2Proof/Tests/Slice0.lean ====
section
/-! SUPPORT. Tests with expected results from spec/, and for each statement with hypotheses a witness that meets them. -/

namespace Sys2Proof.Tests

open Sys2Proof Sys2Proof.Machine

/-! ## Well-formedness refuses ill-formed commands (R72, R76) -/

theorem test_wf_refuses_writeBits_0 : ¬ (Instr.writeBits 0xCC 0).wf := by decide
theorem test_wf_refuses_writeBits_9 : ¬ (Instr.writeBits 0xCC 9).wf := by decide
theorem test_wf_refuses_readBits_0 : ¬ (Instr.readBits 0).wf := by decide
theorem test_wf_refuses_readBits_9 : ¬ (Instr.readBits 9).wf := by decide
theorem test_wf_refuses_reservedHigh_7 : ¬ (Instr.reservedHigh 7).wf := by decide
theorem test_programs_may_not_use_reserved : ¬ Instr.reserved7.programMayUse ∧ ¬ (Instr.reservedHigh 0xF).programMayUse := by decide

/-! ## Decoding: words written out from R75, R78, R79 and spec/95_test_vectors.md -/

theorem test_decode_nop : decodeWord 0b0000_000_0_00000000 = .nop := by decide
theorem test_decode_busReset : decodeWord 0b0001_000_0_00000000 = .busReset := by decide
theorem test_decode_busReset_ignored_fields : decodeWord 0x1FFF = .busReset := by decide
theorem test_decode_writeBits : decodeWord 0b0010_010_0_00000101 = .writeBits 0x05 3 := by decide
theorem test_decode_writeByte : decodeWord 0x2ECC = .writeBits 0xCC 8 := by decide
theorem test_decode_readBits : decodeWord 0b0011_110_0_00000000 = .readBits 7 := by decide
theorem test_decode_readBit : decodeWord 0x3000 = .readBits 1 := by decide
theorem test_decode_triplet : decodeWord 0b0100_000_1_00000000 = .triplet true := by decide
theorem test_decode_crcLoad : decodeWord 0b0101_000_0_01011010 = .crcLoad 0x5A := by decide
theorem test_decode_crcUpdate : decodeWord 0b0110_000_0_00101000 = .crcUpdate 0x28 := by decide
theorem test_decode_reserved7 : decodeWord 0b0111_000_0_00000000 = .reserved7 := by decide
theorem test_decode_reservedHigh : decodeWord 0b1111_000_1_00100011 = .reservedHigh 0xF := by decide
theorem test_decode_table_word : decodeTableWord 16 0x8000 = some (.reservedHigh 8) := by decide
theorem test_decode_bytes_low_first : decodeBytes [0x05, 0x24, 0xAA] = .ok (.writeBits 0x05 3, [0xAA]) := by decide
theorem test_decode_cut_short : decodeBytes [0x05] = .error .wordCutShort := by decide
theorem test_expand_pseudo :
    encode (Pseudo.writeByte 0xF0).expand = 0x2EF0 ∧ encode Pseudo.readByte.expand = 0x3E00 ∧
      encode (Pseudo.writeBit true).expand = 0x2001 ∧ encode Pseudo.readBit.expand = 0x3000 ∧
      encode Pseudo.crcClear.expand = 0x5000 := by decide

/-! ## One step on small states -/

/-- A reset block with the default constants, one cycle in a microsecond and the registers at offset 0x40. -/
def blk : State := { State.reset with cfg := Config.defaults 1 0x40 }

/-- `blk` with a running command at slot `k` and microsecond `t`, and the last two values of `ow_in`. -/
def running (cur : Timed) (t k : Nat) (older : Bool) : State :=
  { blk with seq := .run { Run.start cur with t := t, k := k }, owOe := true, sync := [true, older] }

/-- The coming edge writes `v` to offset `off`. -/
def writing (off : Offset) (v : Byte) (s : State) : State := { s with pins := [⟨false, true, off, v, false⟩] }

/-- The coming edge has `rst = 1`. -/
def resetting (s : State) : State := { s with pins := [⟨true, true, 1, 0x10, false⟩] }

/-- The block after one step on a table word. -/
def ran (w : Nat) (s : State) : State := (s.withFetchWord 16 w).after 1

/-- A-1 of spec/95_test_vectors.md. -/
theorem test_nop_clears_flags : (ran 0x0000 { blk with pd := true, bf := true, ill := true }).status = 0x02 := by decide

/-- A-2. -/
theorem test_reserved7_sets_ill : (ran 0x7000 blk).status = 0x08 := by decide

/-- A-3. -/
theorem test_reservedHigh_sets_ill : (ran 0xF123 blk).status = 0x08 ∧ (ran 0xF123 blk).cmdl = 0x23 := by decide

/-- Section 2.2. -/
theorem test_crcLoad : (ran 0x505A blk).crc = 0x5A ∧ (ran 0x505A blk).status = 0x00 := by decide

/-- Section 2.2. -/
theorem test_crcUpdate : (ran 0x6028 blk).crc = 0xE1 ∧ (ran 0x6001 { blk with crc := 0xE1 }).crc = 0xE9 := by decide

/-- A-6: a CMDH write while BUS_RESET runs. -/
theorem test_cmdh_while_busy : ((writing 1 0x50 (running .busReset 3 0 true)).after 1).status = 0x11 := by decide

/-- A-9: a CMDH write at the completion edge itself. -/
theorem test_cmdh_at_completion : ((writing 1 0x50 (running (.readBits 1) 69 0 true)).after 1).status = 0x10 := by decide

/-- A-10: reset wins. -/
theorem test_reset_wins : ((resetting { blk with pd := true, bf := true }).after 1).status = 0x00 := by decide

/-- BR-2: the first attempt without presence is the last one. -/
theorem test_busReset_no_presence : ((running .busReset 969 0 true).after 1).status = 0x00 := by decide

/-- BR-1: presence sampled at 3 * 970 + 560 makes another attempt. -/
theorem test_busReset_presence :
    ((running .busReset 3469 3 false).after 1).seq = .run { Run.start .busReset with t := 3470, k := 3, p := true } := by decide

/-- W-1: the second slot of `WRITE_BITS #0x05, 3` is low on [70,130). -/
theorem test_writeBits_low :
    ((running (.writeBits 0x05 3) 128 1 true).after 1).owOe = true ∧ ((running (.writeBits 0x05 3) 129 1 true).after 1).owOe = false := by
  decide

/-- W-1: it completes at 210. -/
theorem test_writeBits_end : ((running (.writeBits 0x05 3) 209 2 true).after 1).seq = .idle := by decide

/-- RB-1: the fourth sample, 1, folds CRC from 00 to 8C. -/
theorem test_readBits_fold : ((running (.readBits 8) 224 3 true).after 1).crc = 0x8C := by decide

/-- RB-5: the third sample of `READ_BITS 3` leaves CRC as it is. -/
theorem test_readBits_no_fold : ((running (.readBits 3) 154 2 true).after 1).crc = 0x00 := by decide

/-- T-7 and T-8: the pattern 0b11 after the second slot. -/
theorem test_triplet_fault :
    (({ running (.triplet true) 0 0 true with
        seq := .run { Run.start (.triplet true) with t := 139, k := 1, a1 := true, a2 := true } } : State).after 1).data = 0x07 := by
  decide

/-- T-5: 0b10 writes 0 whatever the hint. -/
theorem test_triplet_zero :
    (({ running (.triplet true) 0 0 true with
        seq := .run { Run.start (.triplet true) with t := 209, k := 2, a2 := true } } : State).after 1).data = 0x02 := by
  decide

/-- CRC-1 of section 2.1, and the residue of L1-7. -/
theorem test_crc_records :
    crc8Of [0x02, 0x1C, 0xB8, 0x01, 0x00, 0x00, 0x00] = 0xA2 ∧ crc8Of [0x28, 0x00, 0, 0, 0, 0, 0, 0x29] = 0x3D := by
  decide +kernel

/-! ## Witnesses -/

/-- A parameter set with the shortest times, for short runs. -/
def tiny : Config :=
  { Config.defaults 1 0x40 with
    tRstl := 1, tPds := 2, tRstr := 1, tSlot := 4, tW1l := 1, tW1h := 3, tW0l := 2, tW0h := 2, tRl := 1, tRs := 2, tRh := 1,
    resetRetries := 1, syncStages := 1 }

/-- An idle block with the shortest times. -/
def small : State := { State.reset with cfg := tiny, sync := [true] }

/-- Code A of spec/95_test_vectors.md. -/
def codeA : List Byte := [0x28, 0x01, 0, 0, 0, 0, 0, 0x29]

/-- Code B. -/
def codeB : List Byte := [0x28, 0x02, 0, 0, 0, 0, 0, 0x70]

/-- A device with a code, no alarm, and a mode. -/
def dev (rom : List Byte) (m : Mode) : Device := ⟨rom, false, m⟩

/-- An idle block on a line with the given devices. -/
def onLine (ds : List Device) : Wired (List Device) := ⟨blk, ds, 0⟩

theorem witness_DecodeUndoesEncode : (Instr.writeBits 0xFF 1).wf ∧ (Instr.readBits 8).wf ∧ (Instr.reservedHigh 8).wf := by decide

theorem witness_EveryWordLiesInOneRow : opcodeRows[0]? = some ⟨0x0000, 0xF000⟩ ∧ opcodeRows[8]? = some ⟨0x8000, 0x8000⟩ := by decide

theorem witness_idle : blk.busy = false ∧ blk.cfg.wf ∧ blk.seq = .idle := by decide

theorem witness_busy : (running (.readBits 8) 69 0 true).busy = true ∧ (running .busReset 0 0 true).busy = true := by decide

theorem witness_NopCompletes : opField 0x0FFF = 0x0 ∧ { blk with pd := true, bf := true, ill := true }.status = 0x0E := by decide

theorem witness_ReservedOpcodesOnlySetIll :
    Instr.busReset.isReserved = false ∧ { blk with ill := true }.busy = false ∧ (opField 0x7000).toNat = 0x7 := by decide

theorem witness_UntimedCommandsNeverRaiseBusy : (Instr.crcLoad 3).isTimed = false ∧ blk.seq = .idle := by decide

theorem witness_StepRunsThePresentedCommand :
    (writing 1 0x10 blk).nextPins = ⟨false, true, 1, 0x10, false⟩ ∧ (writing 1 0x10 blk).busy = false ∧
      (writing 1 0x10 (running .busReset 3 0 true)).busy = true := by decide

theorem witness_DroppedWordLeavesTheCommandRunning :
    (let s := writing 1 0x00 { blk with cerr := true }; s.cerr = true ∧ (s.after 1).cerr = false ∧ step s = .next (s.after 1)) ∧
      (let s := resetting { blk with cerr := true }; s.cerr = true ∧ (s.after 1).cerr = false ∧ step s = .next (s.after 1)) := by
  exact ⟨⟨by decide, by decide, step_eq _⟩, by decide, by decide, step_eq _⟩

theorem witness_ResetEdgeTakesTheResetValues :
    (let s : State := { running .busReset 3 0 true with pins := [⟨true, true, 1, 0x10, false⟩, ⟨false, true, 1, 0x10, false⟩] }
     s.nextPins.rst = true ∧ (s.after 1).nextPins = ⟨false, true, 1, 0x10, false⟩) := by decide

theorem witness_HostReadsFollowTheRegisterMap :
    5 ≤ (5 : Offset).toNat ∧ 5 ≤ (15 : Offset).toNat ∧ blk.hostReadAt 0x3F = none ∧ blk.hostReadAt 0x40 = some 0x00 ∧
      blk.hostReadAt 0x4F = some 0x00 ∧ blk.hostReadAt 0x50 = none := by decide

theorem witness_OtherAccessesHaveNoEffect :
    blk.nextPins.rst = false ∧ blk.nextPins.hWe = false ∧ (writing 2 0xFF blk).nextPins.rst = false ∧
      2 ≤ (writing 2 0xFF blk).nextPins.hAddr.toNat ∧ 2 ≤ (writing 15 0xFF blk).nextPins.hAddr.toNat := by decide

theorem witness_CmdlWriteStoresAndDisturbsNothing :
    (writing 0 0x5A (running .busReset 3 0 true)).nextPins = ⟨false, true, 0, 0x5A, false⟩ := by decide

theorem witness_PdChangesOnlyWhenABusResetCompletes :
    (let s : State := { blk with pd := true, seq := .run { Run.start .busReset with t := 969 } }
     step s = .next (s.after 1) ∧ (s.after 1).pd ≠ s.pd) ∧
      (let s := resetting { blk with pd := true }; step s = .next (s.after 1) ∧ (s.after 1).pd ≠ s.pd) :=
  ⟨⟨step_eq _, by decide⟩, ⟨step_eq _, by decide⟩⟩

theorem witness_DataChangesOnlyWhenAReadCompletes :
    (let s : State := { blk with seq := .run { Run.start (.readBits 1) with t := 69, sh := 1 } }
     step s = .next (s.after 1) ∧ (s.after 1).data ≠ s.data) ∧
      (let s : State := { blk with seq := .run { Run.start (.triplet true) with t := 209, k := 2 } }
       step s = .next (s.after 1) ∧ (s.after 1).data ≠ s.data) ∧
      (let s := resetting { blk with data := 1 }; step s = .next (s.after 1) ∧ (s.after 1).data ≠ s.data) :=
  ⟨⟨step_eq _, by decide⟩, ⟨step_eq _, by decide⟩, ⟨step_eq _, by decide⟩⟩

theorem witness_CrcChangesOnlyInThreeWays :
    (let s := writing 1 0x50 { blk with cmdl := 0x5A }; step s = .next (s.after 1) ∧ (s.after 1).crc ≠ s.crc) ∧
      (let s := writing 1 0x60 { blk with cmdl := 0x28 }; step s = .next (s.after 1) ∧ (s.after 1).crc ≠ s.crc) ∧
      (let s := running (.readBits 8) 14 0 true; step s = .next (s.after 1) ∧ (s.after 1).crc ≠ s.crc) ∧
      (let s := resetting { blk with crc := 1 }; step s = .next (s.after 1) ∧ (s.after 1).crc ≠ s.crc) :=
  ⟨⟨step_eq _, by decide⟩, ⟨step_eq _, by decide⟩, ⟨step_eq _, by decide⟩, ⟨step_eq _, by decide⟩⟩

theorem witness_BfIsSetOnlyByATripletWithNoDevice :
    (let s : State := { blk with seq := .run { Run.start (.triplet false) with t := 139, k := 1, a1 := true, a2 := true } }
     step s = .next (s.after 1) ∧ s.bf = false ∧ (s.after 1).bf = true) :=
  ⟨step_eq _, by decide⟩

theorem witness_EveryStepKeepsTheInvariant : Inv small ∧ step small = .next (small.after 1) :=
  ⟨⟨by decide, by decide, rfl⟩, step_eq _⟩

theorem witness_running_invariant :
    Inv { small with seq := .run { Run.start (.readBits 8) with t := 31, k := 7 }, owOe := false } :=
  ⟨by decide, by decide, ⟨by decide, by decide, by decide, ⟨by decide, by decide⟩, (by decide : 7 < 8), by decide, fun h => absurd h (by decide)⟩, by decide⟩

theorem witness_DisciplinedHostSeesNoErrorFlags :
    (let s := writing 1 0x10 blk; Clean s ∧ Disciplined s ∧ step s = .next (s.after 1)) :=
  ⟨⟨by decide, by decide⟩, fun _ _ => by decide, step_eq _⟩

theorem witness_HostCannotDisturbARunningCommand :
    (let s := { running (.readBits 8) 14 0 true with pins := [⟨false, false, 2, 0, true⟩] }
     let s' := { s with pins := [⟨false, true, 1, 0x10, true⟩] }
     SameCommand s s' ∧ ∀ j, j < 1 → (s.after j).busy = true ∧ (s.pinsAt j).rst = false ∧ (s'.pinsAt j).rst = false ∧
       (s.pinsAt j).devLow = (s'.pinsAt j).devLow) :=
  ⟨⟨rfl, rfl, rfl, rfl, rfl, rfl, rfl, rfl, rfl⟩, by decide⟩

theorem witness_LineMattersOnlyAtSampleInstants :
    presenceInstant tiny { Run.start .busReset with t := 1 } = false ∧ readInstant tiny { Run.start (.readBits 8) with t := 1 } = false ∧
      readInstant tiny { Run.start (.triplet true) with t := 2 } = false ∧
      2 ≤ ({ Run.start (.triplet true) with k := 2 } : Run).k ∧ 0 + 1 < (Config.defaults 2 0).clkPerUs := by decide

theorem witness_SampleIsTheLineSyncStagesBefore :
    small.sync.length = small.cfg.syncStages ∧ (Host.Core.run Sys2Proof.core 1 small : Answer) = .next (runEdges 1 small) :=
  ⟨by decide, run_eq_runEdges _ _⟩

theorem witness_IssuePresentsTheCommand :
    blk.busy = false ∧ { blk with pins := issuePins 0x2ECC true false }.pins = issuePins 0x2ECC true false ++ [] := by decide

/-- A block with the shortest times whose line some device holds low for the next eight edges. -/
def heldLow : State := { small with pins := List.replicate 8 ⟨false, false, 2, 0, true⟩ }

theorem witness_BusResetRunsToItsResult :
    heldLow.busy = false ∧ heldLow.cfg.wf ∧
      ∃ t, exec .busReset heldLow = .next t ∧
        (∀ k, k ≤ 1 → again tiny (!t.sampleAtUs (k * tiny.attempt + (tiny.tRstl + tiny.tPds))) k = decide (k < 1)) ∧
        quietFor (2 * tiny.attempt * tiny.clkPerUs) t :=
  ⟨by decide, by decide, _, rfl, by decide, by decide⟩

theorem witness_whole_commands :
    small.busy = false ∧ small.cfg.wf ∧
      (∃ t, exec (.writeBits 0xCC 8) small = .next t ∧ quietFor (8 * tiny.tSlot * tiny.clkPerUs) t) ∧
      (∃ t, exec (.readBits 1) small = .next t ∧ quietFor (1 * tiny.tSlot * tiny.clkPerUs) t) ∧
      ∃ t, exec (.triplet false) small = .next t ∧ quietFor (3 * tiny.tSlot * tiny.clkPerUs) t :=
  ⟨by decide, by decide, ⟨_, rfl, fun _ _ => ⟨rfl, rfl⟩⟩, ⟨_, rfl, fun _ _ => ⟨rfl, rfl⟩⟩, ⟨_, rfl, fun _ _ => ⟨rfl, rfl⟩⟩⟩

/-- The two cases of TRIPLET: a line held low reads 0b00; a line that no device holds low reads 0b11. -/
theorem witness_TripletRunsToItsResult :
    (∃ t, exec (.triplet true) heldLow = .next t ∧ t.sampleAtUs (tiny.tRl + tiny.tRs) = false ∧
        t.sampleAtUs (tiny.tSlot + (tiny.tRl + tiny.tRs)) = false) ∧
      ∃ t, exec (.triplet true) { small with pins := List.replicate 8 ⟨false, false, 2, 0, false⟩ } = .next t ∧
        t.sampleAtUs (tiny.tRl + tiny.tRs) = true ∧ t.sampleAtUs (tiny.tSlot + (tiny.tRl + tiny.tRs)) = true ∧
        quietFor (2 * tiny.tSlot * tiny.clkPerUs) t :=
  ⟨⟨_, rfl, by decide, by decide⟩, _, rfl, by decide, by decide, by decide⟩

theorem witness_ClockRefinesTheWholeCommand :
    (Instr.readBits 8).wf ∧ Inv small ∧ small.busy = false ∧
      ∃ t, exec (.readBits 8) small = .next t ∧
        noResetFor ((wholeCommand (traceEnv t) (.readBits 8) ⟨small, 0, 0⟩).us * small.cfg.clkPerUs) t :=
  ⟨by decide, ⟨by decide, by decide, rfl⟩, by decide, _, rfl, fun _ _ => rfl⟩

theorem witness_EveryCommandEndsWithinItsBound :
    small.busy = false ∧ small.cfg.wf ∧ ∃ t, exec .busReset small = .next t ∧ noResetFor (4850 * small.cfg.clkPerUs) t :=
  ⟨by decide, by decide, _, rfl, fun _ _ => rfl⟩

theorem witness_CmdIssuesAndWaitsForCompletion : (Instr.readBits 8).wf ∧ small.busy = false ∧ small.cfg.wf ∧ small.owOe = false := by
  decide

theorem witness_WritingOnesLooksLikeReading :
    small.cfg.tRl = small.cfg.tW1l ∧ (∀ i, i < 8 → bitOf 0xFF i = true) ∧
      ∃ t t', exec (.writeBits 0xFF 8) small = .next t ∧ exec (.readBits 8) small = .next t' ∧ noResetFor 1 t ∧
        (t.after 1).busy = true :=
  ⟨by decide, by decide, _, _, rfl, rfl, fun _ _ => rfl, by decide⟩

theorem witness_WellFormedCodesAreThoseThatValidate : codeA.length = 8 ∧ crc8Validate ([] ++ [0]) = true := by decide

theorem witness_SingleBitFlipsFailValidation : romWellFormed codeA = true ∧ romWellFormed codeB = true ∧ 0 < 64 ∧ 63 < 64 := by decide +kernel

/-- A bus environment whose every sample has one level. -/
def flat (high : Bool) : BusEnv Unit := ⟨fun w => (high, w), fun _ w => w, fun w => (high, w)⟩

theorem witness_flat_lines : (∀ w, ((flat true).rst w).1 = true) ∧ ∀ w, ((flat false).rst w).1 = false := by
  exact ⟨fun _ => rfl, fun _ => rfl⟩

theorem witness_EmptyLineReadsOnes : (onLine []).bus = [] := rfl

theorem witness_TripletSeesTheSearchingDevices :
    (∀ x ∈ [dev codeA (.search 0 .idBit), dev codeB .idle], x.mode = .search 0 .idBit ∨ x.mode = .idle) ∧
      (∀ x ∈ [dev codeA (.search 63 .idBit)], x.mode = .search 63 .idBit ∨ x.mode = .idle) ∧
      (searching 8 [dev codeA (.search 8 .idBit), dev codeB (.search 8 .idBit)]).isEmpty = false := by decide

theorem witness_devices_present :
    (onLine [dev codeA .idle, dev codeB .idle]).bus ≠ [] ∧ devicesWellFormed [dev codeA .idle, dev codeB .idle] = true ∧
      ([dev codeA .idle, dev codeB .idle].map (fun x => x.rom)).Nodup ∧
      (∀ x ∈ [dev codeA .idle, dev codeB .idle], x.alarm = false) ∧ codeA.length = 8 := by decide +kernel

theorem witness_LoneDeviceIsFoundAtOnce :
    (onLine [dev codeA .idle]).bus = [dev codeA .idle] ∧ romWellFormed (dev codeA .idle).rom = true := by decide +kernel

theorem witness_FirstDiscrepancyIsAtOrAfterTheFirstDivergence :
    (∀ p, p < 8 → ∀ x ∈ [dev codeA .idle, dev codeB .idle], ∀ x' ∈ [dev codeA .idle, dev codeB .idle], x.bit p = x'.bit p) ∧
      ∃ x ∈ [dev codeA .idle, dev codeB .idle], ∃ x' ∈ [dev codeA .idle, dev codeB .idle], x.bit 8 ≠ x'.bit 8 := by decide

/-- The defaults with other times. -/
def timed (rstl pds slot w1l rl w0l : Nat) : Config :=
  { Config.defaults 1 0x40 with tRstl := rstl, tPds := pds, tSlot := slot, tW1l := w1l, tRl := rl, tW0l := w0l }

/-- The windows of R211 at their ends. -/
theorem witness_WindowsMakeTheWireTheReference :
    (timed 480 60 60 6 6 60).meetsWindows ∧ (timed 490 75 70 6 6 60).meetsWindows := by
  unfold Config.meetsWindows; decide

/-- And one step outside them. -/
theorem test_windows_exclude :
    ¬ (timed 479 70 70 6 6 60).meetsWindows ∧ ¬ (timed 490 76 70 6 6 60).meetsWindows ∧
      ¬ (timed 490 70 71 6 6 60).meetsWindows ∧ ¬ (timed 490 70 70 60 6 6).meetsWindows ∧
      ¬ (timed 490 70 70 6 7 60).meetsWindows := by
  unfold Config.meetsWindows; decide

/-- The premises of the last clause: two samples of 1. -/
theorem witness_SearchHint_fault :
    ((flat true).readSlot ()).1 = true ∧ ((flat true).readSlot ((flat true).readSlot ()).2).1 = true := by decide

theorem witness_SearchHintFollowsTheCursor :
    searchHint codeB 8 8 = true ∧ searchHint codeB 8 7 = false ∧ searchHint codeB 64 9 = true ∧ searchHint codeB 8 9 = false ∧
      searchHint codeB searchFirst 0 = false := by decide

end Sys2Proof.Tests
end

section
/-! PROOFS. What a host read returns and where the block answers (R52, R53), and the parameters (R14). -/

namespace Sys2Proof.Machine

/-! ## The register map, one equation per row -/

@[simp] theorem hostRead_cmdl (s : State) : s.hostRead 0x0 = s.cmdl := rfl
@[simp] theorem hostRead_cmdh (s : State) : s.hostRead 0x1 = 0x00 := rfl
@[simp] theorem hostRead_status (s : State) : s.hostRead 0x2 = s.status := rfl
@[simp] theorem hostRead_data (s : State) : s.hostRead 0x3 = s.data := rfl
@[simp] theorem hostRead_crc (s : State) : s.hostRead 0x4 = s.crc := rfl

theorem hostRead_of_five_le (s : State) {off : Offset} (h : 5 ≤ off.toNat) : s.hostRead off = 0x00 := by
  obtain ⟨n, hn⟩ := Nat.exists_eq_add_of_le' h
  simp [State.hostRead, hn]

/-! ## Host addresses -/

theorem offsetOf_owBase_add (c : Config) (off : Offset) : Config.offsetOf c (c.owBase + off.toNat) = some off := by
  have inside : c.owBase ≤ c.owBase + off.toNat ∧ c.owBase + off.toNat < c.owBase + 16 := by
    have := off.isLt
    omega
  simp only [Config.offsetOf, if_pos inside, Nat.add_sub_cancel_left, BitVec.ofNat_toNat, BitVec.setWidth_eq]

theorem offsetOf_eq_none (c : Config) {a : Nat} (h : a < c.owBase ∨ c.owBase + 16 ≤ a) : Config.offsetOf c a = none := by
  have outside : ¬ (c.owBase ≤ a ∧ a < c.owBase + 16) := by omega
  simp only [Config.offsetOf, if_neg outside]

theorem hostReadAt_owBase_add (s : State) (off : Offset) :
    s.hostReadAt (s.cfg.owBase + off.toNat) = some (s.hostRead off) := by
  rw [State.hostReadAt, offsetOf_owBase_add, Option.map_some]

theorem hostReadAt_eq_none (s : State) {a : Nat} (h : a < s.cfg.owBase ∨ s.cfg.owBase + 16 ≤ a) : s.hostReadAt a = none := by
  rw [State.hostReadAt, offsetOf_eq_none s.cfg h, Option.map_none]

/-- Settles O18: one equation per row of the register map, and the block answers at the 16 addresses from OW_BASE only. -/
theorem hostReadsFollowTheRegisterMap : Obligations.HostReadsFollowTheRegisterMap := by
  intro s
  exact ⟨hostRead_cmdl s, hostRead_cmdh s, hostRead_status s, hostRead_data s, hostRead_crc s,
    fun _ h => hostRead_of_five_le s h, rfl, hostReadAt_owBase_add s, fun _ h => hostReadAt_eq_none s h⟩

/-! ## Parameters -/

/-- Settles O26: a step is one edge, and no edge writes the parameters. -/
theorem parametersNeverChange : Obligations.ParametersNeverChange := by
  intro s t h
  obtain rfl := step_next_iff.1 h
  obtain ⟨hcfg, -, -, -⟩ := edge_ports s
  exact hcfg

end Sys2Proof.Machine
end

section
/-! PROOFS. What a slot leaves, as one inversion lemma over all four timed commands, and what one edge can be. -/

namespace Sys2Proof.Machine

/-! ## The end of a slot (R106, R112 to R114) -/

/-- At the end of slot `r.k` the command goes on with the next slot. -/
def Run.goesOn (c : Config) (r : Run) : Bool :=
  match r.cur with
  | .busReset => again c r.p r.k
  | .writeBits _ n => decide (r.k + 1 < n)
  | .readBits n => decide (r.k + 1 < n)
  | .triplet _ => r.k == 0 || (r.k == 1 && !tripletFault r.a1 r.a2)

/-- The results a command writes at its completion. -/
def State.writeResults (r : Run) (s : State) : State :=
  match r.cur with
  | .busReset => { s with pd := r.p }
  | .writeBits _ _ => s
  | .readBits _ => { s with data := r.sh }
  | .triplet d =>
    if r.k = 1 then { s with data := tripletData d true true, bf := true }
    else { s with data := tripletData (tripletDir d r.a1 r.a2) r.a1 r.a2 }

theorem slotEnd_eq (r : Run) (s : State) :
    slotEnd r s =
      if r.goesOn s.cfg then s.resume { r with k := r.k + 1 } else State.complete (s.writeResults r) := by
  obtain ⟨cur, t, sub, k, sh, a1, a2, p⟩ := r
  cases cur with
  | busReset => rfl
  | writeBits v n => simp [slotEnd, Run.goesOn, State.writeResults]
  | readBits n => simp [slotEnd, Run.goesOn, State.writeResults]
  | triplet d =>
    rcases k with _ | _ | k
    · simp [slotEnd, Run.goesOn]
    · cases hf : tripletFault a1 a2 <;> simp [slotEnd, Run.goesOn, State.writeResults, hf]
    · simp [slotEnd, Run.goesOn, State.writeResults]

@[simp] theorem writeResults_crc (r : Run) (s : State) : (s.writeResults r).crc = s.crc := by
  unfold State.writeResults
  split <;> [rfl; rfl; rfl; (split <;> rfl)]

/-- PD is a result of BUS_RESET only. -/
theorem writeResults_pd_of_ne {r : Run} (s : State) (h : r.cur ≠ .busReset) : (s.writeResults r).pd = s.pd := by
  unfold State.writeResults
  split <;> [contradiction; rfl; rfl; (split <;> rfl)]

/-- DATA is a result of READ_BITS and TRIPLET only. -/
theorem writeResults_data_of_ne {r : Run} (s : State) (hr : ∀ n, r.cur ≠ .readBits n) (ht : ∀ d, r.cur ≠ .triplet d) :
    (s.writeResults r).data = s.data := by
  unfold State.writeResults
  cases h : r.cur with
  | busReset => rfl
  | writeBits v n => rfl
  | readBits n => exact absurd h (hr n)
  | triplet d => exact absurd h (ht d)

/-! ## A boundary -/

/-- What a boundary makes of the fields of the sequencer and of CRC before it looks at the end of the slot: a sample if its
instant has come, else nothing. -/
inductive Sampled (smp : Bool) (r : Run) (s : State) : Run → Byte → Prop where
  | skipped (h : sampleOffset s.cfg r ≠ some (r.slotTime s.cfg)) : Sampled smp r s r s.crc
  | taken (h : sampleOffset s.cfg r = some (r.slotTime s.cfg)) :
    Sampled smp r s (absorbRun smp r) (absorbCrc smp r s.crc)

theorem exists_sampled (smp : Bool) (r : Run) (s : State) : ∃ r' crc, Sampled smp r s r' crc := by
  by_cases hit : sampleOffset s.cfg r = some (r.slotTime s.cfg)
  · exact ⟨_, _, .taken hit⟩
  · exact ⟨_, _, .skipped hit⟩

theorem Sampled.boundary_eq {smp : Bool} {r r' : Run} {s : State} {crc : Byte} (h : Sampled smp r s r' crc) :
    boundary smp r s =
      if r.slotOver s.cfg then slotEnd r' { s with crc := crc } else State.resume r' { s with crc := crc } := by
  cases h with
  | skipped miss => rw [Machine.boundary_eq, if_neg miss]
  | taken hit => rw [Machine.boundary_eq, if_pos hit]

/-- A boundary lies inside a slot, or the next slot starts, or the results are written and the block is idle. -/
theorem boundary_cases (smp : Bool) (r : Run) (s : State) :
    ∃ r' crc, Sampled smp r s r' crc ∧
      ((r.slotOver s.cfg = false ∧ boundary smp r s = State.resume r' { s with crc := crc }) ∨
        (r.slotOver s.cfg = true ∧ r'.goesOn s.cfg = true ∧
          boundary smp r s = State.resume { r' with k := r'.k + 1 } { s with crc := crc }) ∨
        (r.slotOver s.cfg = true ∧ r'.goesOn s.cfg = false ∧
          boundary smp r s = State.complete (State.writeResults r' { s with crc := crc }))) := by
  obtain ⟨r', crc, h⟩ := exists_sampled smp r s
  refine ⟨r', crc, h, ?_⟩
  rw [h.boundary_eq, slotEnd_eq]
  cases r.slotOver s.cfg
  · simp
  · cases r'.goesOn s.cfg <;> simp

theorem Sampled.frame {smp : Bool} {r r' : Run} {s : State} {crc : Byte} (h : Sampled smp r s r' crc) :
    r'.cur = r.cur ∧ r'.t = r.t ∧ r'.sub = r.sub ∧ r'.k = r.k := by
  cases h with
  | skipped _ => exact ⟨rfl, rfl, rfl, rfl⟩
  | taken _ => exact absorbRun_frame smp r

/-- A sample folds into CRC only in a READ_BITS with `n = 8` (R113). -/
theorem Sampled.crc_of_ne {smp : Bool} {r r' : Run} {s : State} {crc : Byte} (h : Sampled smp r s r' crc) (hne : crc ≠ s.crc) :
    r.cur = .readBits 8 ∧ readInstant s.cfg r = true ∧ crc = crc8FoldBit s.crc smp := by
  cases h with
  | skipped _ => exact absurd rfl hne
  | taken hit =>
    cases hc : r.cur with
    | busReset | writeBits _ _ | triplet _ => simp [absorbCrc, hc] at hne
    | readBits n =>
      have instant : s.cfg.tRl + s.cfg.tRs = r.slotTime s.cfg := by simpa [sampleOffset, hc] using hit
      by_cases hn : n = 8
      · subst hn
        exact ⟨rfl, beq_iff_eq.2 instant.symm, by simp [absorbCrc, hc]⟩
      · simp [absorbCrc, hc, hn] at hne

theorem boundary_pd_of_ne {smp : Bool} {r : Run} {s : State} (hne : (boundary smp r s).pd ≠ s.pd) :
    (boundary smp r s).seq = .idle ∧ r.cur = .busReset := by
  obtain ⟨r', crc, hs, ⟨-, e⟩ | ⟨-, -, e⟩ | ⟨-, -, e⟩⟩ := boundary_cases smp r s
  · exact absurd (by rw [e]; rfl) hne
  · exact absurd (by rw [e]; rfl) hne
  · obtain ⟨hcur, -, -, -⟩ := hs.frame
    refine ⟨by rw [e]; rfl, by_contra fun h => hne ?_⟩
    rw [e]
    exact writeResults_pd_of_ne _ (hcur ▸ h)

theorem boundary_data_of_ne {smp : Bool} {r : Run} {s : State} (hne : (boundary smp r s).data ≠ s.data) :
    (boundary smp r s).seq = .idle ∧ ((∃ n, r.cur = .readBits n) ∨ ∃ d, r.cur = .triplet d) := by
  obtain ⟨r', crc, hs, ⟨-, e⟩ | ⟨-, -, e⟩ | ⟨-, -, e⟩⟩ := boundary_cases smp r s
  · exact absurd (by rw [e]; rfl) hne
  · exact absurd (by rw [e]; rfl) hne
  · obtain ⟨hcur, -, -, -⟩ := hs.frame
    refine ⟨by rw [e]; rfl, by_contra fun h => hne ?_⟩
    obtain ⟨hr, ht⟩ := not_or.1 h
    rw [e]
    exact writeResults_data_of_ne _ (fun n hn => hr ⟨n, hcur ▸ hn⟩) (fun d hd => ht ⟨d, hcur ▸ hd⟩)

theorem boundary_crc_of_ne {smp : Bool} {r : Run} {s : State} (hne : (boundary smp r s).crc ≠ s.crc) :
    r.cur = .readBits 8 ∧ readInstant s.cfg r = true ∧ (boundary smp r s).crc = crc8FoldBit s.crc smp := by
  obtain ⟨r', crc, hs, he⟩ := boundary_cases smp r s
  have hcrc : (boundary smp r s).crc = crc := by
    rcases he with ⟨-, e⟩ | ⟨-, -, e⟩ | ⟨-, -, e⟩ <;> simp [e]
  rw [hcrc] at hne ⊢
  exact hs.crc_of_ne hne

/-! ## An edge -/

theorem edge_of_no_reset {s : State} (h : s.nextPins.rst = false) :
    edge s =
      if s.busy then (accessed s.nextPins s.clockIn).tick s.sampleNow else accessed s.nextPins s.clockIn := by
  simp [edge, h]

/-- An edge resets the block, takes a host access into an idle one, counts the prescaler or brings a running command to its
next boundary. -/
theorem edge_cases (s : State) :
    (s.nextPins.rst = true ∧ edge s = s.clockIn.applyReset) ∨
      (s.seq = .idle ∧ edge s = accessed s.nextPins s.clockIn) ∨
      (∃ r, s.seq = .run r ∧ r.sub + 1 < s.cfg.clkPerUs ∧
        SamePart (edge s) { s with seq := .run { r with sub := r.sub + 1 } }) ∨
      ∃ r, s.seq = .run r ∧ s.cfg.clkPerUs ≤ r.sub + 1 ∧
        SamePart (edge s) (boundary s.sampleNow { r with t := r.t + 1, sub := 0 } s) := by
  cases hr : s.nextPins.rst with
  | true => exact .inl ⟨rfl, by simp [edge, hr]⟩
  | false =>
    cases hs : s.seq with
    | idle => exact .inr (.inl ⟨rfl, by simp [edge_of_no_reset hr, (busy_eq_false_iff s).2 hs]⟩)
    | run r =>
      by_cases hc : r.sub + 1 < s.cfg.clkPerUs
      · exact .inr (.inr (.inl ⟨r, rfl, hc, edge_insideMicrosecond hs hr hc⟩))
      · exact .inr (.inr (.inr ⟨r, rfl, Nat.not_lt.1 hc, edge_atBoundary hs hr hc⟩))

/-- A host access writes neither PD nor DATA. -/
theorem accessed_results (p : Pins) (s : State) : (accessed p s).pd = s.pd ∧ (accessed p s).data = s.data := by
  have own : ∀ i, (ownEffect i (s.acceptFlags i.isReserved)).pd = s.pd ∧
      (ownEffect i (s.acceptFlags i.isReserved)).data = s.data := by
    intro i
    obtain ⟨-, -, hpd, -, -, -, hdata, -, -, -⟩ := ownEffect_frame i (s.acceptFlags i.isReserved)
    exact ⟨hpd, hdata⟩
  unfold accessed
  split_ifs
  case neg => exact own _
  all_goals exact ⟨rfl, rfl⟩

/-- The commands whose own effect writes CRC (R94, R95). -/
theorem ownEffect_crc_of_ne {i : Instr} {s : State} (hne : (ownEffect i s).crc ≠ s.crc) :
    ∃ v, (i = .crcLoad v ∧ (ownEffect i s).crc = v) ∨ (i = .crcUpdate v ∧ (ownEffect i s).crc = crc8Update s.crc v) := by
  cases i with
  | crcLoad v => exact ⟨v, .inl ⟨rfl, rfl⟩⟩
  | crcUpdate v => exact ⟨v, .inr ⟨rfl, rfl⟩⟩
  | _ => exact absurd rfl hne

/-- A host access writes CRC only by a CMDH write that presents CRC_LOAD or CRC_UPDATE. -/
theorem accessed_crc_of_ne {p : Pins} {s : State} (hne : (accessed p s).crc ≠ s.crc) :
    p.hWe = true ∧ p.hAddr = 1 ∧
      ∃ v, (s.presentedInstr p.hWdata = .crcLoad v ∧ (accessed p s).crc = v) ∨
        (s.presentedInstr p.hWdata = .crcUpdate v ∧ (accessed p s).crc = crc8Update s.crc v) := by
  unfold accessed at hne ⊢
  split_ifs at hne ⊢ with hw h0 h1 hb
  case neg => exact ⟨hw, h1, ownEffect_crc_of_ne hne⟩
  all_goals exact absurd rfl hne

end Sys2Proof.Machine
end

section
/-! PROOFS. The registers a running command and the host can change (R26, R27, R29). -/

namespace Sys2Proof.Machine

/-- Settles O22: of all an edge can be, only the completing boundary of a BUS_RESET and a reset write PD. -/
theorem pdChangesOnlyWhenABusResetCompletes : Obligations.PdChangesOnlyWhenABusResetCompletes := by
  intro s t h hne
  obtain rfl := step_next_iff.1 h
  obtain ⟨hr, -⟩ | ⟨-, e⟩ | ⟨r, -, -, e⟩ | ⟨r, hs, -, e⟩ := edge_cases s
  · exact .inl hr
  · obtain ⟨hpd, -⟩ := accessed_results s.nextPins s.clockIn
    exact absurd (e ▸ hpd) hne
  · exact absurd e.pd hne
  · obtain ⟨hidle, hcur⟩ := boundary_pd_of_ne (e.pd ▸ hne)
    exact .inr ⟨e.seq.trans hidle, r, hs, hcur⟩

/-- Settles O23: of all an edge can be, only the completing boundary of a READ_BITS or TRIPLET and a reset write DATA. -/
theorem dataChangesOnlyWhenAReadCompletes : Obligations.DataChangesOnlyWhenAReadCompletes := by
  intro s t h hne
  obtain rfl := step_next_iff.1 h
  obtain ⟨hr, -⟩ | ⟨-, e⟩ | ⟨r, -, -, e⟩ | ⟨r, hs, -, e⟩ := edge_cases s
  · exact .inl hr
  · obtain ⟨-, hdata⟩ := accessed_results s.nextPins s.clockIn
    exact absurd (e ▸ hdata) hne
  · exact absurd e.data hne
  · obtain ⟨hidle, hcur⟩ := boundary_data_of_ne (e.data ▸ hne)
    exact .inr ⟨e.seq.trans hidle, r, hs, hcur⟩

/-- Settles O24: besides a reset, CRC is written by the access of an idle block or by the sample of a boundary. -/
theorem crcChangesOnlyInThreeWays : Obligations.CrcChangesOnlyInThreeWays := by
  intro s t h hne
  obtain rfl := step_next_iff.1 h
  obtain ⟨hr, -⟩ | ⟨hs, e⟩ | ⟨r, -, -, e⟩ | ⟨r, hs, hc, e⟩ := edge_cases s
  · exact .inl hr
  · rw [e] at hne ⊢
    exact .inr (.inl ⟨(busy_eq_false_iff s).2 hs, accessed_crc_of_ne (s := s.clockIn) hne⟩)
  · exact absurd e.crc hne
  · obtain ⟨hcur, hinstant, hcrc⟩ := boundary_crc_of_ne (e.crc ▸ hne)
    exact .inr (.inr ⟨r, hs, hcur, hc, hinstant, e.crc.trans hcrc⟩)

end Sys2Proof.Machine
end

section
/-! PROOFS. The invariant of sequencer, line and time, at reset and over every step (R23, R56, R101, R102, R104, R109, R114). -/

namespace Sys2Proof.Machine

theorem wf_decodeWord (w : CmdWord) : (decodeWord w).wf := by
  have count : 1 ≤ countOf (nm1Field w) ∧ countOf (nm1Field w) ≤ 8 := by
    have := (nm1Field w).isLt
    unfold countOf
    omega
  unfold decodeWord
  split
  case h_3 => exact count
  case h_4 => exact count
  case h_9 =>
    show 8 ≤ (opField w).toNat
    simp only [imp_false] at *
    omega
  all_goals exact trivial

theorem slotLength_pos {c : Config} (h : c.wf) (x : Timed) : 0 < x.slotLength c := by
  have slot := wf_slot h
  obtain ⟨attempt, fits⟩ := wf_att h
  cases x with
  | busReset => exact Nat.lt_of_lt_of_le attempt fits
  | writeBits v n => exact slot
  | readBits n => exact slot
  | triplet d => exact slot

/-- Writing bit `i` sets no bit above `i`. -/
theorem setBit_lt_two_pow {v : Byte} {i : Nat} (b : Bool) (h : v.toNat < 2 ^ (i + 1)) : (setBit v i b).toNat < 2 ^ (i + 1) := by
  cases b with
  | false => simpa [setBit] using Nat.lt_of_le_of_lt Nat.and_le_left h
  | true =>
    have one : (1#8 <<< i).toNat < 2 ^ (i + 1) := by
      calc (1#8 <<< i).toNat = 2 ^ i % 256 := by simp [BitVec.toNat_shiftLeft, Nat.shiftLeft_eq]
        _ ≤ 2 ^ i := Nat.mod_le _ _
        _ < 2 ^ (i + 1) := Nat.pow_lt_pow_right (by decide) (Nat.lt_succ_self i)
    simpa [setBit] using Nat.or_lt_two_pow h one

/-! ## What a running sequencer satisfies, without its time -/

/-- The part of `Run.ok` that a sample can touch: the operands, the index, the bits read and the answer of a TRIPLET. -/
structure Run.Sound (c : Config) (r : Run) : Prop where
  operands : r.cur.wf
  index : r.indexOk c
  bits : r.sh.toNat < 2 ^ (r.k + 1)
  answered : r.k = 2 → ∀ d, r.cur = .triplet d → (r.a1 && r.a2) = false

theorem Run.ok_iff (c : Config) (r : Run) :
    r.ok c ↔ r.sub < c.clkPerUs ∧ r.k * r.cur.slotLength c ≤ r.t ∧ r.t < (r.k + 1) * r.cur.slotLength c ∧ r.Sound c :=
  ⟨fun ⟨hsub, hlo, hhi, hw, hi, hb, ha⟩ => ⟨hsub, hlo, hhi, hw, hi, hb, ha⟩,
    fun ⟨hsub, hlo, hhi, hw, hi, hb, ha⟩ => ⟨hsub, hlo, hhi, hw, hi, hb, ha⟩⟩

theorem Run.Sound.start {c : Config} {x : Timed} (h : x.wf) : (Run.start x).Sound c where
  operands := h
  index := by
    cases x with
    | busReset => exact Nat.zero_le _
    | writeBits v n => exact h.1
    | readBits n => exact h.1
    | triplet d => exact Nat.zero_le _
  bits := Nat.two_pow_pos 1
  answered := fun h => nomatch h

theorem Run.Sound.atTime {c : Config} {r : Run} (h : r.Sound c) (t sub : Nat) : Run.Sound c { r with t := t, sub := sub } :=
  ⟨h.operands, h.index, h.bits, h.answered⟩

theorem Run.Sound.absorb {c : Config} {r : Run} (h : r.Sound c) (smp : Bool) : (absorbRun smp r).Sound c := by
  obtain ⟨cur, t, sub, k, sh, a1, a2, p⟩ := r
  obtain ⟨hw, hi, hb, ha⟩ := h
  cases cur with
  | busReset => exact ⟨hw, hi, hb, ha⟩
  | writeBits v n => exact ⟨hw, hi, hb, ha⟩
  | readBits n => exact ⟨hw, hi, setBit_lt_two_pow smp hb, fun _ d hd => nomatch hd⟩
  | triplet d =>
    refine ⟨hw, hi, hb, fun hk => ?_⟩
    obtain rfl : k = 2 := hk
    exact ha rfl

theorem Sampled.sound {smp : Bool} {r r' : Run} {s : State} {crc : Byte} (h : Sampled smp r s r' crc) (hr : r.Sound s.cfg) :
    r'.Sound s.cfg := by
  cases h with
  | skipped _ => exact hr
  | taken _ => exact hr.absorb smp

theorem Run.Sound.nextSlot {c : Config} {r : Run} (h : r.Sound c) (hg : r.goesOn c = true) :
    Run.Sound c { r with k := r.k + 1 } := by
  have bits : r.sh.toNat < 2 ^ (r.k + 1 + 1) :=
    Nat.lt_trans h.bits (Nat.pow_lt_pow_right (by decide) (Nat.lt_succ_self _))
  obtain ⟨cur, t, sub, k, sh, a1, a2, p⟩ := r
  cases cur with
  | busReset =>
    have more : k < c.resetRetries := by
      simp only [Run.goesOn, again, Bool.and_eq_true, decide_eq_true_eq] at hg
      exact hg.1
    exact ⟨h.operands, more, bits, fun _ d hd => nomatch hd⟩
  | writeBits v n => exact ⟨h.operands, of_decide_eq_true hg, bits, fun _ d hd => nomatch hd⟩
  | readBits n => exact ⟨h.operands, of_decide_eq_true hg, bits, fun _ d hd => nomatch hd⟩
  | triplet d =>
    have early : k = 0 ∨ (k = 1 ∧ tripletFault a1 a2 = false) := by simpa [Run.goesOn] using hg
    obtain rfl | ⟨rfl, fault⟩ := early
    · exact ⟨h.operands, Nat.le_succ 1, bits, fun hk => nomatch hk⟩
    · exact ⟨h.operands, Nat.le_refl 2, bits, fun _ _ _ => fault⟩

/-! ## Sequencer and line -/

theorem seqOk_of_idle {s : State} (h : s.seq = .idle) (hl : s.owOe = false) : s.seqOk := by
  simpa [State.seqOk, h] using hl

theorem resume_seqOk {r : Run} {s : State} (h : r.ok s.cfg) : (s.resume r).seqOk := ⟨h, rfl⟩

theorem seqOk_congr {s t : State} (hcfg : s.cfg = t.cfg) (hseq : s.seq = t.seq) (hl : s.owOe = t.owOe) :
    s.seqOk ↔ t.seqOk := by
  unfold State.seqOk
  rw [hcfg, hseq, hl]

theorem SamePart.seqOk_iff {s t : State} (h : SamePart s t) : s.seqOk ↔ t.seqOk := seqOk_congr h.cfg h.seq h.owOe

theorem start_seqOk {x : Timed} {s : State} (hc : s.cfg.wf) (hx : x.wf) : (s.start x).seqOk := by
  refine resume_seqOk ((Run.ok_iff _ _).2 ⟨hc.1, ?_, ?_, .start hx⟩)
  · simp [Run.start]
  · simpa [Run.start] using slotLength_pos hc x

theorem ownEffect_seqOk {i : Instr} {s : State} (hc : s.cfg.wf) (hi : i.wf) (h : s.seqOk) : (ownEffect i s).seqOk := by
  cases i with
  | busReset => exact start_seqOk hc trivial
  | writeBits v n => exact start_seqOk hc hi
  | readBits n => exact start_seqOk hc hi
  | triplet d => exact start_seqOk hc trivial
  | _ => exact h

theorem accessed_seqOk {p : Pins} {s : State} (hc : s.cfg.wf) (h : s.seqOk) : (accessed p s).seqOk := by
  unfold accessed
  split_ifs
  case neg => exact ownEffect_seqOk hc (wf_decodeWord _) h
  all_goals exact h

/-- A boundary in slot `r.k`, or at its end, leaves `t` in the slot the command is in then. -/
theorem boundary_seqOk {smp : Bool} {r : Run} {s : State} (hc : s.cfg.wf) (h0 : r.sub < s.cfg.clkPerUs)
    (hlo : r.k * r.cur.slotLength s.cfg ≤ r.t) (hhi : r.t ≤ (r.k + 1) * r.cur.slotLength s.cfg) (hr : r.Sound s.cfg) :
    (boundary smp r s).seqOk := by
  obtain ⟨r', crc, hs, he⟩ := boundary_cases smp r s
  obtain ⟨hcur, ht, hsub, hk⟩ := hs.frame
  have ends : r.slotOver s.cfg = true ↔ (r.k + 1) * r.cur.slotLength s.cfg ≤ r.t := by
    rw [Run.slotOver, decide_eq_true_iff, Run.slotTime, Nat.add_one_mul]
    omega
  obtain ⟨hov, e⟩ | ⟨hov, hg, e⟩ | ⟨-, -, e⟩ := he
  · have inside : r.t < (r.k + 1) * r.cur.slotLength s.cfg := Nat.not_le.1 fun h => by simp [ends.2 h] at hov
    rw [e]
    refine resume_seqOk ((Run.ok_iff _ _).2 ⟨?_, ?_, ?_, hs.sound hr⟩)
    · rwa [hsub]
    · rwa [hk, hcur, ht]
    · rwa [hk, hcur, ht]
  · have pos := slotLength_pos hc r.cur
    rw [e]
    refine resume_seqOk ((Run.ok_iff _ _).2 ⟨?_, ?_, ?_, (hs.sound hr).nextSlot hg⟩)
    · show r'.sub < _
      rwa [hsub]
    · show (r'.k + 1) * r'.cur.slotLength s.cfg ≤ r'.t
      rw [hk, hcur, ht]
      exact ends.1 hov
    · show r'.t < (r'.k + 1 + 1) * r'.cur.slotLength s.cfg
      rw [hk, hcur, ht, Nat.succ_mul (r.k + 1)]
      omega
  · rw [e]
    exact seqOk_of_idle rfl rfl

theorem edge_seqOk {s : State} (hc : s.cfg.wf) (h : s.seqOk) : (edge s).seqOk := by
  obtain ⟨-, e⟩ | ⟨-, e⟩ | ⟨r, hs, hsub, e⟩ | ⟨r, hs, -, e⟩ := edge_cases s
  · rw [e]
    exact seqOk_of_idle rfl rfl
  · rw [e]
    exact accessed_seqOk (s := s.clockIn) hc h
  · simp only [State.seqOk, hs] at h
    obtain ⟨⟨-, hok⟩, hdrive⟩ := h
    exact e.seqOk_iff.2 ⟨⟨hsub, hok⟩, hdrive⟩
  · simp only [State.seqOk, hs] at h
    obtain ⟨-, hlo, hhi, hsound⟩ := (Run.ok_iff _ _).1 h.1
    exact e.seqOk_iff.2 (boundary_seqOk hc hc.1 (Nat.le_succ_of_le hlo) hhi (hsound.atTime _ _))

/-- Settles O27: the defaults meet R4 and R6, and reset leaves an idle block with a released line. -/
theorem invariantHoldsAtReset : Obligations.InvariantHoldsAtReset :=
  ⟨⟨Nat.succ_pos _, by decide⟩, rfl, rfl⟩

/-- Settles O28: an edge keeps the parameters and the length of the synchronizer, and each of its cases keeps sequencer and
line in agreement. -/
theorem everyStepKeepsTheInvariant : Obligations.EveryStepKeepsTheInvariant := by
  rintro s t ⟨hc, hsync, hseq⟩ h
  obtain rfl := step_next_iff.1 h
  obtain ⟨hcfg, hs, -, -⟩ := edge_ports s
  refine ⟨hcfg ▸ hc, ?_, edge_seqOk hc hseq⟩
  rw [hs, hcfg, List.length_take, List.length_cons, hsync]
  omega

end Sys2Proof.Machine
end

section
/-! PROOFS. STATUS, the reset values, and what a write to CMDL or CMDH does at an edge (R24 to R26, R30, R33, R100). -/

namespace Sys2Proof.Machine

/-! ## STATUS -/

/-- STATUS, one field after another. -/
theorem status_eq_concat (s : State) :
    s.status = ((((0#3).concat s.cerr |>.concat s.ill).concat s.bf).concat s.pd).concat s.busy := by
  simp only [State.status, BitVec.append_ofBool]

theorem bitOf_status_zero (s : State) : bitOf s.status 0 = s.busy := by
  rw [bitOf, status_eq_concat, BitVec.getLsbD_concat_zero]

/-- Settles O19: each field doubles the weight of those above it. -/
theorem statusFieldsStandWhereTheTablePutsThem : Obligations.StatusFieldsStandWhereTheTablePutsThem := by
  intro s
  simp only [status_eq_concat, BitVec.toNat_concat, BitVec.toNat_ofNat]
  omega

/-- A command that takes no time writes neither the sequencer nor the line. -/
theorem ownEffect_untimed {i : Instr} (h : i.isTimed = false) (s : State) :
    (ownEffect i s).seq = s.seq ∧ (ownEffect i s).owOe = s.owOe := by
  cases i with
  | busReset | writeBits _ _ | readBits _ | triplet _ => cases h
  | _ => exact ⟨rfl, rfl⟩

/-- Settles O12: an idle block takes the own effect of a command, which for an untimed one leaves the sequencer idle. -/
theorem untimedCommandsNeverRaiseBusy : Obligations.UntimedCommandsNeverRaiseBusy := by
  refine ⟨fun s => ⟨?_, bitOf_status_zero s⟩, fun i s hi hs => ?_⟩
  · rw [ne_eq, ← busy_eq_false_iff, Bool.not_eq_false]
  · obtain ⟨hseq, hl⟩ := ownEffect_untimed hi (s.acceptFlags i.isReserved)
    have idle := hseq.trans hs
    refine ⟨_, exec_of_idle i ((busy_eq_false_iff s).2 hs), idle, hl, ?_⟩
    rw [bitOf_status_zero]
    exact (busy_eq_false_iff _).2 idle

/-- Settles O17: the registers of the reset state are zero, its sequencer is idle and its line released. -/
theorem resetStateHasTheResetValues : Obligations.ResetStateHasTheResetValues :=
  ⟨by decide, rfl, rfl, rfl, rfl, rfl, rfl⟩

/-! ## A write to CMDH -/

theorem accessed_cmdh {p : Pins} (s : State) (hw : p.hWe = true) (ha : p.hAddr = 1) :
    accessed p s =
      if s.busy then s.dropCommand
      else ownEffect (s.presentedInstr p.hWdata) (s.acceptFlags (s.presentedInstr p.hWdata).isReserved) := by
  simp [accessed, hw, ha]

/-- Settles O13: a CMDH write is acceptance by an idle block and the drop by a busy one, whose sequencer then advances. -/
theorem stepRunsThePresentedCommand : Obligations.StepRunsThePresentedCommand := by
  intro s hr hw ha
  have access := accessed_cmdh s.clockIn hw ha
  refine ⟨fun hb => ?_, fun hb => ?_, rfl⟩
  · rw [step_eq, edge_of_no_reset hr, access, clockIn_busy, hb, exec_of_idle _ (s := s.clockIn) hb]
    rfl
  · rw [step_eq, edge_of_no_reset hr, access, clockIn_busy, hb]
    rfl

/-! ## A write to CMDL -/

/-- The fields a running command reads or writes and those it does not touch are all there are. -/
theorem eq_of_samePart_of_sameOutside {s t : State} (h : SamePart s t) (k : SameOutside s t) : s = t := by
  obtain ⟨cfg, pd, bf, ill, data, crc, seq, owOe⟩ := h
  obtain ⟨-, cmdl, -, cerr, sync, pins, edges⟩ := k
  cases s
  cases t
  simp_all

theorem tick_samePart (smp : Bool) {s t : State} (h : SamePart s t) : SamePart (s.tick smp) (t.tick smp) := by
  cases hs : s.seq with
  | idle => rwa [tick_of_idle smp hs, tick_of_idle smp (h.seq ▸ hs)]
  | run r =>
    rw [tick_of_run smp hs, tick_of_run smp (h.seq ▸ hs), tickRun, tickRun, ← h.cfg]
    split
    · exact ⟨rfl, h.pd, h.bf, h.ill, h.data, h.crc, rfl, h.owOe⟩
    · exact boundary_samePart smp _ h

/-- CMDL is no part of the running command. -/
theorem tick_writeCmdl (smp : Bool) (v : Byte) (s : State) : (s.writeCmdl v).tick smp = (s.tick smp).writeCmdl v := by
  have written : SamePart (s.writeCmdl v) s := ⟨rfl, rfl, rfl, rfl, rfl, rfl, rfl, rfl⟩
  have kept : SamePart (s.tick smp) ((s.tick smp).writeCmdl v) := ⟨rfl, rfl, rfl, rfl, rfl, rfl, rfl, rfl⟩
  obtain ⟨hcfg, hcmdl, hill, hcerr, hsync, hpins, hedges⟩ := tick_sameOutside smp (s.writeCmdl v)
  obtain ⟨kcfg, -, kill, kcerr, ksync, kpins, kedges⟩ := tick_sameOutside smp s
  exact eq_of_samePart_of_sameOutside ((tick_samePart smp written).trans kept)
    ⟨hcfg.trans kcfg.symm, hcmdl, hill.trans kill.symm, hcerr.trans kcerr.symm, hsync.trans ksync.symm,
      hpins.trans kpins.symm, hedges.trans kedges.symm⟩

theorem edge_cmdlWrite {s : State} (hr : s.nextPins.rst = false) (hw : s.nextPins.hWe = true) (ha : s.nextPins.hAddr = 0) :
    edge s = State.writeCmdl s.nextPins.hWdata (if s.busy then s.clockIn.tick s.sampleNow else s.clockIn) := by
  have access : accessed s.nextPins s.clockIn = s.clockIn.writeCmdl s.nextPins.hWdata := by simp [accessed, hw, ha]
  rw [edge_of_no_reset hr, access, tick_writeCmdl]
  split <;> rfl

theorem valField_presentedWord (s : State) (h : Byte) : valField (s.presentedWord h) = s.cmdl :=
  BitVec.extractLsb'_append_eq_right

/-- Settles O21: the store commutes with the edge of the sequencer. -/
theorem cmdlWriteStoresAndDisturbsNothing : Obligations.CmdlWriteStoresAndDisturbsNothing := by
  intro s hr hw ha
  exact ⟨_, step_eq s, edge_cmdlWrite hr hw ha, by rw [edge_cmdlWrite hr hw ha]; rfl,
    fun h => by rw [valField_presentedWord, edge_cmdlWrite hr hw ha]; rfl, rfl⟩

end Sys2Proof.Machine
end

section
/-! PROOFS. Reads, and writes to read-only and reserved offsets (R52 to R54). -/

namespace Sys2Proof.Machine

/-- Only a write to CMDL or CMDH does anything to the block. -/
theorem accessed_of_read_or_ignored_write {p : Pins} (s : State) (h : p.hWe = false ∨ 2 ≤ p.hAddr.toNat) :
    accessed p s = s := by
  obtain hw | ha := h
  · simp [accessed, hw]
  · have ne0 : p.hAddr ≠ 0 := fun h0 => by simp [h0] at ha
    have ne1 : p.hAddr ≠ 1 := fun h1 => by simp [h1] at ha
    rw [accessed, if_neg ne0, if_neg ne1, ite_self]

/-- Settles O20: with the host access leaving the state alone, the edge only advances the sequencer. -/
theorem otherAccessesHaveNoEffect : Obligations.OtherAccessesHaveNoEffect := by
  intro s hr h
  rw [step_eq, edge_of_no_reset hr, accessed_of_read_or_ignored_write s.clockIn h]

end Sys2Proof.Machine
end

section
/-! PROOFS. The fields of a word, and the commands words stand for (R55, R70 to R79). -/

namespace Sys2Proof

/-! ## Fields -/

theorem toNat_opField (w : CmdWord) : (opField w).toNat = w.toNat / 4096 := by
  have := w.isLt
  simp only [opField, BitVec.extractLsb'_toNat, Nat.shiftRight_eq_div_pow]
  omega

theorem toNat_nm1Field (w : CmdWord) : (nm1Field w).toNat = w.toNat / 512 % 8 := by
  simp only [nm1Field, BitVec.extractLsb'_toNat, Nat.shiftRight_eq_div_pow, Nat.reducePow]

theorem toNat_dirField (w : CmdWord) : (dirField w).toNat = w.toNat / 256 % 2 := Nat.toNat_testBit w.toNat 8

theorem toNat_lowByte (w : CmdWord) : (lowByte w).toNat = w.toNat % 256 := by
  simp only [lowByte, BitVec.extractLsb'_toNat, Nat.shiftRight_zero, Nat.reducePow]

theorem toNat_highByte (w : CmdWord) : (highByte w).toNat = w.toNat / 256 := by
  have := w.isLt
  simp only [highByte, BitVec.extractLsb'_toNat, Nat.shiftRight_eq_div_pow]
  omega

/-- Settles O4: each field is a shift and a remainder of the word; VAL is the low byte. -/
theorem fieldsStandWhereTheFormatPutsThem : Obligations.FieldsStandWhereTheFormatPutsThem := fun w =>
  ⟨toNat_opField w, toNat_nm1Field w, toNat_dirField w, toNat_lowByte w, toNat_lowByte w, toNat_highByte w⟩

/-- A word is made of its fields (R70). -/
theorem wordOf_fields (w : CmdWord) : wordOf (opField w) (nm1Field w) (dirField w) (valField w) = w := by
  apply BitVec.eq_of_getLsbD_eq
  intro k hk
  rw [getLsbD_wordOf, opField, nm1Field, dirField, valField]
  split_ifs with h8 h9 h12
  · simp [h8]
  · rw [show k = 8 by omega]
  · simp [show k - 9 < 3 by omega, show 9 + (k - 9) = k by omega]
  · simp [show k - 12 < 4 by omega, show 12 + (k - 12) = k by omega]

/-- A mask acts on each field by itself. -/
theorem wordOf_and_wordOf (op op' : BitVec 4) (nm1 nm1' : BitVec 3) (dir dir' : Bool) (val val' : Byte) :
    wordOf op nm1 dir val &&& wordOf op' nm1' dir' val' = wordOf (op &&& op') (nm1 &&& nm1') (dir && dir') (val &&& val') := by
  apply BitVec.eq_of_getLsbD_eq
  intro k _
  simp only [BitVec.getLsbD_and, getLsbD_wordOf]
  split_ifs <;> rfl

/-! ## The bit count (R72) -/

theorem countOf_nm1Of {n : Nat} (h : 1 ≤ n ∧ n ≤ 8) : countOf (nm1Of n) = n := by
  simp only [countOf, nm1Of, BitVec.toNat_ofNat]
  omega

theorem nm1Of_countOf (nm1 : BitVec 3) : nm1Of (countOf nm1) = nm1 := by
  rw [nm1Of, countOf, Nat.add_sub_cancel, BitVec.ofNat_toNat, BitVec.setWidth_eq]

/-! ## The words of a command -/

/-- The words of each command, row by row of the table (R75): what a word has in a field its row does not use is free (R77). -/
inductive Encodes (w : CmdWord) : Instr → Prop where
  | nop (hop : opField w = 0x0) : Encodes w .nop
  | busReset (hop : opField w = 0x1) : Encodes w .busReset
  | writeBits (hop : opField w = 0x2) : Encodes w (.writeBits (valField w) (countOf (nm1Field w)))
  | readBits (hop : opField w = 0x3) : Encodes w (.readBits (countOf (nm1Field w)))
  | triplet (hop : opField w = 0x4) : Encodes w (.triplet (dirField w))
  | crcLoad (hop : opField w = 0x5) : Encodes w (.crcLoad (valField w))
  | crcUpdate (hop : opField w = 0x6) : Encodes w (.crcUpdate (valField w))
  | reserved7 (hop : opField w = 0x7) : Encodes w .reserved7
  | reservedHigh (hop : 8 ≤ (opField w).toNat) : Encodes w (.reservedHigh (opField w))

theorem Encodes.decodeWord_eq {w : CmdWord} {i : Instr} (h : Encodes w i) : decodeWord w = i := by
  cases h with
  | reservedHigh hop =>
    obtain ⟨m, hm⟩ := Nat.exists_eq_add_of_le' hop
    simp [decodeWord, hm]
  | _ hop => simp [decodeWord, hop]

theorem encodes_decodeWord (w : CmdWord) : Encodes w (decodeWord w) := by
  unfold decodeWord
  split
  case h_1 hop => exact .nop (BitVec.eq_of_toNat_eq hop)
  case h_2 hop => exact .busReset (BitVec.eq_of_toNat_eq hop)
  case h_3 hop => exact .writeBits (BitVec.eq_of_toNat_eq hop)
  case h_4 hop => exact .readBits (BitVec.eq_of_toNat_eq hop)
  case h_5 hop => exact .triplet (BitVec.eq_of_toNat_eq hop)
  case h_6 hop => exact .crcLoad (BitVec.eq_of_toNat_eq hop)
  case h_7 hop => exact .crcUpdate (BitVec.eq_of_toNat_eq hop)
  case h_8 hop => exact .reserved7 (BitVec.eq_of_toNat_eq hop)
  case h_9 =>
    refine .reservedHigh ?_
    simp only [imp_false] at *
    omega

/-- The canonical word of a command is one of its words. -/
theorem encodes_encode {i : Instr} (h : i.wf) : Encodes (encode i) i := by
  cases i with
  | nop => exact .nop (opField_wordOf ..)
  | busReset => exact .busReset (opField_wordOf ..)
  | writeBits v n =>
    have word := Encodes.writeBits (opField_wordOf 0x2 (nm1Of n) false v)
    rwa [valField_wordOf, nm1Field_wordOf, countOf_nm1Of h] at word
  | readBits n =>
    have word := Encodes.readBits (opField_wordOf 0x3 (nm1Of n) false 0)
    rwa [nm1Field_wordOf, countOf_nm1Of h] at word
  | triplet d =>
    have word := Encodes.triplet (opField_wordOf 0x4 0 d 0)
    rwa [dirField_wordOf] at word
  | crcLoad v =>
    have word := Encodes.crcLoad (opField_wordOf 0x5 0 false v)
    rwa [valField_wordOf] at word
  | crcUpdate v =>
    have word := Encodes.crcUpdate (opField_wordOf 0x6 0 false v)
    rwa [valField_wordOf] at word
  | reserved7 => exact .reserved7 (opField_wordOf ..)
  | reservedHigh op =>
    have word := Encodes.reservedHigh (w := wordOf op 0 false 0) (by rwa [opField_wordOf])
    rwa [opField_wordOf] at word

theorem decodeWord_encode {i : Instr} (h : i.wf) : decodeWord (encode i) = i := (encodes_encode h).decodeWord_eq

theorem decodeBytes_encodeBytes (i : Instr) : decodeBytes (encodeBytes i) = .ok (decodeWord (encode i), []) := by
  simp only [encodeBytes, decodeBytes, highByte_append_lowByte]

/-- Settles O1: the canonical word of a well-formed command is one of its words, and its bytes put the word together again. -/
theorem decodeUndoesEncode : Obligations.DecodeUndoesEncode := fun i hi =>
  ⟨decodeWord_encode hi, by rw [decodeBytes_encodeBytes, decodeWord_encode hi]⟩

/-- Settles O5: ten closed words, each run through the decoder. -/
theorem writtenOutWordsDecode : Obligations.WrittenOutWordsDecode := by
  unfold Obligations.WrittenOutWordsDecode
  decide

/-! ## Ignored fields (R77) -/

theorem usedMask_of_eight_le {op : BitVec 4} (h : 8 ≤ op.toNat) : usedMask op = 0xF000 := by
  obtain ⟨m, hm⟩ := Nat.exists_eq_add_of_le' h
  simp only [usedMask, hm]

/-- The used fields of a word, by opcode. -/
theorem wordOf_and_usedMask (op : BitVec 4) (nm1 : BitVec 3) (dir : Bool) (val : Byte) :
    wordOf op nm1 dir val &&& usedMask op =
      wordOf op (if op = 2 ∨ op = 3 then nm1 else 0#3) (op == 4 && dir) (if op = 2 ∨ op = 5 ∨ op = 6 then val else 0#8) := by
  have mask : usedMask op =
      wordOf (BitVec.allOnes 4) (if op = 2 ∨ op = 3 then BitVec.allOnes 3 else 0#3) (op == 4)
        (if op = 2 ∨ op = 5 ∨ op = 6 then BitVec.allOnes 8 else 0#8) := by
    revert op
    decide
  rw [mask, wordOf_and_wordOf, BitVec.and_allOnes, Bool.and_comm]
  congr 1 <;> split_ifs <;> simp only [BitVec.and_allOnes, BitVec.and_zero]

/-- The canonical word of a command is any of its words with the unused fields cleared. -/
theorem Encodes.encode_eq {w : CmdWord} {i : Instr} (h : Encodes w i) : encode i = w &&& usedMask (opField w) := by
  conv_rhs => rw [← wordOf_fields w, opField_wordOf]
  cases h with
  | reservedHigh hop => rw [usedMask_of_eight_le hop, Laws.RowMatch.wordOf_and_opMask, encode]
  | _ hop => simp [wordOf_and_usedMask, hop, encode, nm1Of_countOf]

/-- Settles O2: the masked word is the canonical word of the command, and that decodes to the command again. -/
theorem ignoredFieldsHaveNoEffect : Obligations.IgnoredFieldsHaveNoEffect := by
  refine ⟨fun w => ?_, by decide⟩
  have wf := Machine.wf_decodeWord w
  have canonical := (encodes_decodeWord w).encode_eq
  exact ⟨wf, by rw [← canonical, decodeWord_encode wf], canonical⟩

/-! ## Rows of the opcode table (R75) -/

theorem Encodes.rowIndex_eq {w : CmdWord} {i : Instr} (h : Encodes w i) : rowIndex i = min (opField w).toNat 8 := by
  cases h with
  | reservedHigh hop => exact (Nat.min_eq_right hop).symm
  | _ hop => simp [rowIndex, hop]

/-- A row tests no field but OP. -/
theorem matches_eq_of_mem {row : OpcodeRow} (h : row ∈ opcodeRows) (w : CmdWord) :
    row.matches w = row.matches (wordOf (opField w) 0 false 0) := by
  have masks : ∀ row ∈ opcodeRows, row.mask = 0xF000 &&& row.mask := by decide
  conv_lhs => rw [← wordOf_fields w]
  rw [OpcodeRow.matches, OpcodeRow.matches, masks row h, ← BitVec.and_assoc, ← BitVec.and_assoc,
    Laws.RowMatch.wordOf_and_opMask, Laws.RowMatch.wordOf_and_opMask]

/-- The row an opcode meets, for each of the 16 opcodes and 9 rows. -/
theorem matches_opcode : ∀ op : BitVec 4, ∀ k : Fin opcodeRows.length,
    opcodeRows[k].matches (wordOf op 0 false 0) = (k.val == min op.toNat 8) := by
  decide

/-- Settles O3: a row and the decoder look at OP only, so the 16 opcodes are all there is to compare. -/
theorem everyWordLiesInOneRow : Obligations.EveryWordLiesInOneRow := by
  intro w k row hk
  obtain ⟨hlt, rfl⟩ := List.getElem?_eq_some_iff.1 hk
  rw [(encodes_decodeWord w).rowIndex_eq, matches_eq_of_mem (List.getElem_mem hlt)]
  exact matches_opcode (opField w) ⟨k, hlt⟩

end Sys2Proof
end

section
/-! PROOFS. ISSUE, WAITIDLE and CMD on the clock (R80, R100, R102, R181). -/

namespace Sys2Proof.Machine

/-! ## The two edges of ISSUE -/

/-- The first edge, on an idle block, stores the low byte. -/
theorem edge_of_cmdlPins {s : State} {w : CmdWord} {low : Bool} (hb : s.busy = false)
    (hp : s.nextPins = ⟨false, true, 0, lowByte w, low⟩) : (edge s).busy = false ∧ (edge s).cmdl = lowByte w := by
  rw [edge_cmdlWrite (by rw [hp]) (by rw [hp]) (by rw [hp]), hb, hp]
  exact ⟨hb, rfl⟩

/-- The second edge puts the word together again. -/
theorem step_of_cmdhPins {s : State} {w : CmdWord} {low : Bool} (hb : s.busy = false) (hl : s.cmdl = lowByte w)
    (hp : s.nextPins = ⟨false, true, 1, highByte w, low⟩) : step s = exec (decodeWord w) s.clockIn := by
  obtain ⟨runs, -, -⟩ := stepRunsThePresentedCommand s (by rw [hp]) (by rw [hp]) (by rw [hp])
  rw [runs hb, hp, hl, highByte_append_lowByte]

/-- CMDL, ILL and CERR after the second edge. -/
theorem edge_of_cmdhPins {s : State} {w : CmdWord} {low : Bool} (hb : s.busy = false) (hl : s.cmdl = lowByte w)
    (hp : s.nextPins = ⟨false, true, 1, highByte w, low⟩) :
    (edge s).cmdl = lowByte w ∧ (edge s).ill = (decodeWord w).isReserved ∧ (edge s).cerr = false := by
  have e : edge s = ownEffect (decodeWord w) (s.clockIn.acceptFlags (decodeWord w).isReserved) :=
    Host.Outcome.next.inj (by rw [← step_eq, step_of_cmdhPins hb hl hp, exec_of_idle _ (s := s.clockIn) hb])
  obtain ⟨-, cmdl, -, -, ill, cerr, -⟩ := ownEffect_frame (decodeWord w) (s.clockIn.acceptFlags (decodeWord w).isReserved)
  rw [e]
  exact ⟨cmdl.trans hl, ill, cerr⟩

/-- Settles O33: with the low byte in CMDL, the word written at the second edge is the whole one. -/
theorem issuePresentsTheCommand : Obligations.IssuePresentsTheCommand := by
  intro s w low0 low1 rest hb hp
  obtain ⟨idle, stored⟩ := edge_of_cmdlPins (w := w) (low := low0) hb (by rw [State.nextPins, hp]; rfl)
  obtain ⟨-, -, pins, -⟩ := edge_ports s
  have second : (edge s).nextPins = ⟨false, true, 1, highByte w, low1⟩ := by
    rw [State.nextPins, pins, hp]
    rfl
  exact ⟨edge s, step_eq s, stored, idle, step_of_cmdhPins idle stored second⟩

/-! ## A host that acts on what it reads -/

/-- `s` after the first edge of ISSUE. -/
def cmdlWritten (low : Nat → Bool) (w : CmdWord) (s : State) : State :=
  edge (s.withPins ⟨false, true, 0, lowByte w, low s.edges⟩)

/-- `s` after the second edge of ISSUE, when the first has left `s`. -/
def cmdhWritten (low : Nat → Bool) (w : CmdWord) (s : State) : State :=
  edge (s.withPins ⟨false, true, 1, highByte w, low s.edges⟩)

/-- `s` after the edge of a poll. -/
def polled (low : Nat → Bool) (s : State) : State := edge (s.withPins (pollPins (low s.edges)))

theorem issue_eq (low : Nat → Bool) (w : CmdWord) (s : State) :
    issue low w s = some (cmdhWritten low w (cmdlWritten low w s)) := by
  simp only [issue, step_eq, cmdhWritten, cmdlWritten]

theorem waitIdle_succ (low : Nat → Bool) (fuel : Nat) (s : State) :
    waitIdle low (fuel + 1) s = if s.busy then waitIdle low fuel (polled low s) else some s := by
  rw [waitIdle, hostRead_status, bitOf_status_zero, step_eq, polled]

/-- Whatever a host writes at an edge, the parameters stay, and sequencer and line stay in agreement. -/
theorem edge_withPins_ok (p : Pins) {s : State} (hc : s.cfg.wf) (hs : s.seqOk) :
    (edge (s.withPins p)).cfg = s.cfg ∧ (edge (s.withPins p)).seqOk :=
  ⟨(edge_ports (s.withPins p)).1, edge_seqOk (s := s.withPins p) hc hs⟩

/-- ISSUE on an idle block leaves the word's command accepted. -/
theorem issue_of_idle (low : Nat → Bool) (w : CmdWord) {s : State} (hc : s.cfg.wf) (hb : s.busy = false) (hs : s.seqOk) :
    ∃ u, issue low w s = some u ∧ u.cfg.wf ∧ u.seqOk ∧ u.cmdl = lowByte w ∧ u.ill = (decodeWord w).isReserved ∧
      u.cerr = false := by
  obtain ⟨idle, stored⟩ : (cmdlWritten low w s).busy = false ∧ (cmdlWritten low w s).cmdl = lowByte w :=
    edge_of_cmdlPins hb rfl
  obtain ⟨cfg, ok⟩ : (cmdlWritten low w s).cfg = s.cfg ∧ (cmdlWritten low w s).seqOk := edge_withPins_ok _ hc hs
  obtain ⟨cfg', ok'⟩ := edge_withPins_ok ⟨false, true, 1, highByte w, low (cmdlWritten low w s).edges⟩ (cfg ▸ hc) ok
  refine ⟨_, issue_eq low w s, ?_, ok', edge_of_cmdhPins idle stored rfl⟩
  rwa [cmdhWritten, cfg', cfg]

/-! ## How long a command can run -/

/-- The slots or attempts a command can make. -/
def Timed.slots (c : Config) : Timed → Nat
  | .busReset => c.resetRetries + 1
  | .writeBits _ n => n
  | .readBits n => n
  | .triplet _ => 3

/-- The clock cycles a command has left at the most. -/
def Run.remaining (c : Config) (r : Run) : Nat :=
  r.cur.slots c * r.cur.slotLength c * c.clkPerUs - (r.t * c.clkPerUs + r.sub)

theorem Run.indexOk.lt_slots {c : Config} {r : Run} (h : r.indexOk c) : r.k < r.cur.slots c := by
  obtain ⟨cur, t, sub, k, sh, a1, a2, p⟩ := r
  cases cur with
  | busReset | triplet d => exact Nat.lt_succ_of_le h
  | writeBits v n | readBits n => exact h

theorem remaining_pos {c : Config} {r : Run} (h : r.ok c) : 0 < r.remaining c := by
  obtain ⟨hsub, -, hhi, hsound⟩ := (Run.ok_iff c r).1 h
  have slots : (r.k + 1) * r.cur.slotLength c ≤ r.cur.slots c * r.cur.slotLength c :=
    Nat.mul_le_mul_right _ hsound.index.lt_slots
  have time : (r.t + 1) * c.clkPerUs ≤ r.cur.slots c * r.cur.slotLength c * c.clkPerUs :=
    Nat.mul_le_mul_right _ (Nat.lt_of_lt_of_le hhi slots)
  rw [Nat.add_one_mul] at time
  unfold Run.remaining
  omega

/-- A command that goes on after a boundary is the same one at the same time. -/
theorem boundary_running {smp : Bool} {r r' : Run} {s : State} (h : (boundary smp r s).seq = .run r') :
    r'.cur = r.cur ∧ r'.t = r.t ∧ r'.sub = r.sub := by
  obtain ⟨q, crc, hs, he⟩ := boundary_cases smp r s
  obtain ⟨hcur, ht, hsub, -⟩ := hs.frame
  obtain ⟨-, e⟩ | ⟨-, -, e⟩ | ⟨-, -, e⟩ := he <;> rw [e] at h <;> cases h <;> exact ⟨hcur, ht, hsub⟩

/-- An edge without reset uses up one cycle of a command that goes on after it. -/
theorem edge_remaining_lt {s : State} {r r' : Run} (hs : s.seq = .run r) (hr : s.nextPins.rst = false) (hok : r.ok s.cfg)
    (h : (edge s).seq = .run r') : r'.remaining s.cfg < r.remaining s.cfg := by
  have pos := remaining_pos hok
  by_cases hc : r.sub + 1 < s.cfg.clkPerUs
  · obtain rfl : { r with sub := r.sub + 1 } = r' := Seq.run.inj ((edge_insideMicrosecond hs hr hc).seq.symm.trans h)
    simp only [Run.remaining] at pos ⊢
    omega
  · obtain ⟨hcur, ht, hsub⟩ := boundary_running ((edge_atBoundary hs hr hc).seq.symm.trans h)
    simp only [Run.remaining, hcur, ht, hsub, Nat.add_one_mul] at pos ⊢
    omega

/-! ## WAITIDLE and CMD -/

theorem waitIdle_of_idle (low : Nat → Bool) (fuel : Nat) {s : State} (hs : s.seqOk) (h : s.seq = .idle) :
    ∃ t, waitIdle low (fuel + 1) s = some t ∧ t.seq = .idle ∧ t.owOe = false ∧ t.cmdl = s.cmdl ∧ t.ill = s.ill ∧
      t.cerr = s.cerr := by
  refine ⟨s, ?_, h, ?_, rfl, rfl, rfl⟩
  · rw [waitIdle_succ, (busy_eq_false_iff s).2 h, if_neg Bool.false_ne_true]
  · simpa only [State.seqOk, h] using hs

/-- With a poll for every cycle the command has left, WAITIDLE comes back, and the polls leave CMDL, ILL and CERR. -/
theorem waitIdle_returns (low : Nat → Bool) {n : Nat} {s : State} (hc : s.cfg.wf) (hs : s.seqOk)
    (hn : ∀ r, s.seq = .run r → r.remaining s.cfg < n) :
    ∃ t, waitIdle low (n + 1) s = some t ∧ t.seq = .idle ∧ t.owOe = false ∧ t.cmdl = s.cmdl ∧ t.ill = s.ill ∧
      t.cerr = s.cerr := by
  induction n generalizing s with
  | zero =>
    cases hseq : s.seq with
    | idle => exact waitIdle_of_idle low 0 hs hseq
    | run r => exact absurd (hn r hseq) (Nat.not_lt_zero _)
  | succ n ih =>
    cases hseq : s.seq with
    | idle => exact waitIdle_of_idle low (n + 1) hs hseq
    | run r =>
      obtain ⟨cfg, ok⟩ : (polled low s).cfg = s.cfg ∧ (polled low s).seqOk := edge_withPins_ok _ hc hs
      obtain ⟨cmdl, ill, cerr⟩ := edge_quiet (s := s.withPins (pollPins (low s.edges))) rfl rfl
      have hok : r.ok s.cfg := by
        simp only [State.seqOk, hseq] at hs
        exact hs.1
      have fewer : ∀ r', (polled low s).seq = .run r' → r'.remaining (polled low s).cfg < n := fun r' h' => by
        rw [cfg]
        exact Nat.lt_of_lt_of_le (edge_remaining_lt (s := s.withPins _) hseq rfl hok h') (Nat.le_of_lt_succ (hn r hseq))
      obtain ⟨t, returned, idle, released, hl, hi, he⟩ := ih (cfg ▸ hc) ok fewer
      have busy : s.busy = true := (busy_eq_true_iff s).2 ⟨r, hseq⟩
      exact ⟨t, by rw [waitIdle_succ, if_pos busy, returned], idle, released, hl.trans cmdl, hi.trans ill, he.trans cerr⟩

/-- Settles O40: ISSUE leaves the command accepted, and WAITIDLE comes back since every poll uses up a cycle of it. -/
theorem cmdIssuesAndWaitsForCompletion : Obligations.CmdIssuesAndWaitsForCompletion := by
  intro i s low hi hb hc hl
  obtain ⟨u, issued, hcu, ok, cmdl, ill, cerr⟩ :=
    issue_of_idle low (encode i) hc hb (seqOk_of_idle ((busy_eq_false_iff s).1 hb) hl)
  obtain ⟨n, hn⟩ : ∃ n, ∀ r, u.seq = .run r → r.remaining u.cfg < n := by
    cases u.seq with
    | idle => exact ⟨0, fun r h => nomatch h⟩
    | run r => exact ⟨r.remaining u.cfg + 1, fun r' h => Seq.run.inj h ▸ Nat.lt_succ_self _⟩
  obtain ⟨t, returned, idle, released, cmdl', ill', cerr'⟩ := waitIdle_returns low hcu ok hn
  refine ⟨n + 1, t, ?_, idle, released, cmdl'.trans cmdl, cerr'.trans cerr, ?_⟩
  · rw [cmdOnClock, issued, Option.bind_some, returned]
  · rw [ill', ill, decodeWord_encode hi]

end Sys2Proof.Machine
end

section
/-! PROOFS. The clock refines the slot-level commands (R94, R95, R100 to R103, R110 to R114). -/

namespace Sys2Proof.Machine

/-- The block a slot-level command leaves: the sequencer, which that level does not look at, is idle and the line released. -/
def Wired.ended {σ : Type} (y : Wired σ) : State := { y.blk with seq := .idle, owOe := false }

/-- The microseconds from `t` on, with the samples `smp`, are those of the slot-level result `y`: busy up to the last of them, and
then with its results. -/
def MicrosecondsMatch (smp : Nat → Bool) (t : State) (y : Wired Nat) : Prop :=
  (microseconds smp (y.us - 1) t).busy = true ∧ SamePart (microseconds smp y.us t) y.ended

/-- What a timed command finds at its acceptance. -/
theorem atSlot_start (x : Timed) (s : State) : AtSlot (s.start x) (Run.start x) := ⟨rfl, rfl, (Nat.zero_mul _).symm⟩

/-! ## Each timed command from its acceptance on -/

section
variable {smp : Nat → Bool} {s : State} (hc : s.cfg.wf)
include hc

theorem busReset_match :
    MicrosecondsMatch smp ((s.acceptFlags false).start .busReset) (wholeBusReset (smpEnv s.cfg smp) ⟨s, 0, 0⟩) := by
  obtain ⟨-, busy, same⟩ := reset_slots smp s.cfg hc s.cfg.resetRetries 0 _ _ (Nat.zero_add _)
    (atSlot_start .busReset (s.acceptFlags false)) rfl rfl rfl
  simp only [Nat.zero_mul, Nat.zero_add, Nat.sub_zero] at busy same
  simp only [MicrosecondsMatch, wholeBusReset, Nat.zero_add]
  exact ⟨busy, same⟩

theorem writeBits_match {n : Nat} (hn : 1 ≤ n) (v : Byte) :
    MicrosecondsMatch smp ((s.acceptFlags false).start (.writeBits v n)) (wholeWriteBits (smpEnv s.cfg smp) v n ⟨s, 0, 0⟩) := by
  obtain ⟨busy, same⟩ := write_slots smp v n s.cfg hc n 0 _ _ (Nat.zero_add n) hn
    (atSlot_start (.writeBits v n) (s.acceptFlags false)) rfl rfl rfl
  simp only [Nat.zero_mul, Nat.zero_add] at busy same
  simp only [MicrosecondsMatch, wholeWriteBits, Nat.zero_add]
  exact ⟨busy, same⟩

theorem readBits_match {n : Nat} (hn : 1 ≤ n) :
    MicrosecondsMatch smp ((s.acceptFlags false).start (.readBits n)) (wholeReadBits (smpEnv s.cfg smp) n ⟨s, 0, 0⟩) := by
  obtain ⟨busy, same⟩ := read_slots smp n s.cfg hc n 0 _ _ (Nat.zero_add n) hn
    (atSlot_start (.readBits n) (s.acceptFlags false)) rfl rfl rfl
  simp only [Nat.zero_mul, Nat.zero_add] at busy same
  simp only [MicrosecondsMatch, wholeReadBits, Nat.zero_add]
  exact ⟨busy, same⟩

theorem triplet_match (d : Bool) :
    MicrosecondsMatch smp ((s.acceptFlags false).start (.triplet d)) (wholeTriplet (smpEnv s.cfg smp) d ⟨s, 0, 0⟩) := by
  obtain ⟨busy, same⟩ := triplet_slots smp d s.cfg hc _ (atSlot_start (.triplet d) (s.acceptFlags false)) rfl _ rfl
  cases hf : tripletFault ((smpEnv s.cfg smp).readSlot 0).1 ((smpEnv s.cfg smp).readSlot ((smpEnv s.cfg smp).readSlot 0).2).1 with
  | true =>
    simp only [MicrosecondsMatch, wholeTriplet, hf, if_true] at busy same ⊢
    exact ⟨busy, same⟩
  | false =>
    simp only [MicrosecondsMatch, wholeTriplet, hf, if_false, State.acceptFlags_bf, Bool.false_eq_true] at busy same ⊢
    exact ⟨busy, same⟩

end

/-! ## Acceptance and run -/

/-- A timed command that runs without reset leaves on the clock what its microseconds leave. -/
theorem MicrosecondsMatch.runEdges {x : Timed} {s : State} {y : Wired Nat} (hc : s.cfg.wf)
    (h : MicrosecondsMatch (s.start x).sampleAtUs (s.start x) y) (hr : noResetFor (y.us * s.cfg.clkPerUs) (s.start x)) :
    SamePart (runEdges (y.us * s.cfg.clkPerUs) (s.start x)) y.ended := by
  obtain ⟨busy, same⟩ := h
  obtain ⟨hclk, -⟩ := hc
  exact runEdges_command (s.start x) (Run.start x) y.us y.ended rfl rfl hclk busy same hr

/-- A command that takes no time is its acceptance, at the slot level too. -/
theorem wholeCommand_untimed {σ : Type} (env : BusEnv σ) {i : Instr} (h : i.isTimed = false) (y : Wired σ) :
    wholeCommand env i y = { y with blk := ownEffect i (y.blk.acceptFlags i.isReserved) } := by
  cases i with
  | busReset | writeBits _ _ | readBits _ | triplet _ => cases h
  | _ => rfl

/-- What the clock leaves of an accepted command, timed or not, is what the slot level leaves of it. -/
theorem runEdges_wholeCommand {i : Instr} {s t : State} {y : Wired Nat} (hi : i.wf) (hc : s.cfg.wf) (hs : s.seq = .idle)
    (hl : s.owOe = false) (ht : t = ownEffect i (s.acceptFlags i.isReserved)) (hy : y = wholeCommand (traceEnv t) i ⟨s, 0, 0⟩)
    (hr : noResetFor (y.us * s.cfg.clkPerUs) t) : SamePart (runEdges (y.us * s.cfg.clkPerUs) t) y.ended := by
  have untimed (h : i.isTimed = false) : SamePart (runEdges (y.us * s.cfg.clkPerUs) t) y.ended := by
    obtain ⟨seq, owOe⟩ := ownEffect_untimed h (s.acceptFlags i.isReserved)
    rw [hy, wholeCommand_untimed _ h, Nat.zero_mul, ht]
    exact ⟨rfl, rfl, rfl, rfl, rfl, rfl, seq.trans hs, owOe.trans hl⟩
  subst ht hy
  cases i with
  | busReset => exact (busReset_match hc).runEdges (s := s.acceptFlags false) hc hr
  | writeBits v n => exact (writeBits_match hc hi.1 v).runEdges (s := s.acceptFlags false) hc hr
  | readBits n => exact (readBits_match hc hi.1).runEdges (s := s.acceptFlags false) hc hr
  | triplet d => exact (triplet_match hc d).runEdges (s := s.acceptFlags false) hc hr
  | _ => exact untimed rfl

/-- Settles O38: the slots of each timed command, one after another on the clock, are the loop of its pseudocode. -/
theorem clockRefinesTheWholeCommand : Obligations.ClockRefinesTheWholeCommand := by
  rintro i s hi ⟨hc, -, hok⟩ hb
  have hs := (busy_eq_false_iff s).1 hb
  have hl : s.owOe = false := by simpa only [State.seqOk, hs] using hok
  refine ⟨_, exec_of_idle i hb, fun y hy hr => ⟨_, run_eq_runEdges _ _, ?_⟩⟩
  obtain ⟨-, pd, bf, ill, data, crc, seq, owOe⟩ := runEdges_wholeCommand hi hc hs hl rfl hy hr
  exact ⟨seq, owOe, pd, bf, ill, data, crc⟩

end Sys2Proof.Machine
end

section
/-! PROOFS. The CRC8 engine is linear and loses nothing (R90 to R93, R96; L1-7). -/

namespace Sys2Proof.Machine

/-! ## Folding wire bits (R92) -/

/-- A bit folded in as the lowest bit of the byte cancels it, and the shift then drops it. -/
theorem crc8FoldBit_bitOf_zero (d : Byte) : crc8FoldBit d (bitOf d 0) = d >>> 1 := by
  simp [crc8FoldBit, bitOf]

theorem map_bitOf_succ (d : Byte) (m : Nat) :
    (List.range (m + 1)).map (bitOf d) = bitOf d 0 :: (List.range m).map (bitOf (d >>> 1)) := by
  have shift : bitOf d ∘ Nat.succ = bitOf (d >>> 1) := by
    funext i
    simp [bitOf, Nat.add_comm]
  rw [List.range_succ_eq_map, List.map_cons, List.map_map, shift]

/-- Folding `m` bits of `d` leaves out of the update those not yet folded. -/
theorem crc8FoldBits_range (m : Nat) (c d : Byte) :
    crc8FoldBits c ((List.range m).map (bitOf d)) = crcRepeat m (c ^^^ d) ^^^ d >>> m := by
  induction m generalizing c d with
  | zero => simp [crc8FoldBits, crcRepeat]
  | succ m ih =>
    have one : crc8FoldBit c (bitOf d 0) ^^^ d >>> 1 = crcShift (c ^^^ d) := by
      rw [← crc8FoldBit_bitOf_zero d, crc8FoldBit_eq, crc8FoldBit_eq, ← crcShift_xor]
      congr 1
      rw [BitVec.xor_assoc, BitVec.xor_comm d, ← BitVec.xor_assoc (ite ..), BitVec.xor_self, BitVec.zero_xor]
    calc crc8FoldBits c ((List.range (m + 1)).map (bitOf d))
      _ = crc8FoldBits (crc8FoldBit c (bitOf d 0)) ((List.range m).map (bitOf (d >>> 1))) := by
        rw [map_bitOf_succ]; rfl
      _ = crcRepeat m (crcShift (c ^^^ d)) ^^^ d >>> 1 >>> m := by rw [ih, one]
      _ = crcRepeat (m + 1) (c ^^^ d) ^^^ d >>> (m + 1) := by
        rw [← BitVec.shiftRight_add, Nat.add_comm 1 m]; rfl

/-- Settles O43: after eight folds no bit of the byte is left out. -/
theorem eightFoldsAreOneUpdate : Obligations.EightFoldsAreOneUpdate := by
  intro c d
  rw [crc8FoldBits_range, BitVec.ushiftRight_eq_zero (Nat.le_refl 8), BitVec.xor_zero]
  rfl

/-! ## Nothing is lost in an update -/

/-- The feedback sets bit 7, which a plain shift clears, so only 0 is shifted to 0. -/
theorem crcShift_eq_zero {x : Byte} (h : crcShift x = 0) : x = 0 := by
  have top : (crcShift x).getLsbD 7 = x.getLsbD 0 := by
    unfold crcShift
    cases h0 : x.getLsbD 0 <;> simp
  have low : x.getLsbD 0 = false := by rw [← top, h]; rfl
  have shifted : x >>> 1 = 0 := by rwa [crcShift, low, if_neg Bool.false_ne_true] at h
  apply BitVec.eq_of_getLsbD_eq
  intro k _
  cases k with
  | zero => exact low
  | succ k =>
    have := congrArg (fun z => BitVec.getLsbD z k) shifted
    simpa [Nat.add_comm 1 k] using this

theorem crcShift_injective : Function.Injective crcShift := fun x y h =>
  BitVec.xor_eq_zero_iff.1 (crcShift_eq_zero (by rw [crcShift_xor, h, BitVec.xor_self]; rfl))

theorem crcRepeat_injective (m : Nat) : Function.Injective (crcRepeat m) := by
  induction m with
  | zero => exact Function.injective_id
  | succ m ih => exact ih.comp crcShift_injective

theorem crcRepeat_zero (m : Nat) : crcRepeat m 0 = 0 := by
  induction m with
  | zero => rfl
  | succ m ih => exact ih

theorem crc8Update_self (x : Byte) : crc8Update x x = 0 := by
  rw [crc8Update, BitVec.xor_self]
  exact crcRepeat_zero 8

theorem crc8Update_left_inj {c c' d : Byte} : crc8Update c d = crc8Update c' d ↔ c = c' := by
  rw [crc8Update, crc8Update, (crcRepeat_injective 8).eq_iff, BitVec.xor_left_inj]

theorem crc8Update_right_inj {c d d' : Byte} : crc8Update c d = crc8Update c d' ↔ d = d' := by
  rw [crc8Update, crc8Update, (crcRepeat_injective 8).eq_iff, BitVec.xor_right_inj]

theorem crc8Update_eq_zero_iff {c d : Byte} : crc8Update c d = 0 ↔ c = d := by
  rw [← crc8Update_self d, crc8Update_left_inj]

theorem foldl_crc8Update_injective (bytes : List Byte) : Function.Injective (fun c => bytes.foldl crc8Update c) := by
  induction bytes with
  | nil => exact Function.injective_id
  | cons d bytes ih => exact fun c c' h => crc8Update_left_inj.1 (ih h)

/-! ## Validation (R93, R96) -/

theorem crc8Validate_append_singleton (payload : List Byte) (x : Byte) :
    crc8Validate (payload ++ [x]) = true ↔ crc8Of payload = x := by
  rw [crc8Validate, beq_iff_eq, crc8Of, List.foldl_append, List.foldl_cons, List.foldl_nil, crc8Update_eq_zero_iff]
  rfl

/-- Eight bytes are the payload and the byte after it. -/
theorem take_seven_append {rom : List Byte} (h : rom.length = 8) : rom.take 7 ++ [rom.getD 7 0] = rom := by
  rw [List.getD_eq_getElem _ _ (by omega), List.take_concat_get', List.take_of_length_le (by omega)]

theorem romWellFormed_iff (rom : List Byte) :
    romWellFormed rom = true ↔ rom.length = 8 ∧ crc8Of (rom.take 7) = rom.getD 7 0 := by
  rw [romWellFormed, Bool.and_eq_true, beq_iff_eq, beq_iff_eq]

theorem romWellFormed_eq_crc8Validate {rom : List Byte} (h : rom.length = 8) : romWellFormed rom = crc8Validate rom := by
  have trailing := crc8Validate_append_singleton (rom.take 7) (rom.getD 7 0)
  rw [take_seven_append h] at trailing
  rw [Bool.eq_iff_iff, romWellFormed_iff, trailing, and_iff_right h]

/-- Settles O44: folding a byte into CRC gives 0 exactly when CRC was that byte. -/
theorem wellFormedCodesAreThoseThatValidate : Obligations.WellFormedCodesAreThoseThatValidate :=
  ⟨fun _ h => romWellFormed_eq_crc8Validate h, fun payload x => by rw [crc8Validate_append_singleton, eq_comm]⟩

/-- Replacing one byte by another one changes the CRC. -/
theorem set_eq_of_foldl_crc8Update_eq {bytes : List Byte} {c v : Byte} {i : Nat}
    (h : (bytes.set i v).foldl crc8Update c = bytes.foldl crc8Update c) : bytes.set i v = bytes := by
  induction bytes generalizing c i with
  | nil => rfl
  | cons d bytes ih =>
    cases i with
    | zero =>
      rw [List.set_cons_zero, crc8Update_right_inj.1 (foldl_crc8Update_injective bytes h)]
    | succ i => rw [List.set_cons_succ, ih h]

/-- Settles O45: the flipped code differs in one byte, so its CRC is not the 0 of the well-formed one. -/
theorem singleBitFlipsFailValidation : Obligations.SingleBitFlipsFailValidation := by
  intro rom p hrom hp
  obtain ⟨len, -⟩ := (romWellFormed_iff rom).1 hrom
  have valid : crc8Of rom = 0 := by
    rw [romWellFormed_eq_crc8Validate len] at hrom
    exact beq_iff_eq.1 hrom
  by_contra hv
  have flipped : crc8Of (setCodeBit rom p (!codeBit rom p)) = 0 := beq_iff_eq.1 (Bool.eq_true_of_not_eq_false hv)
  have same : setCodeBit rom p (!codeBit rom p) = rom := set_eq_of_foldl_crc8Update_eq (flipped.trans valid.symm)
  have bit := codeBit_setCodeBit rom p (!codeBit rom p) p (by omega)
  rw [same, if_pos rfl] at bit
  exact absurd bit.symm (Bool.not_ne_self _)

end Sys2Proof.Machine
end

section
/-! PROOFS. CRC_LOAD and CRC_UPDATE at their accepting edge (R94, R95). -/

namespace Sys2Proof.Machine

theorem exec_of_busy (i : Instr) {s : State} (h : s.busy = true) : exec i s = .next { s with cerr := true } := by
  rw [exec_eq_accepted, accepted_of_busy h]
  rfl

/-- VAL is the low byte of the word (R74). -/
theorem wordOf_eq_or_val (op : BitVec 4) (nm1 : BitVec 3) (dir : Bool) (val : Byte) :
    wordOf op nm1 dir val = wordOf op nm1 dir 0 ||| val.setWidth 16 := by
  apply BitVec.eq_of_getLsbD_eq
  intro k hk
  rw [BitVec.getLsbD_or, getLsbD_wordOf, getLsbD_wordOf, BitVec.getLsbD_setWidth]
  by_cases h8 : k < 8
  · simp [h8, hk]
  · simp [h8, BitVec.getLsbD_of_ge val k (Nat.not_lt.1 h8)]

theorem encode_crcLoad (v : Byte) : encode (.crcLoad v) = 0x5000 ||| v.setWidth 16 := wordOf_eq_or_val 0x5 0 false v

theorem encode_crcUpdate (v : Byte) : encode (.crcUpdate v) = 0x6000 ||| v.setWidth 16 := wordOf_eq_or_val 0x6 0 false v

/-- Settles O7: acceptance and then the command's own effect, which writes CRC only. -/
theorem crcLoadCompletes : Obligations.CrcLoadCompletes :=
  ⟨fun v => ⟨encode_crcLoad v, by rw [← encode_crcLoad, decodeWord_encode trivial]⟩,
    fun v _ hb => ⟨_, exec_of_idle (.crcLoad v) hb, rfl, hb⟩, fun v _ hb => exec_of_busy (.crcLoad v) hb, rfl⟩

/-- Settles O8: acceptance and then the command's own effect, which writes CRC only; the corner cases are the engine's. -/
theorem crcUpdateCompletes : Obligations.CrcUpdateCompletes :=
  ⟨fun v => ⟨encode_crcUpdate v, by rw [← encode_crcUpdate, decodeWord_encode trivial]⟩,
    fun v _ hb => ⟨_, exec_of_idle (.crcUpdate v) hb, rfl, hb⟩, fun v _ hb => exec_of_busy (.crcUpdate v) hb,
    crc8Update_self, crc8Update_self 0, by decide, by decide⟩

end Sys2Proof.Machine
end

section
/-! PROOFS. NOP, and the start of a timed command, at their accepting edge (R100, R101, R110). -/

namespace Sys2Proof.Machine

theorem bitOf_status_one (s : State) : bitOf s.status 1 = s.pd := by
  rw [bitOf, status_eq_concat, BitVec.getLsbD_concat_succ, BitVec.getLsbD_concat_zero]

/-- STATUS of an idle block with BF, ILL and CERR clear shows PD alone. -/
theorem status_of_idle_clean {s : State} (hb : s.busy = false) (hf : s.bf = false) (hi : s.ill = false) (hc : s.cerr = false) :
    s.status = if s.pd then 0x02 else 0x00 := by
  rw [status_eq_concat, hb, hf, hi, hc]
  cases s.pd <;> rfl

/-- Settles O6: NOP is acceptance alone, which leaves of the flags PD only. -/
theorem nopCompletes : Obligations.NopCompletes := by
  refine ⟨by decide, fun w hw => (Encodes.nop hw).decodeWord_eq, fun s hb => ?_, fun s hb => exec_of_busy .nop hb⟩
  refine ⟨s.acceptFlags false, exec_of_idle .nop hb, rfl, hb, fun hs => ?_⟩
  have present : s.pd = true := by rw [← bitOf_status_one, hs]; rfl
  rw [status_of_idle_clean (s := s.acceptFlags false) hb rfl rfl rfl, State.acceptFlags_pd, if_pos present]

/-- Every slot and every attempt opens with the line driven low. -/
theorem lowTime_pos {c : Config} (h : c.wf) (r : Run) : 0 < r.lowTime c := by
  obtain ⟨-, -, -, -, rstl, w1l, w0l, rl⟩ := h
  have write (b : Bool) : 0 < writeLow c b := by cases b <;> assumption
  unfold Run.lowTime
  split
  · exact rstl
  · exact write _
  · exact rl
  · split
    · exact rl
    · exact write _

theorem drive_start {c : Config} (h : c.wf) (x : Timed) : (Run.start x).drive c = true := by
  have begins : (Run.start x).slotTime c = 0 := Nat.zero_sub _
  rw [Run.drive, begins, decide_eq_true (lowTime_pos h _)]

/-- A timed command on an idle block is accepted and starts. -/
theorem exec_timed {i : Instr} {x : Timed} {s : State} (hb : s.busy = false) (hc : s.cfg.wf) (hi : i.isReserved = false)
    (hx : ∀ a, ownEffect i a = a.start x) :
    exec i s = .next { s with cerr := false, bf := false, ill := false, seq := .run (Run.start x), owOe := true } := by
  rw [exec_of_idle i hb, hx, hi, State.start, State.resume, State.acceptFlags_cfg, drive_start hc]
  rfl

/-- Settles O10: each of the four commands starts as its own effect, in a slot that opens low. -/
theorem timedCommandsStart : Obligations.TimedCommandsStart := by
  intro s hb hc i x hix
  have started : exec i s = .next { s with cerr := false, bf := false, ill := false, seq := .run (Run.start x), owOe := true } := by
    obtain ⟨rfl, rfl⟩ | ⟨v, n, rfl, rfl⟩ | ⟨n, rfl, rfl⟩ | ⟨d, rfl, rfl⟩ := hix
    all_goals exact exec_timed hb hc rfl fun _ => rfl
  refine ⟨_, started, rfl, rfl, rfl, ?_⟩
  rw [hostRead_status, bitOf_status_zero]
  rfl

end Sys2Proof.Machine
end

section
/-! PROOFS. What has no influence on a running command: the host, and the line between sample instants (R103, R109, R129). -/

namespace Sys2Proof.Machine

/-! ## The sample (R109) -/

theorem owIn_congr {s s' : State} (hl : s.owOe = s'.owOe) (hd : s.nextPins.devLow = s'.nextPins.devLow) : s.owIn = s'.owIn := by
  rw [State.owIn, State.owIn, hl, hd]

theorem sampleNow_congr {s s' : State} (hcfg : s.cfg = s'.cfg) (hsync : s.sync = s'.sync) (hin : s.owIn = s'.owIn) :
    s.sampleNow = s'.sampleNow := by
  rw [State.sampleNow, State.sampleNow, hcfg, hsync, hin]

/-- A level moves one place down the synchronizer at each edge. -/
theorem getElem?_owIn_cons_sync (s : State) {k : Nat} (hk : k ≤ s.cfg.syncStages) :
    ((runEdges k s).owIn :: (runEdges k s).sync)[k]? = some s.owIn := by
  induction k with
  | zero => rfl
  | succ k ih =>
    obtain ⟨-, hsync, -, -⟩ := edge_ports (runEdges k s)
    rw [runEdges_succ, List.getElem?_cons_succ, hsync, List.getElem?_take_of_lt (by rw [cfg_runEdges]; omega), ih (by omega)]

/-- Settles O32: the last place of the synchronizer is reached after SYNC_STAGES edges. -/
theorem sampleIsTheLineSyncStagesBefore : Obligations.SampleIsTheLineSyncStagesBefore := by
  intro s u _ hu
  rw [run_eq_runEdges] at hu
  obtain rfl := Host.Outcome.next.inj hu
  rw [State.sampleNow, cfg_runEdges, List.getD_eq_getElem?_getD, getElem?_owIn_cons_sync s (Nat.le_refl _), Option.getD_some]

/-! ## Between sample instants (R129) -/

/-- A boundary at which no sample is due does not look at the line. -/
theorem boundary_of_no_sample {r : Run} {s : State} (h : sampleOffset s.cfg r ≠ some (r.slotTime s.cfg)) (a b : Bool) :
    boundary a r s = boundary b r s := by
  rw [boundary_eq, boundary_eq b, if_neg h, if_neg h]

/-- Settles O31: inside a microsecond only the prescaler counts, and at a boundary the sample is used at its instant only. -/
theorem lineMattersOnlyAtSampleInstants : Obligations.LineMattersOnlyAtSampleInstants := by
  intro s r a b hs h
  rw [tick_of_run a hs, tick_of_run b hs, tickRun, tickRun]
  by_cases hc : r.sub + 1 < s.cfg.clkPerUs
  · rw [if_pos hc, if_pos hc]
  · rw [if_neg hc, if_neg hc]
    refine boundary_of_no_sample (fun hit => ?_) a b
    have due := h.resolve_left hc
    obtain ⟨cur, t, sub, k, sh, a1, a2, p⟩ := r
    cases cur with
    | busReset => exact beq_eq_false_iff_ne.1 due (Option.some.inj hit).symm
    | writeBits v n => cases hit
    | readBits n => exact beq_eq_false_iff_ne.1 due (Option.some.inj hit).symm
    | triplet d =>
      by_cases hk : k < 2
      · simp only [sampleOffset, if_pos hk] at hit
        exact beq_eq_false_iff_ne.1 (due.resolve_right (Nat.not_le.2 hk)) (Option.some.inj hit).symm
      · simp only [sampleOffset, if_neg hk] at hit
        cases hit

/-! ## The host (R103) -/

theorem SamePart.symm {s s' : State} (h : SamePart s s') : SamePart s' s :=
  ⟨h.cfg.symm, h.pd.symm, h.bf.symm, h.ill.symm, h.data.symm, h.crc.symm, h.seq.symm, h.owOe.symm⟩

theorem sameCommand_iff (s s' : State) : SameCommand s s' ↔ SamePart s s' ∧ s.sync = s'.sync :=
  ⟨fun ⟨cfg, pd, bf, ill, data, crc, seq, owOe, sync⟩ => ⟨⟨cfg, pd, bf, ill, data, crc, seq, owOe⟩, sync⟩,
    fun ⟨⟨cfg, pd, bf, ill, data, crc, seq, owOe⟩, sync⟩ => ⟨cfg, pd, bf, ill, data, crc, seq, owOe, sync⟩⟩

/-- An edge without reset on a busy block is a clock of the sequencer, whatever the host does. -/
theorem edge_samePart_tick {s : State} (hb : s.busy = true) (hr : s.nextPins.rst = false) :
    SamePart (edge s) (s.tick s.sampleNow) := by
  rw [edge_of_no_reset hr, if_pos hb]
  exact tick_samePart _ ((accessed_samePart s.nextPins (s := s.clockIn) hb).trans (clockIn_samePart s))

theorem edge_sameCommand {s s' : State} (h : SameCommand s s') (hb : s.busy = true) (hr : s.nextPins.rst = false)
    (hr' : s'.nextPins.rst = false) (hd : s.nextPins.devLow = s'.nextPins.devLow) : SameCommand (edge s) (edge s') := by
  obtain ⟨part, sync⟩ := (sameCommand_iff s s').1 h
  have hb' : s'.busy = true := by rwa [State.busy, ← part.seq]
  have hin := owIn_congr part.owOe hd
  have clocked : SamePart (s.tick s.sampleNow) (s'.tick s'.sampleNow) := by
    rw [sampleNow_congr part.cfg sync hin]
    exact tick_samePart _ part
  obtain ⟨-, hsync, -, -⟩ := edge_ports s
  obtain ⟨-, hsync', -, -⟩ := edge_ports s'
  exact (sameCommand_iff _ _).2
    ⟨((edge_samePart_tick hb hr).trans clocked).trans (edge_samePart_tick hb' hr').symm,
      by rw [hsync, hsync', hin, sync, part.cfg]⟩

/-- Settles O30: edge by edge, two runs of the same command on the same devices stay the same. -/
theorem hostCannotDisturbARunningCommand : Obligations.HostCannotDisturbARunningCommand := by
  intro n s s' h hrun
  induction n with
  | zero => exact h
  | succ n ih =>
    obtain ⟨hb, hr, hr', hd⟩ := hrun n (Nat.lt_succ_self n)
    have same := ih fun j hj => hrun j (Nat.lt_succ_of_lt hj)
    have pins (u : State) : (runEdges n u).nextPins = u.pinsAt n := by rw [nextPins_eq_pinsAt, pinsAt_runEdges, Nat.add_zero]
    rw [after_eq_runEdges] at hb
    rw [after_eq_runEdges, after_eq_runEdges] at same ⊢
    rw [runEdges_succ, runEdges_succ]
    exact edge_sameCommand same hb (by rwa [pins]) (by rwa [pins]) (by rwa [pins, pins])

end Sys2Proof.Machine
end

section
/-! PROOFS. The slot-level commands on lines of which something is known: one that always gives the same presence answer, an
empty one, and one with searching devices (R106, R111, R113, R114, R131, R132). -/

namespace Sys2Proof.Machine

/-! ## Attempts (R106, R111) -/

/-- Another attempt follows as long as retries are left and the answer is the one of RESET_RETRY_ON. -/
theorem again_eq (c : Config) (p : Bool) (k : Nat) :
    again c p k = (decide (k < c.resetRetries) && decide (c.retryOn = .presence ↔ p = true)) := by
  unfold again
  cases c.retryOn <;> cases p <;> rfl

/-- On a line that keeps to one presence answer the first attempt is the last one, or the retries are all used up. -/
theorem resetLoop_of_stable {σ : Type} {env : BusEnv σ} {c : Config} {high : Bool} {line : σ → Prop}
    (h : ∀ w, line w → (env.rst w).1 = high ∧ line (env.rst w).2) {f k : Nat} (hk : k + f = c.resetRetries) {w : σ}
    (hw : line w) :
    (resetLoop env c f k w).p = !high ∧
      (resetLoop env c f k w).k = if (c.retryOn = .presence ↔ high = false) then c.resetRetries else k := by
  obtain ⟨answer, kept⟩ := h w hw
  induction f generalizing k w with
  | zero =>
    simp only [resetLoop, answer, true_and]
    split <;> omega
  | succ f ih =>
    have more : k < c.resetRetries := by omega
    simp only [resetLoop, answer, again_eq, more, decide_true, Bool.true_and, decide_eq_true_eq, Bool.not_eq_true']
    by_cases ret : (c.retryOn = .presence ↔ high = false)
    · obtain ⟨answer', kept'⟩ := h _ kept
      have rest := ih (k := k + 1) (by omega) kept answer' kept'
      rw [if_pos ret] at rest
      rwa [if_pos ret, if_pos ret]
    · rw [if_neg ret, if_neg ret]
      exact ⟨rfl, rfl⟩

/-- Settles O48: the answer of every attempt is that of the line, and the polarity decides only whether the retries are used. -/
theorem stableLineHidesTheRetryPolarity : Obligations.StableLineHidesTheRetryPolarity := by
  intro σ env y high h
  obtain ⟨hp, hk⟩ := resetLoop_of_stable (w := y.bus) (line := fun _ => True) (fun w _ => ⟨h w, trivial⟩)
    (Nat.zero_add y.blk.cfg.resetRetries) trivial
  refine ⟨hp, ?_⟩
  simp only [wholeBusReset, hk]
  split <;> rfl

/-! ## Read slots (R113) -/

/-- The samples of `m` read slots one after another. -/
def slotSamples {σ : Type} (env : BusEnv σ) : (m : Nat) → σ → List Bool
  | 0, _ => []
  | m + 1, w => (env.readSlot w).1 :: slotSamples env m (env.readSlot w).2

/-- The loop of READ_BITS folds its samples into CRC exactly when it is told to. -/
theorem readLoop_crc {σ : Type} (env : BusEnv σ) (fold : Bool) (m i : Nat) (y : ReadResult σ) :
    (readLoop env fold m i y).crc = if fold then crc8FoldBits y.crc (slotSamples env m y.bus) else y.crc := by
  induction m generalizing i y with
  | zero => cases fold <;> rfl
  | succ m ih =>
    rw [readLoop, ih]
    cases fold <;> rfl

/-- The loop of READ_BITS from slot `i` on writes its samples from bit `i` on, and keeps the other bits. -/
theorem bitOf_readLoop_sh {σ : Type} (env : BusEnv σ) (fold : Bool) {m i : Nat} (h : i + m ≤ 8) (y : ReadResult σ) (j : Nat) :
    bitOf (readLoop env fold m i y).sh j =
      if i ≤ j then (slotSamples env m y.bus).getD (j - i) (bitOf y.sh j) else bitOf y.sh j := by
  induction m generalizing i y with
  | zero => simp [readLoop, slotSamples]
  | succ m ih =>
    rw [readLoop, ih (by omega), bitOf_setBit _ _ _ _ (by omega), slotSamples]
    obtain before | rfl | after := Nat.lt_trichotomy j i
    · simp only [if_neg (show ¬ i + 1 ≤ j by omega), if_neg (Nat.ne_of_lt before), if_neg (Nat.not_le.2 before)]
    · simp only [if_neg (Nat.not_succ_le_self j), if_true, Nat.le_refl, Nat.sub_self, List.getD_cons_zero]
    · simp only [if_pos (Nat.succ_le_of_lt after), if_neg (Nat.ne_of_gt after), if_pos (Nat.le_of_lt after),
        show j - i = j - (i + 1) + 1 by omega, List.getD_cons_succ]

theorem length_slotSamples {σ : Type} (env : BusEnv σ) (m : Nat) (w : σ) : (slotSamples env m w).length = m := by
  induction m generalizing w with
  | zero => rfl
  | succ m ih => rw [slotSamples, List.length_cons, ih]

/-- The bits of DATA are the samples of a READ_BITS. -/
theorem bitOf_wholeReadBits_data {σ : Type} (env : BusEnv σ) {n : Nat} (hn : n ≤ 8) (y : Wired σ) (j : Nat) :
    bitOf (wholeReadBits env n y).blk.data j = (slotSamples env n y.bus).getD j false := by
  refine (bitOf_readLoop_sh env (n == 8) (by omega) _ j).trans ?_
  rw [if_pos (Nat.zero_le j), Nat.sub_zero]
  exact congrArg (List.getD _ j) BitVec.getLsbD_zero

/-- READ_BITS with `n = 8` folds into CRC the byte it leaves in DATA (R92, R113). -/
theorem wholeReadBits_crc {σ : Type} (env : BusEnv σ) (n : Nat) (y : Wired σ) :
    (wholeReadBits env n y).blk.crc = if n = 8 then crc8Update y.blk.crc (wholeReadBits env n y).blk.data else y.blk.crc := by
  refine (readLoop_crc env (n == 8) n 0 _).trans ?_
  by_cases h8 : n = 8
  · subst h8
    have bits : slotSamples env 8 y.bus = (List.range 8).map (bitOf (wholeReadBits env 8 y).blk.data) := by
      refine List.ext_getElem (by simp [length_slotSamples]) fun j hj _ => ?_
      rw [List.getElem_map, List.getElem_range, bitOf_wholeReadBits_data env (Nat.le_refl 8), List.getD_eq_getElem]
    rw [if_pos rfl, ← eightFoldsAreOneUpdate, ← bits]
    rfl
  · rw [if_neg h8, if_neg (by simpa using h8)]

/-! ## The three slots of TRIPLET (R114) -/

theorem wholeTriplet_of_fault {σ : Type} {env : BusEnv σ} {y : Wired σ} (dir : Bool)
    (hf : tripletFault (env.readSlot y.bus).1 (env.readSlot (env.readSlot y.bus).2).1 = true) :
    wholeTriplet env dir y =
      ⟨{ y.blk.acceptFlags false with data := tripletData dir true true, bf := true },
        (env.readSlot (env.readSlot y.bus).2).2, y.us + 2 * y.blk.cfg.tSlot⟩ := by
  simp only [wholeTriplet, hf, if_true]

theorem wholeTriplet_of_answer {σ : Type} {env : BusEnv σ} {y : Wired σ} {a1 a2 : Bool} (dir : Bool)
    (h1 : (env.readSlot y.bus).1 = a1) (h2 : (env.readSlot (env.readSlot y.bus).2).1 = a2) (hf : tripletFault a1 a2 = false) :
    wholeTriplet env dir y =
      ⟨{ y.blk.acceptFlags false with data := tripletData (tripletDir dir a1 a2) a1 a2 },
        env.writeSlot (tripletDir dir a1 a2) (env.readSlot (env.readSlot y.bus).2).2, y.us + 3 * y.blk.cfg.tSlot⟩ := by
  simp only [wholeTriplet, h1, h2, hf, if_false, Bool.false_eq_true]

/-- The hint is the direction on 0b00 only; else it is the first bit. -/
theorem tripletDir_of_answer {a1 a2 : Bool} (h : tripletFault a1 a2 = false) (dir : Bool) :
    tripletDir dir a1 a2 = if a1 || a2 then a1 else dir := by
  revert h
  cases a1 <;> cases a2 <;> simp [tripletFault, tripletDir]

theorem tripletData_eq_ofNat (d a1 a2 : Bool) :
    tripletData d a1 a2 = BitVec.ofNat 8 (a1.toNat + 2 * a2.toNat + 4 * d.toNat) := by
  revert d a1 a2
  decide

theorem tripletData_of_fault (d : Bool) : tripletData d true true = 3 + 4 * BitVec.ofNat 8 d.toNat := by
  revert d
  decide

/-! ## An empty line (U18) -/

theorem slotSamples_empty (m : Nat) : slotSamples refEnv m [] = List.replicate m true := by
  induction m with
  | zero => rfl
  | succ m ih => rw [slotSamples, refEnv_readSlot, List.map_nil, ih]; rfl

theorem bitOf_two_pow_sub_one {n j : Nat} (hn : n ≤ 8) : bitOf (BitVec.ofNat 8 (2 ^ n - 1)) j = decide (j < n) := by
  rw [bitOf, BitVec.getLsbD_ofNat, Nat.testBit_two_pow_sub_one, Bool.and_eq_right_iff_imp]
  exact fun h => decide_eq_true (Nat.lt_of_lt_of_le (of_decide_eq_true h) hn)

theorem readBits_empty {y : Wired (List Device)} (hy : y.bus = []) {n : Nat} (hn : n ≤ 8) :
    (wholeReadBits refEnv n y).blk.data = BitVec.ofNat 8 (2 ^ n - 1) := by
  apply BitVec.eq_of_getLsbD_eq
  intro j _
  show bitOf _ j = bitOf _ j
  rw [bitOf_wholeReadBits_data refEnv hn, bitOf_two_pow_sub_one hn, hy, slotSamples_empty]
  by_cases hj : j < n <;> simp [hj]

/-- Settles O49: every sample of an empty line is 1. -/
theorem emptyLineReadsOnes : Obligations.EmptyLineReadsOnes := by
  intro y n dir hy hn
  have empty (w : List Device) (hw : w = []) : (refEnv.rst w).1 = true ∧ (refEnv.rst w).2 = [] := by
    subst hw
    exact ⟨rfl, rfl⟩
  obtain ⟨noPresence, -⟩ := resetLoop_of_stable empty (Nat.zero_add y.blk.cfg.resetRetries) hy
  have fault : tripletFault (refEnv.readSlot y.bus).1 (refEnv.readSlot (refEnv.readSlot y.bus).2).1 = true := by rw [hy]; rfl
  have triplet := wholeTriplet_of_fault dir fault
  refine ⟨noPresence, readBits_empty hy hn, ?_, ?_⟩
  · exact (congrArg (·.blk.data) triplet).trans (tripletData_of_fault dir)
  · exact congrArg (·.blk.bf) triplet

/-! ## Searching devices (R131, R132) -/

theorem slotLevel_iff (ds : List Device) : slotLevel ds = true ↔ ∀ x ∈ ds, x.drivesZero true = false := by
  simp [slotLevel]

theorem all_searching_iff (p : Nat) (ds : List Device) (f : Device → Bool) :
    (searching p ds).all f = true ↔ ∀ x ∈ ds, x.mode = .search p .idBit → f x = true := by
  simp [searching, ← imp_iff_not_or]

/-- A bit and its complement are both 1 on all devices of a set only where there is none. -/
theorem tripletFault_all (A : List Device) (f : Device → Bool) :
    tripletFault (A.all f) (A.all fun x => !f x) = A.isEmpty := by
  cases A with
  | nil => rfl
  | cons x A => cases h : f x <;> simp [tripletFault, h]

section
variable {x : Device} {p : Nat} (hx : x.mode = .search p .idBit ∨ x.mode = .idle)
include hx

theorem drivesZero_idBit : x.drivesZero true = false ↔ (x.mode = .search p .idBit → x.bit p = true) := by
  obtain h | h := hx <;> simp [Device.drivesZero, h]

theorem drivesZero_cmpBit : (x.onSlot true).drivesZero true = false ↔ (x.mode = .search p .idBit → (!x.bit p) = true) := by
  obtain ⟨rom, alarm, mode⟩ := x
  obtain rfl | rfl : mode = .search p .idBit ∨ mode = .idle := hx
  · show codeBit rom p = false ↔ (_ → (!codeBit rom p) = true)
    simp
  · simp [Device.drivesZero, Device.onSlot, Device.afterSlot]

/-- After its three slots a device on the branch that was written is at the next position, or selected after the last one. -/
theorem onSlot_dirBit (d : Bool) :
    ((x.onSlot true).onSlot true).onSlot d =
      if x.mode = .search p .idBit then
        { x with mode := if x.bit p = d then (if p < 63 then .search (p + 1) .idBit else .selected) else .idle }
      else x := by
  obtain ⟨rom, alarm, mode⟩ := x
  obtain rfl | rfl : mode = .search p .idBit ∨ mode = .idle := hx
  · rw [if_pos rfl]
    by_cases branch : codeBit rom p = d <;>
      simp [Device.onSlot, Device.afterSlot, Device.bit, branch, eq_comm (a := d)]
  · rfl

end

/-- Settles O50: the two read slots give the wired AND of the searching devices' bits and of the complements, and the write slot
keeps those on the branch of the direction. -/
theorem tripletSeesTheSearchingDevices : Obligations.TripletSeesTheSearchingDevices := by
  intro y p dir a1 a2 d _ hm h1 h2 hd
  have read1 : (refEnv.readSlot y.bus).1 = a1 := by
    rw [h1, refEnv_readSlot, Bool.eq_iff_iff, slotLevel_iff, all_searching_iff]
    exact forall₂_congr fun x hx => drivesZero_idBit (hm x hx)
  have read2 : (refEnv.readSlot (refEnv.readSlot y.bus).2).1 = a2 := by
    rw [h2, refEnv_readSlot, refEnv_readSlot, Bool.eq_iff_iff, slotLevel_iff, all_searching_iff, List.forall_mem_map]
    exact forall₂_congr fun x hx => drivesZero_cmpBit (hm x hx)
  have fault : tripletFault a1 a2 = (searching p y.bus).isEmpty := by rw [h1, h2, tripletFault_all]
  have whole : wholeCommand refEnv (.triplet dir) y = wholeTriplet refEnv dir y := rfl
  rw [whole]
  cases hA : (searching p y.bus).isEmpty with
  | true =>
    have faulty := fault.trans hA
    obtain ⟨rfl, rfl⟩ : a1 = true ∧ a2 = true := by simpa [tripletFault] using faulty
    rw [wholeTriplet_of_fault dir (by rwa [read1, read2])]
    exact ⟨bitOf_tripletData_0 .., bitOf_tripletData_1 .., rfl, fun h => nomatch h⟩
  | false =>
    have answered := fault.trans hA
    rw [wholeTriplet_of_answer dir read1 read2 answered, tripletDir_of_answer answered, ← hd]
    refine ⟨bitOf_tripletData_0 .., bitOf_tripletData_1 .., rfl, fun _ => ⟨bitOf_tripletData_2 .., ?_⟩⟩
    rw [refEnv_readSlot, refEnv_readSlot, refEnv_writeSlot, List.map_map, List.map_map]
    exact List.map_congr_left fun x hx => onSlot_dirBit (hm x hx) d

end Sys2Proof.Machine
end

section
/-! PROOFS. The four timed commands on the clock, from acceptance to completion: the line and the registers at every edge, and the
state at the end (R101, R102, R104 to R108, R111 to R114). -/

namespace Sys2Proof.Machine

theorem wf_clk {c : Config} (h : c.wf) : 0 < c.clkPerUs := h.1

/-! ## Edges inside a microsecond -/

/-- While a command runs, the block at an edge is as it was at the last microsecond boundary, the prescaler aside. -/
theorem runEdges_inCommand {t : State} {r : Run} (ht : t.seq = .run r) (h0 : r.sub = 0) (hc : 0 < t.cfg.clkPerUs) {us j : Nat}
    (hj : j < us * t.cfg.clkPerUs) (hr : noResetFor j t) (hb : (microseconds t.sampleAtUs (us - 1) t).busy = true) :
    (runEdges j t).busy = true ∧ (runEdges j t).data = (microseconds t.sampleAtUs (j / t.cfg.clkPerUs) t).data ∧
      (runEdges j t).owOe = (microseconds t.sampleAtUs (j / t.cfg.clkPerUs) t).owOe := by
  have hm : j / t.cfg.clkPerUs < us := (Nat.div_lt_iff_lt_mul hc).2 hj
  have hi : j % t.cfg.clkPerUs < t.cfg.clkPerUs := Nat.mod_lt _ hc
  have split : j / t.cfg.clkPerUs * t.cfg.clkPerUs + j % t.cfg.clkPerUs = j := Nat.div_add_mod' j _
  have before := busy_before _ us _ hb
  obtain ⟨whole, sub⟩ := runEdges_eq_microseconds ht h0 hc (j / t.cfg.clkPerUs) (fun i h => hr i (by omega))
    fun i h => before i (by omega)
  obtain ⟨q, hq⟩ := (busy_eq_true_iff _).1 (before _ hm)
  have inside := runEdges_insideMicrosecond (whole.seq.trans hq) (sub q hq) (j % t.cfg.clkPerUs) (by rwa [cfg_runEdges])
    fun i h => by rw [pinsAt_runEdges]; exact hr _ (by omega)
  rw [← runEdges_add, split] at inside
  exact ⟨(busy_eq_true_iff _).2 ⟨_, inside.seq⟩, inside.data.trans whole.data, inside.owOe.trans whole.owOe⟩

/-! ## Microseconds of a running command -/

/-- `t` is the command `x`, accepted by `s`, at microsecond `m` of its run: it is in time and has not touched DATA. -/
structure RunningAt (x : Timed) (s : State) (m : Nat) (t : State) : Prop where
  ok : t.seqOk
  cfg : t.cfg = s.cfg
  data : t.data = s.data
  run : ∃ r, t.seq = .run r ∧ r.cur = x ∧ r.t = m

theorem RunningAt.start {x : Timed} {s : State} (hc : s.cfg.wf) (hx : x.wf) : RunningAt x s 0 (s.start x) :=
  ⟨start_seqOk hc hx, rfl, rfl, _, rfl, rfl, rfl⟩

theorem RunningAt.microsecond {x : Timed} {s t : State} {m : Nat} {smp : Bool} (hc : s.cfg.wf) (h : RunningAt x s m t)
    (hb : (microsecond smp t).busy = true) : RunningAt x s (m + 1) (microsecond smp t) := by
  obtain ⟨ok, hcfg, hdata, r, hr, hcur, ht⟩ := h
  have e : Machine.microsecond smp t = boundary smp { r with t := r.t + 1 } t := by rw [Machine.microsecond, hr]
  rw [e] at hb ⊢
  obtain ⟨r', hr'⟩ := (busy_eq_true_iff _).1 hb
  obtain ⟨hcur', ht', -⟩ := boundary_running hr'
  simp only [State.seqOk, hr] at ok
  obtain ⟨hsub, hlo, hhi, sound⟩ := (Run.ok_iff _ _).1 ok.1
  refine ⟨boundary_seqOk (hcfg ▸ hc) hsub (Nat.le_succ_of_le hlo) hhi (sound.atTime _ _),
    (boundary_sameOutside ..).cfg.trans hcfg, ?_, r', hr', hcur'.trans hcur, by rw [ht', ← ht]⟩
  by_contra changed
  obtain ⟨idle, -⟩ := boundary_data_of_ne (hdata ▸ changed)
  rw [idle] at hr'
  cases hr'

theorem runningAt_microseconds {x : Timed} {s : State} {smp : Nat → Bool} (hc : s.cfg.wf) (hx : x.wf) (m : Nat)
    (hb : (microseconds smp m (s.start x)).busy = true) : RunningAt x s m (microseconds smp m (s.start x)) := by
  induction m with
  | zero => exact .start hc hx
  | succ m ih => exact (ih (busy_before smp (m + 1 + 1) _ hb m (by omega))).microsecond hc hb

/-- The line follows the time axis: the slot and the time in it are what the microsecond says. -/
theorem RunningAt.owOe {x : Timed} {s t : State} {m : Nat} (h : RunningAt x s m t) :
    ∃ r : Run, r.cur = x ∧ r.k = m / x.slotLength s.cfg ∧ t.owOe = decide (m % x.slotLength s.cfg < r.lowTime s.cfg) := by
  obtain ⟨ok, hcfg, -, r, hr, rfl, rfl⟩ := h
  simp only [State.seqOk, hr, hcfg] at ok
  obtain ⟨hok, hdrive⟩ := ok
  obtain ⟨-, hlo, hhi, -⟩ := (Run.ok_iff _ _).1 hok
  have slot : r.t / r.cur.slotLength s.cfg = r.k := Nat.div_eq_of_lt_le hlo hhi
  have time : r.slotTime s.cfg = r.t % r.cur.slotLength s.cfg := by
    have := Nat.div_add_mod' r.t (r.cur.slotLength s.cfg)
    rw [slot] at this
    rw [Run.slotTime]
    omega
  exact ⟨r, rfl, slot.symm, by rw [hdrive, Run.drive, time]⟩

/-! ## A whole run -/

section
variable {x : Timed} {s : State} {y : Wired Nat} {us : Nat} (hc : s.cfg.wf) (hx : x.wf)
  (h : MicrosecondsMatch (s.start x).sampleAtUs (s.start x) y) (hus : y.us = us)
  (hq : quietFor (us * s.cfg.clkPerUs) (s.start x))
include hc h hus hq

/-- At the end of an undisturbed run everything but the results is as acceptance left it. -/
theorem MicrosecondsMatch.atEnd :
    ∃ u, (Host.Core.run Sys2Proof.core (us * s.cfg.clkPerUs) (s.start x) : Answer) = .next u ∧
      u = { s.start x with pd := y.blk.pd, bf := y.blk.bf, data := y.blk.data, crc := y.blk.crc, seq := .idle, owOe := false,
                           sync := u.sync, pins := u.pins, edges := u.edges } := by
  subst hus
  have same := h.runEdges hc fun j hj => (hq j hj).1
  obtain ⟨cmdl, ill, cerr⟩ := runEdges_quiet hq
  have hcfg := cfg_runEdges (y.us * s.cfg.clkPerUs) (s.start x)
  exact ⟨_, run_eq_runEdges _ _, eq_of_samePart_of_sameOutside
    ⟨hcfg, same.pd, same.bf, ill, same.data, same.crc, same.seq, same.owOe⟩ ⟨hcfg, cmdl, ill, cerr, rfl, rfl, rfl⟩⟩

include hx

/-- At every edge of an undisturbed run the block is busy and DATA as before, and the line is as at the last boundary. -/
theorem MicrosecondsMatch.during {j : Nat} (hj : j < us * s.cfg.clkPerUs) :
    ((s.start x).after j).busy = true ∧ ((s.start x).after j).data = s.data ∧
      ((s.start x).after j).owOe = (microseconds (s.start x).sampleAtUs (j / s.cfg.clkPerUs) (s.start x)).owOe ∧
      RunningAt x s (j / s.cfg.clkPerUs) (microseconds (s.start x).sampleAtUs (j / s.cfg.clkPerUs) (s.start x)) := by
  subst hus
  obtain ⟨lastBusy, -⟩ := h
  have hclk := wf_clk hc
  obtain ⟨busy, data, line⟩ := runEdges_inCommand (t := s.start x) rfl rfl hclk hj (fun i hi => (hq i (by omega)).1) lastBusy
  have running := runningAt_microseconds hc hx (j / s.cfg.clkPerUs)
    (busy_before _ _ _ lastBusy _ ((Nat.div_lt_iff_lt_mul hclk).2 hj))
  rw [after_eq_runEdges]
  exact ⟨busy, data.trans running.data, line, running⟩

end

/-! ## BUS_RESET (R105, R106, R111) -/

/-- The loop ends with attempt `K` if that is the first one after which no other follows. -/
theorem resetLoop_smpEnv {c : Config} {smp : Nat → Bool} {K : Nat}
    (hK : ∀ k, k ≤ K → again c (!smp (k * c.attempt + (c.tRstl + c.tPds))) k = decide (k < K)) {f k : Nat}
    (hf : k + f = c.resetRetries) (hk : k ≤ K) :
    (resetLoop (smpEnv c smp) c f k (k * c.attempt)).k = K ∧
      (resetLoop (smpEnv c smp) c f k (k * c.attempt)).p = !smp (K * c.attempt + (c.tRstl + c.tPds)) := by
  induction f generalizing k with
  | zero =>
    have last : k = K := by
      have follows := hK k hk
      rw [again_eq, decide_eq_false (by omega), Bool.false_and] at follows
      have := of_decide_eq_false follows.symm
      omega
    subst last
    exact ⟨rfl, rfl⟩
  | succ f ih =>
    have next : ((smpEnv c smp).rst (k * c.attempt)).2 = (k + 1) * c.attempt := (Nat.succ_mul _ _).symm
    have answer : ((smpEnv c smp).rst (k * c.attempt)).1 = smp (k * c.attempt + (c.tRstl + c.tPds)) := rfl
    simp only [resetLoop, next, answer, hK k hk, decide_eq_true_eq]
    by_cases more : k < K
    · rw [if_pos more]
      exact ih (by omega) more
    · obtain rfl : k = K := by omega
      rw [if_neg more]
      exact ⟨rfl, rfl⟩

theorem wholeBusReset_smpEnv {s : State} {smp : Nat → Bool} {K : Nat}
    (hK : ∀ k, k ≤ K → again s.cfg (!smp (k * s.cfg.attempt + (s.cfg.tRstl + s.cfg.tPds))) k = decide (k < K)) :
    (wholeBusReset (smpEnv s.cfg smp) ⟨s, 0, 0⟩).us = (K + 1) * s.cfg.attempt ∧
      (wholeBusReset (smpEnv s.cfg smp) ⟨s, 0, 0⟩).blk.pd = !smp (K * s.cfg.attempt + (s.cfg.tRstl + s.cfg.tPds)) := by
  obtain ⟨hk, hp⟩ := resetLoop_smpEnv hK (Nat.zero_add s.cfg.resetRetries) (Nat.zero_le K)
  rw [Nat.zero_mul] at hk hp
  simp only [wholeBusReset, hk, hp, Nat.zero_add, and_self]

/-- Settles O34: the run is the loop of R111 on the samples it takes, and its line is low for T_RSTL of each attempt. -/
theorem busResetRunsToItsResult : Obligations.BusResetRunsToItsResult := by
  intro s hb hc
  refine ⟨(s.acceptFlags false).start .busReset, exec_of_idle .busReset hb, fun K hK hq => ?_⟩
  have run := busReset_match (smp := ((s.acceptFlags false).start .busReset).sampleAtUs) hc
  obtain ⟨us, pd⟩ := wholeBusReset_smpEnv hK
  refine ⟨fun j hj => ?_, ?_⟩
  · obtain ⟨busy, -, line, running⟩ := run.during (s := s.acceptFlags false) hc trivial us hq hj
    obtain ⟨r, hcur, -, drive⟩ := running.owOe
    refine ⟨busy, (line.trans drive).trans ?_⟩
    simp only [Run.lowTime, hcur]
    rfl
  · obtain ⟨u, hu, e⟩ := run.atEnd (s := s.acceptFlags false) hc us hq
    rw [pd] at e
    exact ⟨u, hu, e⟩

/-! ## WRITE_BITS (R107, R112) -/

/-- Settles O35: the run is the loop of R112, and its line is low in slot `i` for the low time of bit `i`. -/
theorem writeBitsRunsToItsResult : Obligations.WriteBitsRunsToItsResult := by
  intro s v n hb hc h1 h8
  refine ⟨(s.acceptFlags false).start (.writeBits v n), exec_of_idle (.writeBits v n) hb, fun hq => ?_⟩
  have run := writeBits_match (smp := ((s.acceptFlags false).start (.writeBits v n)).sampleAtUs) hc h1 v
  have us := Nat.zero_add (n * s.cfg.tSlot)
  refine ⟨fun j hj => ?_, run.atEnd (s := s.acceptFlags false) hc us hq⟩
  obtain ⟨busy, -, line, running⟩ :=
    run.during (s := s.acceptFlags false) hc (x := .writeBits v n) ⟨h1, h8⟩ us hq hj
  obtain ⟨r, hcur, hk, drive⟩ := running.owOe
  refine ⟨busy, (line.trans drive).trans ?_⟩
  simp only [Run.lowTime, hcur, hk]
  rfl

/-! ## READ_BITS (R108, R113) -/

theorem slotSamples_smpEnv (c : Config) (smp : Nat → Bool) (m us : Nat) :
    slotSamples (smpEnv c smp) m us = (List.range m).map fun i => smp (us + i * c.tSlot + (c.tRl + c.tRs)) := by
  induction m generalizing us with
  | zero => rfl
  | succ m ih =>
    have later (i : Nat) : us + c.tSlot + i * c.tSlot = us + (i + 1) * c.tSlot := by
      rw [Nat.succ_mul]
      omega
    rw [slotSamples, List.range_succ_eq_map, List.map_cons, List.map_map, Nat.zero_mul]
    exact congrArg (List.cons _) ((ih (us + c.tSlot)).trans (List.map_congr_left fun i _ => by rw [later]; rfl))

/-- Settles O36: the run is the loop of R113 on the samples it takes, and its line is low for T_RL of each slot. -/
theorem readBitsRunsToItsResult : Obligations.ReadBitsRunsToItsResult := by
  intro s n hb hc h1 h8
  refine ⟨(s.acceptFlags false).start (.readBits n), exec_of_idle (.readBits n) hb, fun hq => ?_⟩
  have run := readBits_match (smp := ((s.acceptFlags false).start (.readBits n)).sampleAtUs) hc h1
  have us := Nat.zero_add (n * s.cfg.tSlot)
  refine ⟨fun j hj => ?_, ?_⟩
  · obtain ⟨busy, data, line, running⟩ :=
      run.during (s := s.acceptFlags false) hc (x := .readBits n) ⟨h1, h8⟩ us hq hj
    obtain ⟨r, hcur, -, drive⟩ := running.owOe
    refine ⟨busy, data, (line.trans drive).trans ?_⟩
    simp only [Run.lowTime, hcur]
    rfl
  · obtain ⟨u, hu, e⟩ := run.atEnd (s := s.acceptFlags false) hc us hq
    have data := congrArg State.data e
    have crc := wholeReadBits_crc (smpEnv s.cfg ((s.acceptFlags false).start (.readBits n)).sampleAtUs) n ⟨s, 0, 0⟩
    refine ⟨u, hu, fun i => ?_, ?_⟩
    · rw [data]
      refine (bitOf_wholeReadBits_data _ h8 _ i).trans ?_
      rw [slotSamples_smpEnv]
      by_cases hi : i < n <;> simp [hi]
    · rw [data]
      exact crc ▸ e

/-! ## TRIPLET (R107, R108, R114) -/

theorem sampleOffset_pos {c : Config} (h : c.wf) {r : Run} {o : Nat} (ho : sampleOffset c r = some o) : 0 < o := by
  obtain ⟨attempt, -⟩ := wf_att h
  obtain ⟨read, -⟩ := wf_rl h
  unfold sampleOffset at ho
  split at ho
  · exact Option.some.inj ho ▸ attempt
  · cases ho
  · exact Option.some.inj ho ▸ read
  · split at ho
    · exact Option.some.inj ho ▸ read
    · cases ho

/-- The line in a slot: low until its low time has passed. -/
theorem AtSlot.owOe_inSlot {s : State} {r : Run} {c : Config} (h : AtSlot s r) (hcfg : s.cfg = c) (hc : c.wf) (smp : Nat → Bool)
    {m : Nat} (hm : m < r.cur.slotLength c) : (microseconds smp m s).owOe = decide (m < r.lowTime c) := by
  subst hcfg
  obtain ⟨-, -, -, low⟩ := inSlot_frame smp s.cfg r m
  rw [microseconds_inSlot smp h.seq h.owOe h.t (fun _ => sampleOffset_pos hc) m hm, State.resume_owOe, Run.drive]
  exact decide_eq_decide.2 (by rw [slotTime_inSlot smp s.cfg r m h.t, low])

/-- A command that goes on is at the start of its next slot. -/
theorem AtSlot.nextSlot {s : State} {r r' : Run} {c : Config} {smp : Nat → Bool} (h : AtSlot s r) (hcfg : s.cfg = c) (hc : c.wf)
    (hr' : inSlot smp c r (r.cur.slotLength c) = r') (hg : r'.goesOn c = true) :
    AtSlot (microseconds smp (r.cur.slotLength c) s) { r' with k := r.k + 1 } ∧
      (microseconds smp (r.cur.slotLength c) s).cfg = c := by
  subst hcfg
  obtain ⟨cur, t, k, -⟩ := inSlot_frame smp s.cfg r (r.cur.slotLength s.cfg)
  rw [hr'] at cur t k
  rw [microseconds_slot smp h.seq h.owOe h.t (fun _ => sampleOffset_pos hc) (slotLength_pos hc _), hr', slotEnd_eq, hg,
    if_pos rfl, k]
  refine ⟨⟨rfl, rfl, ?_⟩, rfl⟩
  show r'.t = (r.k + 1) * r'.cur.slotLength s.cfg
  rw [t, cur, h.t, Nat.succ_mul]

/-- A TRIPLET at the start of slot `k`, with the bits read so far. -/
def tripletRun (dir : Bool) (t k : Nat) (a1 a2 : Bool) : Run :=
  { Run.start (.triplet dir) with t := t, k := k, a1 := a1, a2 := a2 }

/-- A read slot of a TRIPLET takes its sample and goes on, after the second one if a device has answered. -/
theorem AtSlot.tripletNext {s : State} {c : Config} {smp : Nat → Bool} {dir a1 a2 b1 b2 : Bool} {t k : Nat}
    (h : AtSlot s (tripletRun dir t k a1 a2)) (hcfg : s.cfg = c) (hc : c.wf)
    (h1 : b1 = if k = 0 then smp (c.tRl + c.tRs) else a1) (h2 : b2 = if k = 1 then smp (c.tRl + c.tRs) else a2)
    (hk : k = 0 ∨ k = 1 ∧ tripletFault b1 b2 = false) :
    AtSlot (microseconds smp c.tSlot s) (tripletRun dir (t + c.tSlot) (k + 1) b1 b2) ∧ (microseconds smp c.tSlot s).cfg = c := by
  obtain ⟨-, inTime⟩ := wf_rl hc
  have early : k < 2 := by omega
  have offset : sampleOffset c (tripletRun dir t k a1 a2) = some (c.tRl + c.tRs) := if_pos early
  have sampled : inSlot smp c (tripletRun dir t k a1 a2) c.tSlot = tripletRun dir (t + c.tSlot) k b1 b2 := by
    simp only [inSlot, offset, if_pos inTime]
    rw [h1, h2]
    rfl
  exact h.nextSlot hcfg hc sampled (by simpa [Run.goesOn, tripletRun, Run.start] using hk)

/-- The line in the write slot of a TRIPLET is that of the direction. -/
theorem triplet_writeSlot {s : State} {smp : Nat → Bool} {dir a1 a2 : Bool} (hc : s.cfg.wf)
    (h1 : a1 = smp (s.cfg.tRl + s.cfg.tRs)) (h2 : a2 = smp (s.cfg.tSlot + (s.cfg.tRl + s.cfg.tRs)))
    (hf : tripletFault a1 a2 = false) {i : Nat} (hi : i < s.cfg.tSlot) :
    (microseconds smp (2 * s.cfg.tSlot + i) (s.start (.triplet dir))).owOe =
      decide (i < writeLow s.cfg (tripletDir dir a1 a2)) := by
  have start : AtSlot (s.start (.triplet dir)) (tripletRun dir 0 0 false false) := atSlot_start _ s
  obtain ⟨first, hcfg⟩ := start.tripletNext (smp := smp) rfl hc h1 rfl (.inl rfl)
  obtain ⟨second, hcfg'⟩ := first.tripletNext (smp := fun j => smp (s.cfg.tSlot + j)) hcfg hc rfl h2 (.inr ⟨rfl, hf⟩)
  rw [Nat.two_mul, microseconds_add, microseconds_add]
  exact second.owOe_inSlot hcfg' hc _ hi

/-- In the first two slots of a TRIPLET the line is that of a read slot. -/
theorem RunningAt.owOe_readSlot {dir : Bool} {s t : State} {m : Nat} (h : RunningAt (.triplet dir) s m t)
    (hm : m < 2 * s.cfg.tSlot) : t.owOe = decide (m % s.cfg.tSlot < s.cfg.tRl) := by
  obtain ⟨r, hcur, hk, drive⟩ := h.owOe
  have reading : r.k < 2 := hk ▸ Nat.div_lt_of_lt_mul (Nat.mul_comm 2 _ ▸ hm)
  rw [drive, Run.lowTime, hcur]
  simp only [if_pos reading]
  rfl

/-- The two read slots that follow an acceptance take their samples in the first and the second slot. -/
theorem smpEnv_readSlot_readSlot (c : Config) (smp : Nat → Bool) :
    ((smpEnv c smp).readSlot 0).1 = smp (c.tRl + c.tRs) ∧
      ((smpEnv c smp).readSlot ((smpEnv c smp).readSlot 0).2).1 = smp (c.tSlot + (c.tRl + c.tRs)) := by
  simp only [smpEnv, Nat.zero_add, and_self]

/-- Settles O37: the run is the sequence of R114 on the samples it takes; the line of its read slots is that of any command's
slots, and the line of its write slot that of the direction. -/
theorem tripletRunsToItsResult : Obligations.TripletRunsToItsResult := by
  intro s dir hb hc
  refine ⟨(s.acceptFlags false).start (.triplet dir), exec_of_idle (.triplet dir) hb, fun a1 a2 h1 h2 => ?_⟩
  have run := triplet_match (smp := ((s.acceptFlags false).start (.triplet dir)).sampleAtUs) hc dir
  obtain ⟨read1, read2⟩ := smpEnv_readSlot_readSlot s.cfg ((s.acceptFlags false).start (.triplet dir)).sampleAtUs
  replace read1 := read1.trans h1.symm
  replace read2 := read2.trans h2.symm
  have hclk := wf_clk hc
  refine ⟨fun hone htwo hq => ?_, fun hf hq => ?_⟩
  · have fault : tripletFault a1 a2 = true := by rw [hone, htwo]; rfl
    rw [wholeTriplet_of_fault (y := ⟨s, 0, 0⟩) dir (by rwa [read1, read2])] at run
    have us := Nat.zero_add (2 * s.cfg.tSlot)
    refine ⟨fun j hj => ?_, ?_⟩
    · obtain ⟨busy, data, line, running⟩ := run.during (s := s.acceptFlags false) hc trivial us hq hj
      exact ⟨busy, data, line.trans (running.owOe_readSlot ((Nat.div_lt_iff_lt_mul hclk).2 hj))⟩
    · rw [← tripletData_of_fault]
      exact run.atEnd (s := s.acceptFlags false) hc us hq
  · rw [wholeTriplet_of_answer (y := ⟨s, 0, 0⟩) dir read1 read2 hf] at run
    have us := Nat.zero_add (3 * s.cfg.tSlot)
    have during {j : Nat} (hj : j < 3 * s.cfg.tSlot * s.cfg.clkPerUs) :=
      run.during (s := s.acceptFlags false) hc trivial us hq hj
    have shorter : 2 * s.cfg.tSlot * s.cfg.clkPerUs + s.cfg.tSlot * s.cfg.clkPerUs = 3 * s.cfg.tSlot * s.cfg.clkPerUs := by ring
    obtain ⟨u, hu, e⟩ := run.atEnd (s := s.acceptFlags false) hc us hq
    refine ⟨fun j hj => ?_, fun j hj => ?_, u, hu, fun j hj => ?_, ?_⟩
    · obtain ⟨busy, data, -, -⟩ := during hj
      exact ⟨busy, data⟩
    · obtain ⟨-, -, line, running⟩ := during (by omega : j < 3 * s.cfg.tSlot * s.cfg.clkPerUs)
      exact line.trans (running.owOe_readSlot ((Nat.div_lt_iff_lt_mul hclk).2 hj))
    · obtain ⟨-, -, line, -⟩ := during (by omega : 2 * s.cfg.tSlot * s.cfg.clkPerUs + j < 3 * s.cfg.tSlot * s.cfg.clkPerUs)
      have time : (2 * s.cfg.tSlot * s.cfg.clkPerUs + j) / s.cfg.clkPerUs = 2 * s.cfg.tSlot + j / s.cfg.clkPerUs := by
        rw [Nat.add_comm, Nat.add_mul_div_right _ _ hclk, Nat.add_comm]
      rw [line, State.acceptFlags_cfg, time, ← tripletDir_of_answer hf]
      exact triplet_writeSlot (s := s.acceptFlags false) hc h1 h2 hf ((Nat.div_lt_iff_lt_mul hclk).2 hj)
    · rw [← tripletDir_of_answer hf, ← tripletData_eq_ofNat]
      exact e

end Sys2Proof.Machine
end

section
/-! PROOFS. A write of ones drives the line as a read does (R108, R112). -/

namespace Sys2Proof.Machine

/-! ## Sequencer and line at a boundary, apart from the results -/

/-- What the sequencer's fields are at a boundary, with the sample taken if its instant has come. -/
def sampledRun (c : Config) (smp : Bool) (r : Run) : Run :=
  if sampleOffset c r = some (r.slotTime c) then absorbRun smp r else r

/-- The sequencer after a boundary: the results the block holds have no part in it. -/
def nextSeq (c : Config) (smp : Bool) (r : Run) : Seq :=
  if r.slotOver c then
    if (sampledRun c smp r).goesOn c then .run { sampledRun c smp r with k := (sampledRun c smp r).k + 1 } else .idle
  else .run (sampledRun c smp r)

/-- The line drive that goes with a state of the sequencer (R101, R102). -/
def Seq.drive (c : Config) : Seq → Bool
  | .idle => false
  | .run r => r.drive c

theorem sampledRun_frame (c : Config) (smp : Bool) (r : Run) :
    (sampledRun c smp r).cur = r.cur ∧ (sampledRun c smp r).t = r.t ∧ (sampledRun c smp r).sub = r.sub ∧
      (sampledRun c smp r).k = r.k := by
  unfold sampledRun
  split
  · exact absorbRun_frame smp r
  · exact ⟨rfl, rfl, rfl, rfl⟩

theorem boundary_seq (smp : Bool) (r : Run) (s : State) :
    (boundary smp r s).seq = nextSeq s.cfg smp r ∧ (boundary smp r s).owOe = (nextSeq s.cfg smp r).drive s.cfg := by
  obtain ⟨crc, sampled⟩ : ∃ crc, Sampled smp r s (sampledRun s.cfg smp r) crc := by
    unfold sampledRun
    split
    case isTrue hit => exact ⟨_, .taken hit⟩
    case isFalse miss => exact ⟨_, .skipped miss⟩
  rw [sampled.boundary_eq, slotEnd_eq, nextSeq]
  split
  · split <;> exact ⟨rfl, rfl⟩
  · exact ⟨rfl, rfl⟩

/-! ## Sequencers that drive alike -/

/-- A write of `n` bits and a read of `n` bits at the same time of the same slot. -/
structure WriteRead (v : Byte) (n : Nat) (r r' : Run) : Prop where
  write : r.cur = .writeBits v n
  read : r'.cur = .readBits n
  t : r.t = r'.t
  sub : r.sub = r'.sub
  k : r.k = r'.k
  index : r.k < n

/-- Two sequencers in the same state, or one in a write and the other in a read at the same point. -/
inductive SeqAlike (v : Byte) (n : Nat) : Seq → Seq → Prop where
  | same (q : Seq) : SeqAlike v n q q
  | writeRead {r r' : Run} (h : WriteRead v n r r') : SeqAlike v n (.run r) (.run r')

section
variable {v : Byte} {n : Nat} {c : Config}

theorem WriteRead.slotTime {r r' : Run} (h : WriteRead v n r r') : r.slotTime c = r'.slotTime c := by
  simp only [Run.slotTime, h.write, h.read, h.t, h.k, Timed.slotLength]

theorem WriteRead.sampled {r r' : Run} (smp : Bool) (h : WriteRead v n r r') :
    WriteRead v n (sampledRun c smp r) (sampledRun c smp r') := by
  obtain ⟨cur, t, sub, k⟩ := sampledRun_frame c smp r
  obtain ⟨cur', t', sub', k'⟩ := sampledRun_frame c smp r'
  exact ⟨cur.trans h.write, cur'.trans h.read, t.trans (h.t.trans t'.symm), sub.trans (h.sub.trans sub'.symm),
    k.trans (h.k.trans k'.symm), k ▸ h.index⟩

/-- After a boundary both are at the same point again, or both are over. -/
theorem WriteRead.nextSeq {r r' : Run} (smp : Bool) (h : WriteRead v n r r') :
    SeqAlike v n (nextSeq c smp r) (nextSeq c smp r') := by
  have h' := h.sampled (c := c) smp
  have ends : r.slotOver c = r'.slotOver c := by
    simp only [Run.slotOver, h.slotTime, h.write, h.read, Timed.slotLength]
  have goesOn : (sampledRun c smp r).goesOn c = decide ((sampledRun c smp r).k + 1 < n) := by
    simp only [Run.goesOn, h'.write]
  have goesOn' : (sampledRun c smp r').goesOn c = decide ((sampledRun c smp r).k + 1 < n) := by
    simp only [Run.goesOn, h'.read, h'.k]
  rw [Machine.nextSeq, Machine.nextSeq, ends, goesOn, goesOn']
  split
  · split
    case isTrue more =>
      exact .writeRead ⟨h'.write, h'.read, h'.t, h'.sub, congrArg Nat.succ h'.k, of_decide_eq_true more⟩
    case isFalse => exact .same _
  · exact .writeRead h'

theorem SeqAlike.idle_iff {q q' : Seq} (h : SeqAlike v n q q') : q = .idle ↔ q' = .idle := by
  cases h with
  | same => exact Iff.rfl
  | writeRead => exact iff_of_false Seq.noConfusion Seq.noConfusion

/-- Two running sequencers that are alike have the same prescaler, and stay alike whether it counts or a boundary comes. -/
theorem SeqAlike.clocked {r r' : Run} (h : SeqAlike v n (.run r) (.run r')) :
    r.sub = r'.sub ∧ SeqAlike v n (.run { r with sub := r.sub + 1 }) (.run { r' with sub := r'.sub + 1 }) ∧
      ∀ smp, SeqAlike v n (Machine.nextSeq c smp { r with t := r.t + 1, sub := 0 })
        (Machine.nextSeq c smp { r' with t := r'.t + 1, sub := 0 }) := by
  cases h with
  | same => exact ⟨rfl, .same _, fun _ => .same _⟩
  | writeRead h =>
    exact ⟨h.sub, .writeRead ⟨h.write, h.read, h.t, congrArg Nat.succ h.sub, h.k, h.index⟩,
      fun smp => WriteRead.nextSeq smp ⟨h.write, h.read, congrArg Nat.succ h.t, rfl, h.k, h.index⟩⟩

/-- With ones to write, and the low time of a one that of a read slot, the two drive alike (R107, R108). -/
theorem SeqAlike.drive (hv : ∀ i, i < n → bitOf v i = true) (hlow : c.tRl = c.tW1l) {q q' : Seq} (h : SeqAlike v n q q') :
    q.drive c = q'.drive c := by
  cases h with
  | same => rfl
  | @writeRead r r' h =>
    have low : r.lowTime c = r'.lowTime c := by
      simp only [Run.lowTime, h.write, h.read, hv _ h.index, writeLow, if_true, hlow]
    show r.drive c = r'.drive c
    rw [Run.drive, Run.drive, h.slotTime, low]

end

/-! ## Blocks that drive alike -/

/-- Two blocks on the same inputs whose sequencers drive alike, and whose host has the same word to present. -/
structure DriveAlike (v : Byte) (n : Nat) (s s' : State) : Prop where
  cfg : s.cfg = s'.cfg
  cmdl : s.cmdl = s'.cmdl
  owOe : s.owOe = s'.owOe
  sync : s.sync = s'.sync
  pins : s.pins = s'.pins
  edges : s.edges = s'.edges
  seq : SeqAlike v n s.seq s'.seq

section
variable {v : Byte} {n : Nat} {s s' : State} (h : DriveAlike v n s s')
include h

theorem DriveAlike.busy : s.busy = s'.busy := by
  rw [Bool.eq_iff_iff, ← not_iff_not, Bool.not_eq_true, Bool.not_eq_true, busy_eq_false_iff, busy_eq_false_iff, h.seq.idle_iff]

theorem DriveAlike.nextPins : s.nextPins = s'.nextPins := by rw [State.nextPins, State.nextPins, h.pins, h.edges]

theorem DriveAlike.owIn : s.owIn = s'.owIn := owIn_congr h.owOe (congrArg Pins.devLow h.nextPins)

theorem DriveAlike.clockIn : DriveAlike v n s.clockIn s'.clockIn :=
  ⟨h.cfg, h.cmdl, h.owOe, by rw [State.clockIn_sync, State.clockIn_sync, h.owIn, h.sync, h.cfg],
    congrArg List.tail h.pins, congrArg Nat.succ h.edges, h.seq⟩

theorem DriveAlike.start (x : Timed) : DriveAlike v n (s.start x) (s'.start x) :=
  ⟨h.cfg, h.cmdl, congrArg (Run.drive · _) h.cfg, h.sync, h.pins, h.edges, .same _⟩

theorem DriveAlike.afterEffect (i : Instr) : DriveAlike v n (ownEffect i s) (ownEffect i s') := by
  cases i with
  | busReset | writeBits _ _ | readBits _ | triplet _ => exact h.start _
  | _ => exact ⟨h.cfg, h.cmdl, h.owOe, h.sync, h.pins, h.edges, h.seq⟩

theorem DriveAlike.afterAccess (p : Pins) : DriveAlike v n (accessed p s) (accessed p s') := by
  have word : s.presentedInstr p.hWdata = s'.presentedInstr p.hWdata := by
    rw [State.presentedInstr, State.presentedInstr, State.presentedWord, State.presentedWord, h.cmdl]
  have flags (ill : Bool) : DriveAlike v n (s.acceptFlags ill) (s'.acceptFlags ill) :=
    ⟨h.cfg, h.cmdl, h.owOe, h.sync, h.pins, h.edges, h.seq⟩
  rw [accessed, accessed, word, ← h.busy]
  split_ifs
  · exact ⟨h.cfg, rfl, h.owOe, h.sync, h.pins, h.edges, h.seq⟩
  · exact ⟨h.cfg, h.cmdl, h.owOe, h.sync, h.pins, h.edges, h.seq⟩
  · exact (flags _).afterEffect _
  · exact h
  · exact h

/-- What the sequencer does leaves the blocks alike if it leaves the sequencers and the lines so. -/
theorem DriveAlike.of_sameOutside {t t' : State} (ht : SameOutside t s) (ht' : SameOutside t' s')
    (owOe : t.owOe = t'.owOe) (seq : SeqAlike v n t.seq t'.seq) : DriveAlike v n t t' :=
  ⟨ht.cfg.trans (h.cfg.trans ht'.cfg.symm), ht.cmdl.trans (h.cmdl.trans ht'.cmdl.symm), owOe,
    ht.sync.trans (h.sync.trans ht'.sync.symm), ht.pins.trans (h.pins.trans ht'.pins.symm),
    ht.edges.trans (h.edges.trans ht'.edges.symm), seq⟩

variable (hv : ∀ i, i < n → bitOf v i = true) (hlow : s.cfg.tRl = s.cfg.tW1l)
include hv hlow

theorem DriveAlike.afterTick (smp : Bool) : DriveAlike v n (s.tick smp) (s'.tick smp) := by
  have alike := h.seq
  cases hs : s.seq with
  | idle => rwa [tick_of_idle smp hs, tick_of_idle smp (alike.idle_iff.1 hs)]
  | run r =>
    cases hs' : s'.seq with
    | idle => cases hs.symm.trans (alike.idle_iff.2 hs')
    | run r' =>
      rw [hs, hs'] at alike
      obtain ⟨sub, counted, next⟩ := alike.clocked (c := s.cfg)
      rw [tick_of_run smp hs, tick_of_run smp hs', tickRun, tickRun, ← sub, ← h.cfg]
      split
      · exact ⟨rfl, h.cmdl, h.owOe, h.sync, h.pins, h.edges, sub ▸ counted⟩
      · obtain ⟨seq, line⟩ := boundary_seq smp { r with t := r.t + 1, sub := 0 } s
        obtain ⟨seq', line'⟩ := boundary_seq smp { r' with t := r'.t + 1, sub := 0 } s'
        rw [← h.cfg] at seq' line'
        exact h.of_sameOutside (boundary_sameOutside ..) (boundary_sameOutside ..)
          (line.trans (((next smp).drive hv hlow).trans line'.symm)) (by rw [seq, seq']; exact next smp)

theorem DriveAlike.afterEdge : DriveAlike v n (edge s) (edge s') := by
  have access := h.clockIn.afterAccess s.nextPins
  have cfg : (accessed s.nextPins s.clockIn).cfg = s.cfg := (accessed_ports _ _).1
  rw [edge, edge, ← h.nextPins, ← h.busy, ← sampleNow_congr h.cfg h.sync h.owIn]
  split_ifs
  · exact ⟨h.cfg, rfl, rfl, h.clockIn.sync, h.clockIn.pins, h.clockIn.edges, .same _⟩
  · exact access.afterTick hv (by rw [cfg]; exact hlow) _
  · exact access

theorem DriveAlike.afterEdges (j : Nat) : DriveAlike v n (runEdges j s) (runEdges j s') := by
  induction j with
  | zero => exact h
  | succ j ih =>
    rw [runEdges_succ, runEdges_succ]
    exact ih.afterEdge hv (by rw [cfg_runEdges]; exact hlow)

end

/-- Settles O42: accepted at the same edge the two commands drive alike, every edge keeps that, and with it BUSY. -/
theorem writingOnesLooksLikeReading : Obligations.WritingOnesLooksLikeReading := by
  intro s t t' v n hb _ hlow h1 _ hv ht ht' j _ hbusy
  rw [exec_of_idle _ hb] at ht ht'
  obtain rfl := Host.Outcome.next.inj ht
  obtain rfl := Host.Outcome.next.inj ht'
  have seq : SeqAlike v n (.run (Run.start (.writeBits v n))) (.run (Run.start (.readBits n))) :=
    .writeRead ⟨rfl, rfl, rfl, rfl, rfl, h1⟩
  have start : DriveAlike v n ((s.acceptFlags false).start (.writeBits v n)) ((s.acceptFlags false).start (.readBits n)) :=
    ⟨rfl, rfl, seq.drive hv hlow, rfl, rfl, rfl, seq⟩
  have alike := start.afterEdges hv hlow j
  rw [after_eq_runEdges] at hbusy ⊢
  rw [after_eq_runEdges]
  exact ⟨alike.owOe, alike.busy.symm.trans hbusy⟩

end Sys2Proof.Machine
end

section
/-! PROOFS. The host procedures over whole commands (R140 to R146): what a transfer of bytes leaves, and what reference devices
answer to READ_ROM. -/

namespace Sys2Proof.Machine

section
variable {σ : Type} (env : BusEnv σ) (y : Wired σ)

/-! ## CMD of one command (R79, R80) -/

/-- `CMD` runs the command itself, with its low byte left in CMDL. -/
theorem Wired.cmd_eq {i : Instr} (hi : i.wf) :
    y.cmd env i = wholeCommand env i { y with blk := y.blk.writeCmdl (lowByte (encode i)) } := by
  show wholeCommand env (decodeWord (highByte (encode i) ++ lowByte (encode i))) _ = _
  rw [highByte_append_lowByte, decodeWord_encode hi]

theorem Wired.cmd_busReset :
    y.cmd env .busReset = wholeBusReset env { y with blk := y.blk.writeCmdl (lowByte (encode .busReset)) } :=
  y.cmd_eq env trivial

theorem Wired.cmdPseudo_writeByte (v : Byte) :
    y.cmdPseudo env (.writeByte v) =
      wholeWriteBits env v 8 { y with blk := y.blk.writeCmdl (lowByte (encode (.writeBits v 8))) } :=
  y.cmd_eq env (i := .writeBits v 8) ⟨by decide, Nat.le_refl 8⟩

theorem Wired.cmdPseudo_readByte :
    y.cmdPseudo env .readByte = wholeReadBits env 8 { y with blk := y.blk.writeCmdl (lowByte (encode (.readBits 8))) } :=
  y.cmd_eq env (i := .readBits 8) ⟨by decide, Nat.le_refl 8⟩

theorem Wired.cmdPseudo_crcClear :
    y.cmdPseudo env .crcClear =
      wholeCommand env (.crcLoad 0) { y with blk := y.blk.writeCmdl (lowByte (encode (.crcLoad 0))) } :=
  y.cmd_eq env (i := .crcLoad 0) trivial

@[simp] theorem Wired.busReset_cfg : (y.cmd env .busReset).blk.cfg = y.blk.cfg := by
  rw [Wired.cmd_busReset]; rfl

@[simp] theorem Wired.writeByte_cfg (v : Byte) : (y.cmdPseudo env (.writeByte v)).blk.cfg = y.blk.cfg := by
  rw [Wired.cmdPseudo_writeByte]; rfl

@[simp] theorem Wired.writeByte_us (v : Byte) : (y.cmdPseudo env (.writeByte v)).us = y.us + 8 * y.blk.cfg.tSlot := by
  rw [Wired.cmdPseudo_writeByte]; rfl

theorem Wired.writeByte_bus (v : Byte) : (y.cmdPseudo env (.writeByte v)).bus = writeLoop env v 8 0 y.bus := by
  rw [Wired.cmdPseudo_writeByte]; rfl

@[simp] theorem Wired.readByte_cfg : (y.cmdPseudo env .readByte).blk.cfg = y.blk.cfg := by
  rw [Wired.cmdPseudo_readByte]; rfl

@[simp] theorem Wired.readByte_us : (y.cmdPseudo env .readByte).us = y.us + 8 * y.blk.cfg.tSlot := by
  rw [Wired.cmdPseudo_readByte]; rfl

/-- READ_BYTE folds into CRC the byte it leaves in DATA (R92). -/
theorem Wired.readByte_crc :
    (y.cmdPseudo env .readByte).blk.crc = crc8Update y.blk.crc (y.cmdPseudo env .readByte).blk.data := by
  rw [Wired.cmdPseudo_readByte, wholeReadBits_crc, if_pos rfl, State.writeCmdl_crc]

theorem Wired.bitOf_readByte_data (j : Nat) :
    bitOf (y.cmdPseudo env .readByte).blk.data j = (slotSamples env 8 y.bus).getD j false := by
  rw [Wired.cmdPseudo_readByte, bitOf_wholeReadBits_data env (Nat.le_refl 8)]

@[simp] theorem Wired.crcClear_cfg : (y.cmdPseudo env .crcClear).blk.cfg = y.blk.cfg := by
  rw [Wired.cmdPseudo_crcClear]; rfl

@[simp] theorem Wired.crcClear_us : (y.cmdPseudo env .crcClear).us = y.us := by
  rw [Wired.cmdPseudo_crcClear]; rfl

@[simp] theorem Wired.crcClear_crc : (y.cmdPseudo env .crcClear).blk.crc = 0 := by
  rw [Wired.cmdPseudo_crcClear]; rfl

@[simp] theorem Wired.crcClear_bus : (y.cmdPseudo env .crcClear).bus = y.bus := by
  rw [Wired.cmdPseudo_crcClear]; rfl

/-! ## Transfers of bytes (R141, R142) -/

theorem writeBytes_us (buf : List Byte) : (writeBytes env buf y).us = y.us + buf.length * (8 * y.blk.cfg.tSlot) := by
  induction buf generalizing y with
  | nil => simp [writeBytes]
  | cons b rest ih =>
    rw [writeBytes, ih, Wired.writeByte_us, Wired.writeByte_cfg, List.length_cons]
    ring

theorem writeCommand_us (cmd : Byte) (buf : List Byte) :
    (writeCommand env cmd buf y).us = y.us + (buf.length + 1) * (8 * y.blk.cfg.tSlot) := by
  rw [writeCommand, writeBytes_us, Wired.writeByte_us, Wired.writeByte_cfg]
  ring

theorem length_readBytesLoop (m : Nat) : (readBytesLoop env m y).1.length = m := by
  induction m generalizing y with
  | zero => rfl
  | succ m ih => rw [readBytesLoop, List.length_cons, ih]

theorem readBytesLoop_us (m : Nat) : (readBytesLoop env m y).2.us = y.us + m * (8 * y.blk.cfg.tSlot) := by
  induction m generalizing y with
  | zero => simp [readBytesLoop]
  | succ m ih =>
    rw [readBytesLoop, ih, Wired.readByte_us, Wired.readByte_cfg]
    ring

/-- The loop folds into CRC the bytes it reads. -/
theorem readBytesLoop_crc (m : Nat) :
    (readBytesLoop env m y).2.blk.crc = (readBytesLoop env m y).1.foldl crc8Update y.blk.crc := by
  induction m generalizing y with
  | zero => rfl
  | succ m ih => rw [readBytesLoop, ih, Wired.readByte_crc, List.foldl_cons, hostRead_data]

/-- One READ_BYTE after the loop is one pass more of it. -/
theorem readBytesLoop_succ_last (m : Nat) :
    readBytesLoop env (m + 1) y =
      ((readBytesLoop env m y).1 ++ [((readBytesLoop env m y).2.cmdPseudo env .readByte).blk.hostRead 3],
        (readBytesLoop env m y).2.cmdPseudo env .readByte) := by
  induction m generalizing y with
  | zero => rfl
  | succ m ih => rw [readBytesLoop, ih]; rfl

/-- The bytes of the record and the trailing byte are read by one loop. -/
theorem readBytes_record (count : Nat) :
    (readBytes env count y).buf ++ [(readBytes env count y).tail] =
      (readBytesLoop env (count + 1) (y.cmdPseudo env .crcClear)).1 := by
  rw [readBytesLoop_succ_last]; rfl

theorem readBytes_sys (count : Nat) :
    (readBytes env count y).sys = (readBytesLoop env (count + 1) (y.cmdPseudo env .crcClear)).2 := by
  rw [readBytesLoop_succ_last]; rfl

theorem readBytes_us (count : Nat) : (readBytes env count y).sys.us = y.us + (count + 1) * (8 * y.blk.cfg.tSlot) := by
  rw [readBytes_sys, readBytesLoop_us, Wired.crcClear_us, Wired.crcClear_cfg]

/-- From a cleared CRC the loop leaves the CRC of the whole record (R93). -/
theorem readBytes_crcOk (count : Nat) :
    (readBytes env count y).crcOk = crc8Validate ((readBytes env count y).buf ++ [(readBytes env count y).tail]) := by
  show ((readBytes env count y).sys.blk.crc == 0) = _
  rw [readBytes_record, readBytes_sys, readBytesLoop_crc, Wired.crcClear_crc]
  rfl

end

/-- Settles O46: one loop from a cleared CRC reads the record and folds it. -/
theorem readBytesReportsValidity : Obligations.ReadBytesReportsValidity := fun _ env count y =>
  ⟨readBytes_crcOk env y count, length_readBytesLoop env _ count, readBytes_us env y count⟩

/-! ## Presence (R140, R143 to R145, R162) -/

theorem presenceRead_eq (s : State) : presenceRead s = s.pd := bitOf_status_one s

/-- Settles O47: the reset leaves PD = 0, and every procedure branches on it. -/
theorem noPresenceFailsEveryProcedure : Obligations.NoPresenceFailsEveryProcedure := by
  intro σ env y code prev cmd last high
  have absent : presenceRead (y.cmd env .busReset).blk = false := by
    rw [presenceRead_eq, Wired.cmd_busReset]
    exact (stableLineHidesTheRetryPolarity σ env _ true high).1
  simp [matchRom, skipRom, readRom, searchPass, absent]

/-! ## A reset with devices present (R111, R131) -/

/-- However many attempts are made, the devices have just been reset. -/
theorem resetLoop_bus (c : Config) (fuel k : Nat) (ds : List Device) :
    (resetLoop refEnv c fuel k ds).bus = ds.map Device.onReset := by
  induction fuel generalizing k ds with
  | zero => rfl
  | succ fuel ih =>
    rw [resetLoop, refEnv_rst]
    dsimp only
    cases again c (!presenceLevel ds) k with
    | false => rfl
    | true => exact (ih (k + 1) _).trans List.map_map

theorem Wired.busReset_bus (y : Wired (List Device)) : (y.cmd refEnv .busReset).bus = y.bus.map Device.onReset := by
  rw [Wired.cmd_busReset]
  exact resetLoop_bus ..

theorem refEnv_rst_of_ne_nil {ds : List Device} (h : ds ≠ []) : (refEnv.rst ds).1 = false ∧ (refEnv.rst ds).2 ≠ [] :=
  ⟨List.isEmpty_eq_false_iff.2 h, mt List.map_eq_nil_iff.1 h⟩

section
variable {y : Wired (List Device)} (hy : y.bus ≠ [])
include hy

theorem Wired.busReset_present : presenceRead (y.cmd refEnv .busReset).blk = true := by
  rw [presenceRead_eq, Wired.cmd_busReset]
  exact (resetLoop_of_stable (fun _ => refEnv_rst_of_ne_nil) (Nat.zero_add _) hy).1

/-- Devices that are present answer every attempt, so the polarity of R8 gives their number. -/
theorem Wired.busReset_us :
    (y.cmd refEnv .busReset).us =
      y.us + (if y.blk.cfg.retryOn = .presence then y.blk.cfg.resetRetries + 1 else 1) * y.blk.cfg.attempt := by
  obtain ⟨-, hk⟩ := resetLoop_of_stable (fun _ => refEnv_rst_of_ne_nil) (Nat.zero_add y.blk.cfg.resetRetries) hy
  rw [Wired.cmd_busReset]
  simp only [wholeBusReset, State.writeCmdl_cfg, hk, iff_true]
  split <;> rfl

theorem matchRom_of_present (code : List Byte) :
    matchRom refEnv code y = (true, writeCommand refEnv matchRomByte code (y.cmd refEnv .busReset)) :=
  if_pos (Wired.busReset_present hy)

theorem skipRom_of_present :
    skipRom refEnv y = (true, (y.cmd refEnv .busReset).cmdPseudo refEnv (.writeByte skipRomByte)) :=
  if_pos (Wired.busReset_present hy)

theorem readRom_of_present :
    readRom refEnv y =
      let q := readBytes refEnv 7 ((y.cmd refEnv .busReset).cmdPseudo refEnv (.writeByte readRomByte))
      ⟨q.crcOk, q.buf ++ [q.tail], q.sys⟩ :=
  if_pos (Wired.busReset_present hy)

theorem readRom_ok : (readRom refEnv y).ok = crc8Validate (readRom refEnv y).code := by
  rw [readRom_of_present hy]
  exact readBytes_crcOk ..

end

/-- Settles O52: the attempts of the reset, and eight slots for each of the bytes. -/
theorem procedureDurationsFollowTheTable : Obligations.ProcedureDurationsFollowTheTable := by
  rintro y code _ _ hy hcode rfl rfl
  rw [matchRom_of_present hy, skipRom_of_present hy, readRom_of_present hy]
  refine ⟨?_, ?_, ?_⟩
  · rw [writeCommand_us, hcode, Wired.busReset_cfg, Wired.busReset_us hy]
  · rw [Wired.writeByte_us, Wired.busReset_cfg, Wired.busReset_us hy]
  · rw [readBytes_us, Wired.writeByte_us, Wired.writeByte_cfg, Wired.busReset_cfg, Wired.busReset_us hy]
    ring

/-! ## Devices that take a command byte and devices that send their code (R131) -/

/-- A device in another mode. -/
def Device.inMode (m : Mode) (x : Device) : Device := { x with mode := m }

/-- A device that has taken a command byte. -/
def Device.onCommand (v : Byte) (x : Device) : Device := x.inMode (x.dispatch v)

theorem onSlot_cmd_of_lt {i : Nat} (h : i + 1 < 8) (u : Byte) (b : Bool) (x : Device) :
    (x.inMode (.cmd i u)).onSlot b = x.inMode (.cmd (i + 1) (setBit u i b)) :=
  congrArg x.inMode (if_pos h)

theorem onSlot_cmd_last (u : Byte) (b : Bool) (x : Device) :
    (x.inMode (.cmd 7 u)).onSlot b = x.onCommand (setBit u 7 b) := rfl

/-- A byte that agrees with `v` below bit `i` agrees with it one bit further once that bit is set. -/
theorem bitOf_setBit_self {u v : Byte} {i : Nat} (hu : ∀ j, j < i → bitOf u j = bitOf v j) (hi : i < 8) (j : Nat)
    (hj : j < i + 1) : bitOf (setBit u i (bitOf v i)) j = bitOf v j := by
  rw [bitOf_setBit _ _ _ _ hi]
  split
  · next h => rw [h]
  · exact hu j (by omega)

/-- Devices that have the first `i` bits of a byte act on the whole byte after the other slots of its transfer. -/
theorem writeLoop_cmd {v u : Byte} {m i : Nat} (him : i + m = 7) (hu : ∀ j, j < i → bitOf u j = bitOf v j)
    (ds : List Device) :
    writeLoop refEnv v (m + 1) i (ds.map (Device.inMode (.cmd i u))) = ds.map (Device.onCommand v) := by
  induction m generalizing i u with
  | zero =>
    obtain rfl : i = 7 := him
    have whole : setBit u 7 (bitOf v 7) = v := BitVec.eq_of_getLsbD_eq (bitOf_setBit_self hu (by omega))
    rw [writeLoop, writeLoop, refEnv_writeSlot, List.map_map]
    exact List.map_congr_left fun x _ => (onSlot_cmd_last u _ x).trans (by rw [whole])
  | succ m ih =>
    have next : Device.onSlot (bitOf v i) ∘ Device.inMode (.cmd i u) =
        Device.inMode (.cmd (i + 1) (setBit u i (bitOf v i))) :=
      funext (onSlot_cmd_of_lt (by omega) u _)
    rw [writeLoop, refEnv_writeSlot, List.map_map, next]
    exact ih (by omega) (bitOf_setBit_self hu (by omega))

/-- After a reset every device acts on the first byte written. -/
theorem Wired.writeByte_bus_of_reset {y : Wired (List Device)} {ds : List Device} (hy : y.bus = ds.map Device.onReset)
    (v : Byte) : (y.cmdPseudo refEnv (.writeByte v)).bus = ds.map (Device.onCommand v) := by
  rw [Wired.writeByte_bus, hy]
  exact writeLoop_cmd (m := 7) rfl (fun _ h => absurd h (Nat.not_lt_zero _)) ds

/-- The mode of a device that has sent `p` bits of its code. -/
def sendMode (p : Nat) : Mode := if p < 64 then .send p else .idle

theorem sendMode_of_lt {p : Nat} (h : p < 64) : sendMode p = .send p := if_pos h

theorem sendMode_of_le {p : Nat} (h : 64 ≤ p) : sendMode p = .idle := if_neg (Nat.not_lt.2 h)

/-- The devices `ds`, all of which have sent `p` bits of their codes. -/
def sending (p : Nat) (ds : List Device) : List Device := ds.map (Device.inMode (sendMode p))

/-- READ_ROM makes a device send its code from the first bit on. -/
theorem onCommand_readRom (ds : List Device) : ds.map (Device.onCommand readRomByte) = sending 0 ds := rfl

theorem sending_onSlot (p : Nat) (ds : List Device) : (sending p ds).map (Device.onSlot true) = sending (p + 1) ds := by
  have next (x : Device) : (x.inMode (sendMode p)).onSlot true = x.inMode (sendMode (p + 1)) := by
    obtain before | rfl | after := Nat.lt_trichotomy p 63
    · rw [sendMode_of_lt (by omega), sendMode_of_lt (by omega)]
      exact congrArg x.inMode (if_pos before)
    · rfl
    · rw [sendMode_of_le (by omega), sendMode_of_le (by omega)]
      rfl
  rw [sending, List.map_map]
  exact List.map_congr_left fun x _ => next x

/-- A slot reads 1 exactly when every device sends a 1. -/
theorem slotLevel_sending {p : Nat} (hp : p < 64) (ds : List Device) : slotLevel (sending p ds) = ds.all (·.bit p) := by
  have drives (x : Device) : (x.inMode (sendMode p)).drivesZero true = !x.bit p := by
    rw [sendMode_of_lt hp]; rfl
  rw [Bool.eq_iff_iff, slotLevel_iff, sending, List.forall_mem_map, List.all_eq_true]
  exact forall₂_congr fun x _ => by rw [drives, Bool.not_eq_false']

theorem slotSamples_sending {p m : Nat} (h : p + m ≤ 64) (ds : List Device) :
    slotSamples refEnv m (sending p ds) = (List.range m).map fun j => ds.all (·.bit (p + j)) := by
  induction m generalizing p with
  | zero => rfl
  | succ m ih =>
    rw [slotSamples, refEnv_readSlot, sending_onSlot, ih (by omega), slotLevel_sending (by omega), List.range_succ_eq_map,
      List.map_cons, List.map_map]
    refine congrArg (_ :: ·) (List.map_congr_left fun j _ => ?_)
    rw [Function.comp, Nat.succ_eq_add_one, Nat.add_comm j, Nat.add_assoc]

theorem readLoop_bus_of_sending {p : Nat} {ds : List Device} (fold : Bool) (m i : Nat) {q : ReadResult (List Device)}
    (hq : q.bus = sending p ds) : (readLoop refEnv fold m i q).bus = sending (p + m) ds := by
  induction m generalizing p i q with
  | zero => exact hq
  | succ m ih =>
    rw [readLoop, ih (p := p + 1) (i + 1) (by rw [refEnv_readSlot, hq, sending_onSlot]), Nat.add_assoc, Nat.add_comm 1]

/-! ## READ_ROM on several devices (R145) -/

/-- The AND of byte `k` over the codes of `ds`, as the wire forms it (R21, R131). -/
def wiredAnd (ds : List Device) (k : Nat) : Byte := ds.foldr (fun x v => x.rom.getD k 0 &&& v) (.allOnes 8)

theorem bitOf_wiredAnd (ds : List Device) (k : Nat) {j : Nat} (hj : j < 8) :
    bitOf (wiredAnd ds k) j = ds.all (·.bit (8 * k + j)) := by
  induction ds with
  | nil => exact BitVec.getLsbD_allOnes.trans (decide_eq_true hj)
  | cons x ds ih =>
    have bit : x.bit (8 * k + j) = bitOf (x.rom.getD k 0) j := by
      rw [Device.bit, codeBit, show (8 * k + j) / 8 = k by omega, show (8 * k + j) % 8 = j by omega]
    rw [List.all_cons, bit, ← ih]
    exact BitVec.getLsbD_and

/-- READ_BYTE reads the AND of the bytes that are sent. -/
theorem Wired.readByte_sending {y : Wired (List Device)} {ds : List Device} {k : Nat} (hk : k < 8)
    (hy : y.bus = sending (8 * k) ds) :
    (y.cmdPseudo refEnv .readByte).blk.data = wiredAnd ds k ∧
      (y.cmdPseudo refEnv .readByte).bus = sending (8 * (k + 1)) ds := by
  constructor
  · refine BitVec.eq_of_getLsbD_eq fun j hj => ?_
    show bitOf _ j = bitOf _ j
    rw [Wired.bitOf_readByte_data, hy, slotSamples_sending (by omega), bitOf_wiredAnd ds k hj,
      List.getD_eq_getElem _ _ (by simpa), List.getElem_map, List.getElem_range]
  · rw [Wired.cmdPseudo_readByte]
    exact readLoop_bus_of_sending _ 8 0 hy

theorem readBytesLoop_sending {m k : Nat} (h : k + m ≤ 8) {y : Wired (List Device)} {ds : List Device}
    (hy : y.bus = sending (8 * k) ds) : (readBytesLoop refEnv m y).1 = (List.range' k m).map (wiredAnd ds) := by
  induction m generalizing k y with
  | zero => rfl
  | succ m ih =>
    obtain ⟨data, bus⟩ := Wired.readByte_sending (by omega) hy
    rw [readBytesLoop, hostRead_data, data, ih (by omega) bus, List.range'_succ, List.map_cons]

/-- The code `read_rom` returns is the AND of the codes of the devices that are present, byte by byte. -/
theorem readRom_code {y : Wired (List Device)} (hy : y.bus ≠ []) :
    (readRom refEnv y).code = (List.range' 0 8).map (wiredAnd y.bus) := by
  have started : ((y.cmd refEnv .busReset).cmdPseudo refEnv (.writeByte readRomByte)).bus = sending (8 * 0) y.bus := by
    rw [Wired.writeByte_bus_of_reset y.busReset_bus, onCommand_readRom]
  rw [readRom_of_present hy]
  exact (readBytes_record ..).trans (readBytesLoop_sending (by omega) ((Wired.crcClear_bus ..).trans started))

/-- The AND over a lone device is its own code. -/
theorem map_wiredAnd_singleton {x : Device} (h : x.rom.length = 8) : (List.range' 0 8).map (wiredAnd [x]) = x.rom := by
  refine List.ext_getElem (by simpa using h.symm) fun k _ hk => ?_
  rw [List.getElem_map, List.getElem_range', Nat.zero_add, Nat.one_mul, wiredAnd, List.foldr_cons, List.foldr_nil,
    List.getD_eq_getElem _ _ hk]
  exact BitVec.and_allOnes

/-- Settles O51: every sample is the AND of the bits sent, and a lone device's code validates since it is well-formed. -/
theorem readRomReadsTheWiredAnd : Obligations.ReadRomReadsTheWiredAnd := by
  intro y hy wf
  have code := readRom_code hy
  refine ⟨⟨by rw [code]; simp, fun p hp => ?_⟩, ?_⟩
  · rw [code, codeBit, List.getD_eq_getElem _ _ (by simp; omega), List.getElem_map, List.getElem_range',
      Nat.zero_add, Nat.one_mul, bitOf_wiredAnd _ _ (by omega), Nat.div_add_mod]
  · intro x lone
    rw [lone, devicesWellFormed, List.all_cons, List.all_nil, Bool.and_true] at wf
    obtain ⟨len, -⟩ := (romWellFormed_iff x.rom).1 wf
    rw [lone, map_wiredAnd_singleton len] at code
    exact ⟨by rw [readRom_ok hy, code, ← romWellFormed_eq_crc8Validate len, wf], code⟩

end Sys2Proof.Machine
end

section
/-! PROOFS. The codes of the devices as paths of a trie, and the walk of a search pass down it (R161, R162, R164, R168). -/

namespace Sys2Proof.Machine

/-! ## Codes as paths of the trie (R161, R168) -/

/-- Two codes take the same branches before position `p`. -/
abbrev AgreeBelow (p : Nat) (c c' : List Byte) : Prop := ∀ i, i < p → codeBit c i = codeBit c' i

theorem agreeBelow_succ {p : Nat} {c c' : List Byte} :
    AgreeBelow (p + 1) c c' ↔ AgreeBelow p c c' ∧ codeBit c p = codeBit c' p :=
  Nat.forall_lt_succ_right

theorem AgreeBelow.refl (p : Nat) (c : List Byte) : AgreeBelow p c c := fun _ _ => rfl

theorem AgreeBelow.symm {p : Nat} {c c' : List Byte} (h : AgreeBelow p c c') : AgreeBelow p c' c := fun i hi => (h i hi).symm

theorem AgreeBelow.trans {p : Nat} {c c' z : List Byte} (h : AgreeBelow p c c') (h' : AgreeBelow p c' z) : AgreeBelow p c z :=
  fun i hi => (h i hi).trans (h' i hi)

theorem AgreeBelow.mono {p q : Nat} {c c' : List Byte} (h : AgreeBelow p c c') (hq : q ≤ p) : AgreeBelow q c c' :=
  fun i hi => h i (by omega)

theorem eq_of_agreeBelow {c c' : List Byte} (h : c.length = 8) (h' : c'.length = 8) (agree : AgreeBelow 64 c c') : c = c' := by
  refine List.ext_getElem (h.trans h'.symm) fun k hk hk' => BitVec.eq_of_getLsbD_eq fun j hj => ?_
  have bit := agree (8 * k + j) (by omega)
  rwa [codeBit, codeBit, show (8 * k + j) / 8 = k by omega, show (8 * k + j) % 8 = j by omega, List.getD_eq_getElem _ _ hk,
    List.getD_eq_getElem _ _ hk'] at bit

/-- A code as the sequence of its 64 bits, which are compared from position 0 on. -/
def codeKey (c : List Byte) : Lex (Fin 64 → Bool) := toLex fun p => codeBit c p

theorem codeBefore_iff {c c' : List Byte} : CodeBefore c c' ↔ codeKey c < codeKey c' := by
  constructor
  · rintro ⟨q, hq, zero, one, agree⟩
    exact ⟨⟨q, hq⟩, fun j hj => agree j hj, Bool.lt_iff.2 ⟨zero, one⟩⟩
  · rintro ⟨q, agree, lt⟩
    obtain ⟨zero, one⟩ := Bool.lt_iff.1 lt
    exact ⟨q, q.isLt, zero, one, fun p hp => agree ⟨p, by omega⟩ hp⟩

theorem CodeBefore.trans {c c' z : List Byte} (h : CodeBefore c c') (h' : CodeBefore c' z) : CodeBefore c z :=
  codeBefore_iff.2 ((codeBefore_iff.1 h).trans (codeBefore_iff.1 h'))

theorem CodeBefore.ne {c c' : List Byte} (h : CodeBefore c c') : c ≠ c' :=
  ne_of_apply_ne codeKey (codeBefore_iff.1 h).ne

theorem codeKey_inj {c c' : List Byte} (h : c.length = 8) (h' : c'.length = 8) : codeKey c = codeKey c' ↔ c = c' :=
  ⟨fun e => eq_of_agreeBelow h h' fun i hi => congrFun e ⟨i, hi⟩, congrArg codeKey⟩

section
variable {c : List Byte} {rest : List (List Byte)} (sorted : (c :: rest).Pairwise CodeBefore)
include sorted

theorem codeKey_head_le : ∀ z ∈ c :: rest, codeKey c ≤ codeKey z :=
  List.forall_mem_cons.2 ⟨le_rfl, fun _ hz => (codeBefore_iff.1 (List.rel_of_pairwise_cons sorted hz)).le⟩

/-- In a sorted list the codes after the head are those that R168 puts after it. -/
theorem mem_tail_iff_codeBefore {z : List Byte} : z ∈ rest ↔ z ∈ c :: rest ∧ CodeBefore c z :=
  ⟨fun hz => ⟨List.mem_cons_of_mem c hz, List.rel_of_pairwise_cons sorted hz⟩,
    fun ⟨hz, before⟩ => (List.mem_cons.1 hz).resolve_left before.ne.symm⟩

end

/-- Different codes can be put in the order of R168. -/
theorem exists_sorted_codes {S : List (List Byte)} (len : ∀ z ∈ S, z.length = 8) (nodup : S.Nodup) :
    ∃ L : List (List Byte), L.Perm S ∧ L.Pairwise CodeBefore := by
  have perm := S.mergeSort_perm (fun c c' => decide (codeKey c ≤ codeKey c'))
  have sorted := S.pairwise_mergeSort (le := fun c c' => decide (codeKey c ≤ codeKey c'))
    (fun a b c hab hbc => decide_eq_true (le_trans (of_decide_eq_true hab) (of_decide_eq_true hbc)))
    (fun a b => by simpa using le_total (codeKey a) (codeKey b))
  refine ⟨_, perm, (sorted.and (perm.nodup_iff.2 nodup)).imp_of_mem fun {a b} ha hb h => ?_⟩
  obtain ⟨le, ne⟩ := h
  have keys : codeKey a ≠ codeKey b := mt (codeKey_inj (len a (perm.mem_iff.1 ha)) (len b (perm.mem_iff.1 hb))).1 ne
  exact codeBefore_iff.2 (lt_of_le_of_ne (of_decide_eq_true le) keys)

/-! ## What a pass has done when it comes to a position (R162 to R164) -/

/-- At `q` the code `c` takes the 0-branch of a discrepancy: a code of `S` that shares the path so far takes the other one. -/
def OpenAt (S : List (List Byte)) (c : List Byte) (q : Nat) : Prop :=
  ∃ z ∈ S, codeBit c q = false ∧ codeBit z q = true ∧ AgreeBelow q c z

/-- `next` is the greatest position below `p` where `c` leaves a 1-branch open, or LAST (R164). -/
def IsNext (S : List (List Byte)) (c : List Byte) (p : Nat) (next : Int) : Prop :=
  (next = searchLast ∧ ∀ i, i < p → ¬ OpenAt S c i) ∨
    ∃ q : Nat, q < p ∧ next = q ∧ OpenAt S c q ∧ ∀ i, i < p → OpenAt S c i → i ≤ q

/-- The buffers of a pass over devices with the codes `S` when it comes to position `p`. -/
structure Walked (S : List (List Byte)) (hint : Nat → Bool) (p : Nat) (code : List Byte) (next : Int) : Prop where
  len : code.length = 8
  live : ∃ z ∈ S, AgreeBelow p code z
  hinted : ∀ i, i < p → ∀ z ∈ S, AgreeBelow i code z → codeBit z i ≠ codeBit code i → codeBit code i = hint i
  isNext : IsNext S code p next

section
variable {S : List (List Byte)} {c c' : List Byte}

theorem openAt_congr {q : Nat} (h : AgreeBelow (q + 1) c c') : OpenAt S c q ↔ OpenAt S c' q := by
  obtain ⟨below, bit⟩ := agreeBelow_succ.1 h
  rw [OpenAt, OpenAt, bit]
  exact exists_congr fun _ => and_congr_right fun _ => and_congr_right fun _ => and_congr_right fun _ =>
    ⟨below.symm.trans, below.trans⟩

theorem isNext_congr {p : Nat} {next : Int} (h : AgreeBelow p c c') : IsNext S c p next ↔ IsNext S c' p next := by
  have same (i : Nat) (hi : i < p) : OpenAt S c i ↔ OpenAt S c' i := openAt_congr (h.mono hi)
  refine or_congr (and_congr_right fun _ => forall₂_congr fun i hi => not_congr (same i hi)) (exists_congr fun q => ?_)
  refine and_congr_right fun hq => and_congr_right fun _ => and_congr (same q hq) ?_
  exact forall₂_congr fun i hi => imp_congr_left (same i hi)

/-- Recording an open position, and only that, keeps the greatest one. -/
theorem IsNext.succ {p : Nat} {next : Int} (h : IsNext S c p next) {b : Bool} (hb : b = true ↔ OpenAt S c p) :
    IsNext S c (p + 1) (if b then (p : Int) else next) := by
  cases b with
  | true => exact .inr ⟨p, by omega, rfl, hb.1 rfl, fun i hi _ => by omega⟩
  | false =>
    have shut : ¬ OpenAt S c p := fun o => nomatch hb.2 o
    obtain ⟨none, closed⟩ | ⟨q, hq, rfl, opened, greatest⟩ := h
    · exact .inl ⟨none, Nat.forall_lt_succ_right.2 ⟨closed, shut⟩⟩
    · exact .inr ⟨q, by omega, rfl, opened, Nat.forall_lt_succ_right.2 ⟨greatest, fun o => absurd o shut⟩⟩

/-- The greatest open position exists where the code is before another one. -/
theorem IsNext.of_codeBefore {next : Int} (h : IsNext S c 64 next) {z : List Byte} (hz : z ∈ S) (before : CodeBefore c z) :
    ∃ q : Nat, q < 64 ∧ next = q ∧ OpenAt S c q ∧ ∀ i, i < 64 → OpenAt S c i → i ≤ q := by
  obtain ⟨-, closed⟩ | found := h
  · obtain ⟨q, hq, branch⟩ := before
    exact absurd ⟨z, hz, branch⟩ (closed q hq)
  · exact found

theorem IsNext.eq_last {next : Int} (h : IsNext S c 64 next) (last : ∀ z ∈ S, ¬ CodeBefore c z) : next = searchLast := by
  obtain ⟨none, -⟩ | ⟨q, hq, -, ⟨z, hz, branch⟩, -⟩ := h
  · exact none
  · exact absurd ⟨q, hq, branch⟩ (last z hz)

end

section
variable {S : List (List Byte)} {hint : Nat → Bool} {p : Nat} {code : List Byte} {next : Int}

theorem Walked.start {z : List Byte} (hz : z ∈ S) : Walked S hint 0 emptyCode searchLast where
  len := rfl
  live := ⟨z, hz, fun _ h => absurd h (Nat.not_lt_zero _)⟩
  hinted := fun _ h => absurd h (Nat.not_lt_zero _)
  isNext := .inl ⟨rfl, fun _ h => absurd h (Nat.not_lt_zero _)⟩

/-- The invariant reads the buffer below the position only. -/
theorem Walked.congr {code' : List Byte} (h : Walked S hint p code next) (agree : AgreeBelow p code code')
    (len' : code'.length = 8) : Walked S hint p code' next where
  len := len'
  live := h.live.imp fun _ ⟨hz, below⟩ => ⟨hz, agree.symm.trans below⟩
  hinted i hi z hz below differ := by
    rw [← agree i hi] at differ ⊢
    exact h.hinted i hi z hz ((agree.mono hi.le).trans below) differ
  isNext := (isNext_congr agree).1 h.isNext

/-- After the last position the buffer holds the code of a device. -/
theorem Walked.mem (h : Walked S hint 64 code next) (len : ∀ z ∈ S, z.length = 8) : code ∈ S := by
  obtain ⟨z, hz, agree⟩ := h.live
  rwa [eq_of_agreeBelow h.len (len z hz) agree]

end

/-! ## One position of the walk (R132, R162) -/

/-- What a TRIPLET reads at `p`, `r0` and then `r1`, and the direction it writes, while the devices with the codes `S` that share the
path `code` take part: a bit that they all have is read and written, and where both values occur 0b00 is read and the hint written. -/
inductive Turn (S : List (List Byte)) (code : List Byte) (p : Nat) (hint : Bool) : (r0 r1 dir : Bool) → Prop where
  | forced (d : Bool) (live : ∃ z ∈ S, AgreeBelow p code z) (all : ∀ z ∈ S, AgreeBelow p code z → codeBit z p = d) :
      Turn S code p hint d (!d) d
  | free (both : ∀ b, ∃ z ∈ S, AgreeBelow p code z ∧ codeBit z p = b) : Turn S code p hint false false hint

section
variable {S : List (List Byte)} {p : Nat} {code : List Byte} {hint r0 r1 d : Bool} (t : Turn S code p hint r0 r1 d)
include t

theorem Turn.answered : (r0 && r1) = false := by
  cases t with
  | forced _ live all => exact Bool.and_not_self r0
  | free both => rfl

/-- Some device is on the branch that is written. -/
theorem Turn.taken : ∃ z ∈ S, AgreeBelow p code z ∧ codeBit z p = d := by
  cases t with
  | forced _ live all => exact live.imp fun z ⟨hz, agree⟩ => ⟨hz, agree, all z hz agree⟩
  | free both => exact both hint

/-- A device is on the other branch only where the hint was followed. -/
theorem Turn.hinted {z : List Byte} (hz : z ∈ S) (agree : AgreeBelow p code z) (differ : codeBit z p ≠ d) : d = hint := by
  cases t with
  | forced _ live all => exact absurd (all z hz agree) differ
  | free both => rfl

/-- The condition of R164 says that a discrepancy took the 0-branch. -/
theorem Turn.opened {c : List Byte} (agree : AgreeBelow p code c) (hd : codeBit c p = d) :
    (!r0 && !r1 && !d) = true ↔ OpenAt S c p := by
  subst hd
  cases t with
  | forced _ live all =>
    refine iff_of_false (by cases codeBit c p <;> decide) fun ⟨z, hz, zero, one, below⟩ => ?_
    exact absurd ((all z hz (agree.trans below)).trans zero) (by simp [one])
  | free both =>
    obtain ⟨z, hz, below, one⟩ := both true
    simp only [Bool.not_false, Bool.true_and, Bool.not_eq_true']
    exact ⟨fun zero => ⟨z, hz, zero, one, agree.symm.trans below⟩, fun ⟨_, _, zero, _⟩ => zero⟩

end

/-- Once the direction is written the path is one branch longer. -/
theorem agreeBelow_setCodeBit {p : Nat} {code z : List Byte} {d : Bool} (hp : p < 64) (len : code.length = 8) :
    AgreeBelow (p + 1) (setCodeBit code p d) z ↔ AgreeBelow p code z ∧ codeBit z p = d := by
  have bits (i : Nat) := codeBit_setCodeBit code p d i (by omega)
  rw [agreeBelow_succ, bits, if_pos rfl, eq_comm (a := d)]
  refine and_congr_left fun _ => forall₂_congr fun i hi => ?_
  rw [bits, if_neg hi.ne]

/-- The walk goes on with the direction written. -/
theorem Walked.succ {S : List (List Byte)} {hint : Nat → Bool} {p : Nat} {code : List Byte} {next : Int} {r0 r1 d : Bool}
    (h : Walked S hint p code next) (hp : p < 64) (t : Turn S code p (hint p) r0 r1 d) :
    Walked S hint (p + 1) (setCodeBit code p d) (if !r0 && !r1 && !d then (p : Int) else next) := by
  obtain ⟨agree, bit⟩ := (agreeBelow_setCodeBit hp h.len).1 (AgreeBelow.refl _ (setCodeBit code p d))
  have before := h.congr agree ((length_setCodeBit ..).trans h.len)
  exact {
    len := before.len
    live := t.taken.imp fun z ⟨hz, below, branch⟩ => ⟨hz, (agreeBelow_setCodeBit hp h.len).2 ⟨below, branch⟩⟩
    hinted := Nat.forall_lt_succ_right.2 ⟨before.hinted, fun z hz below differ => by
      rw [bit] at differ ⊢
      exact t.hinted hz (agree.trans below) differ⟩
    isNext := before.isNext.succ (t.opened agree bit) }

end Sys2Proof.Machine
end

section
/-! PROOFS. Search passes on reference devices (R162 to R165, R167, R169): the hint, a pass that nobody answers, and the walk that a
pass over devices makes. -/

namespace Sys2Proof.Machine

/-! ## The direction hint (R163) -/

theorem searchHint_at_last {prev : List Byte} {last : Int} {p : Nat} (h : (p : Int) = last) : searchHint prev last p = true :=
  if_pos h

theorem searchHint_before_last {prev : List Byte} {last : Int} {p : Nat} (h : (p : Int) < last) :
    searchHint prev last p = codeBit prev p := by
  rw [searchHint, if_neg (by omega), if_pos h]

theorem searchHint_after_last {prev : List Byte} {last : Int} {p : Nat} (h : last < (p : Int)) :
    searchHint prev last p = false := by
  rw [searchHint, if_neg (by omega), if_neg (by omega)]

/-- FIRST lies before every position, so a first pass hints 0 throughout. -/
theorem searchHint_first (prev : List Byte) (p : Nat) : searchHint prev searchFirst p = false :=
  searchHint_after_last (show (-1 : Int) < p by omega)

/-! ## A TRIPLET that nobody answers (R165, R167) -/

theorem Wired.cmd_triplet {σ : Type} (env : BusEnv σ) (dir : Bool) (y : Wired σ) :
    y.cmd env (.triplet dir) =
      wholeTriplet env dir { y with blk := y.blk.writeCmdl (lowByte (encode (.triplet dir))) } :=
  y.cmd_eq env (i := .triplet dir) trivial

section
variable {σ : Type} {env : BusEnv σ} {y : Wired σ} (h1 : (env.readSlot y.bus).1 = true)
  (h2 : (env.readSlot (env.readSlot y.bus).2).1 = true)
include h1 h2

theorem Wired.cmd_triplet_of_fault (dir : Bool) :
    y.cmd env (.triplet dir) =
      ⟨{ (y.blk.writeCmdl (lowByte (encode (.triplet dir)))).acceptFlags false with
          data := tripletData dir true true, bf := true },
        (env.readSlot (env.readSlot y.bus).2).2, y.us + 2 * y.blk.cfg.tSlot⟩ := by
  rw [Wired.cmd_triplet]
  exact wholeTriplet_of_fault dir (by rw [h1, h2]; rfl)

/-- Whatever the hint, the walk ends with the command that reads 0b11. -/
theorem searchWalk_of_fault (prev : List Byte) (last : Int) (m p : Nat) (code : List Byte) (next : Int) :
    searchWalk env prev last (m + 1) p code next y = (.error, y.cmd env (.triplet (searchHint prev last p))) := by
  have r0 : bitOf ((y.cmd env (.triplet (searchHint prev last p))).blk.hostRead 3) 0 = true := by
    rw [Wired.cmd_triplet_of_fault h1 h2]; exact bitOf_tripletData_0 ..
  have r1 : bitOf ((y.cmd env (.triplet (searchHint prev last p))).blk.hostRead 3) 1 = true := by
    rw [Wired.cmd_triplet_of_fault h1 h2]; exact bitOf_tripletData_1 ..
  simp only [searchWalk, r0, r1, Bool.and_self, if_true]

end

/-- Settles O53: the hint has one value before, at and after the cursor, and a TRIPLET takes it on 0b00 only. -/
theorem searchHintFollowsTheCursor : Obligations.SearchHintFollowsTheCursor := by
  intro prev last p
  refine ⟨searchHint_at_last, searchHint_before_last, searchHint_after_last, searchHint_first prev p, ?_, ?_⟩
  · intro a1 a2 h h' differ
    have answered : tripletFault a1 a2 = false := by revert differ; cases a1 <;> cases a2 <;> decide
    have oneIsRead : (a1 || a2) = true := by revert differ; cases a1 <;> cases a2 <;> decide
    simp only [tripletDir_of_answer answered, oneIsRead, if_true, and_self]
  · intro σ env y m code next h1 h2
    rw [searchWalk_of_fault h1 h2]

/-- Idle devices leave the line alone, and stay idle. -/
theorem readSlot_of_idle {ds : List Device} (h : ∀ x ∈ ds, x.mode = .idle) : refEnv.readSlot ds = (true, ds) := by
  have released : slotLevel ds = true := (slotLevel_iff ds).2 fun x hx => by rw [Device.drivesZero, h x hx]
  have unchanged (x : Device) (hx : x ∈ ds) : x.onSlot true = x := by
    obtain ⟨rom, alarm, mode⟩ := x
    obtain rfl : mode = .idle := h _ hx
    rfl
  rw [refEnv_readSlot, released, List.map_congr_left unchanged, List.map_id']

theorem searchPass_of_present {y : Wired (List Device)} (hy : y.bus ≠ []) (cmd : Byte) (prev : List Byte) (last : Int) :
    searchPass refEnv cmd prev last y =
      searchWalk refEnv prev last 64 0 emptyCode searchLast ((y.cmd refEnv .busReset).cmdPseudo refEnv (.writeByte cmd)) :=
  if_pos (Wired.busReset_present hy)

theorem searchCommand_bus (cmd : Byte) (y : Wired (List Device)) :
    ((y.cmd refEnv .busReset).cmdPseudo refEnv (.writeByte cmd)).bus = y.bus.map (Device.onCommand cmd) :=
  Wired.writeByte_bus_of_reset y.busReset_bus cmd

/-- Settles O54: without an alarm ALARM_SEARCH leaves every device idle, so the first TRIPLET reads 0b11. -/
theorem alarmSearchWithoutAlarmsIsAnError : Obligations.AlarmSearchWithoutAlarmsIsAnError := by
  intro y prev last hy quiet
  have idle : ∀ x ∈ ((y.cmd refEnv .busReset).cmdPseudo refEnv (.writeByte alarmSearchByte)).bus, x.mode = .idle := by
    rw [searchCommand_bus, List.forall_mem_map]
    intro x hx
    show (if x.alarm then Mode.search 0 .idBit else .idle) = .idle
    rw [quiet x hx, if_neg Bool.false_ne_true]
  have read := readSlot_of_idle idle
  have h1 := congrArg Prod.fst read
  have h2 := (congrArg (fun q => (refEnv.readSlot q.2).1) read).trans h1
  rw [searchPass_of_present hy, searchWalk_of_fault h1 h2, Wired.cmd_triplet_of_fault h1 h2]
  refine ⟨rfl, rfl, ?_⟩
  show _ + 2 * _ = _
  rw [Wired.writeByte_us, Wired.writeByte_cfg, Wired.busReset_cfg]

/-! ## A pass over reference devices (R131, R162) -/

/-- The mode of a device that has taken part in the search up to position `p`. -/
def searchMode (p : Nat) : Mode := if p < 64 then .search p .idBit else .selected

theorem searchMode_succ (p : Nat) : searchMode (p + 1) = if p < 63 then .search (p + 1) .idBit else .selected :=
  if_congr Nat.succ_lt_succ_iff rfl rfl

/-- The devices that share the path `code` are searching at position `p`, and the others have left. -/
def OnPath (p : Nat) (code : List Byte) (ds : List Device) : Prop :=
  ∀ x ∈ ds, x.mode = if AgreeBelow p code x.rom then searchMode p else .idle

/-- SEARCH_ROM makes every device take part. -/
theorem onPath_onCommand_searchRom (code : List Byte) (ds : List Device) :
    OnPath 0 code (ds.map (Device.onCommand searchRomByte)) := by
  refine List.forall_mem_map.2 fun x _ => ?_
  rw [if_pos fun _ h => absurd h (Nat.not_lt_zero _)]
  rfl

section
variable {p : Nat} {code : List Byte} {ds : List Device} (hp : p < 64) (h : OnPath p code ds)
include hp h

theorem OnPath.mode_iff {x : Device} (hx : x ∈ ds) : x.mode = .search p .idBit ↔ AgreeBelow p code x.rom := by
  rw [h x hx, searchMode, if_pos hp]
  split
  · next agree => exact iff_of_true rfl agree
  · next differ => exact iff_of_false (fun e => nomatch e) differ

theorem OnPath.search_or_idle {x : Device} (hx : x ∈ ds) : x.mode = .search p .idBit ∨ x.mode = .idle := by
  rw [h x hx, searchMode, if_pos hp]
  split
  · exact .inl rfl
  · exact .inr rfl

theorem OnPath.all_searching (f : Device → Bool) :
    (searching p ds).all f = true ↔ ∀ x ∈ ds, AgreeBelow p code x.rom → f x = true := by
  rw [all_searching_iff]
  exact forall₂_congr fun x hx => imp_congr_left (h.mode_iff hp hx)

end

/-- The reads of R132 are one turn of the walk. -/
theorem OnPath.turn {p : Nat} {code : List Byte} {ds : List Device} (hp : p < 64) (h : OnPath p code ds)
    (live : ∃ z ∈ ds.map (·.rom), AgreeBelow p code z) (hint : Bool) {r0 r1 : Bool}
    (h0 : r0 = (searching p ds).all (·.bit p)) (h1 : r1 = (searching p ds).all fun x => !x.bit p) :
    Turn (ds.map (·.rom)) code p hint r0 r1 (if r0 || r1 then r0 else hint) := by
  have ones : r0 = true ↔ ∀ z ∈ ds.map (·.rom), AgreeBelow p code z → codeBit z p = true := by
    rw [h0, h.all_searching hp, List.forall_mem_map]; rfl
  have zeros : r1 = true ↔ ∀ z ∈ ds.map (·.rom), AgreeBelow p code z → codeBit z p = false := by
    rw [h1, h.all_searching hp, List.forall_mem_map]; simp [Device.bit]
  obtain ⟨z, hz, agree⟩ := live
  cases r0 with
  | true =>
    have all := ones.1 rfl
    obtain rfl : r1 = false := by
      by_contra both
      exact absurd ((all z hz agree).symm.trans (zeros.1 (by simpa using both) z hz agree)) (by decide)
    exact .forced true ⟨z, hz, agree⟩ all
  | false =>
    cases r1 with
    | true => exact .forced false ⟨z, hz, agree⟩ (zeros.1 rfl)
    | false =>
      refine .free fun b => ?_
      cases b with
      | true => simpa using zeros
      | false => simpa using ones

/-- TRIPLET takes the devices one position further, those on the branch it writes. -/
theorem OnPath.cmd_triplet {y : Wired (List Device)} {p : Nat} {code : List Byte} (hp : p < 64) (len : code.length = 8)
    (h : OnPath p code y.bus) (live : ∃ z ∈ y.bus.map (·.rom), AgreeBelow p code z) (hint : Bool) :
    let y' := y.cmd refEnv (.triplet hint)
    Turn (y.bus.map (·.rom)) code p hint (bitOf y'.blk.data 0) (bitOf y'.blk.data 1) (bitOf y'.blk.data 2) ∧
      y'.bus.map (·.rom) = y.bus.map (·.rom) ∧ OnPath (p + 1) (setCodeBit code p (bitOf y'.blk.data 2)) y'.bus := by
  intro y'
  have seen := tripletSeesTheSearchingDevices
    { y with blk := y.blk.writeCmdl (lowByte (encode (.triplet hint))) } p hint _ _ _ hp
    (fun _ hx => h.search_or_idle hp hx) rfl rfl rfl
  rw [← y.cmd_eq refEnv (i := .triplet hint) trivial] at seen
  obtain ⟨data0, data1, -, answered⟩ := seen
  have someone : (searching p y.bus).isEmpty = false := by
    obtain ⟨z, hz, agree⟩ := live
    obtain ⟨x, hx, rfl⟩ := List.mem_map.1 hz
    exact List.isEmpty_eq_false_iff_exists_mem.2 ⟨x, List.mem_filter.2 ⟨hx, beq_iff_eq.2 ((h.mode_iff hp hx).2 agree)⟩⟩
  obtain ⟨data2, bus⟩ := answered someone
  refine ⟨?_, ?_, ?_⟩
  · rw [data0, data1, data2]
    exact h.turn hp live hint rfl rfl
  · rw [bus, List.map_map]
    refine List.map_congr_left fun x _ => ?_
    dsimp only [Function.comp]
    split <;> rfl
  · rw [data2, bus]
    refine List.forall_mem_map.2 fun x hx => ?_
    by_cases agree : AgreeBelow p code x.rom
    · rw [if_pos ((h.mode_iff hp hx).2 agree), searchMode_succ]
      exact if_congr ((agreeBelow_setCodeBit hp len).trans (and_iff_right agree)).symm rfl rfl
    · rw [if_neg (mt (h.mode_iff hp hx).1 agree), if_neg fun a => agree ((agreeBelow_setCodeBit hp len).1 a).1, h x hx,
        if_neg agree]

/-- From any position the walk comes to the end with the code of a device. -/
theorem searchWalk_of_onPath {prev : List Byte} {last : Int} {m p : Nat} (hm : p + m = 64) {code : List Byte} {next : Int}
    {y : Wired (List Device)} (h : OnPath p code y.bus)
    (w : Walked (y.bus.map (·.rom)) (searchHint prev last) p code next) :
    ∃ c n, (searchWalk refEnv prev last m p code next y).1 = .found c n ∧
      Walked (y.bus.map (·.rom)) (searchHint prev last) 64 c n ∧
      (searchWalk refEnv prev last m p code next y).2.bus.map (·.rom) = y.bus.map (·.rom) := by
  induction m generalizing p code next y with
  | zero =>
    obtain rfl : p = 64 := hm
    exact ⟨code, next, rfl, w, rfl⟩
  | succ m ih =>
    have hp : p < 64 := by omega
    obtain ⟨turn, roms, onPath⟩ := h.cmd_triplet hp w.len w.live (searchHint prev last p)
    have further := w.succ hp turn
    rw [← roms] at further ⊢
    simp only [searchWalk, hostRead_data, turn.answered, Bool.false_eq_true, if_false]
    exact ih (by omega) onPath further

/-- A pass over devices that are present returns the code of one of them, found by following the hints. -/
theorem searchPass_walked {y : Wired (List Device)} (hy : y.bus ≠ []) (prev : List Byte) (last : Int) :
    ∃ c n, (searchPass refEnv searchRomByte prev last y).1 = .found c n ∧
      Walked (y.bus.map (·.rom)) (searchHint prev last) 64 c n ∧
      (searchPass refEnv searchRomByte prev last y).2.bus.map (·.rom) = y.bus.map (·.rom) := by
  have bus := searchCommand_bus searchRomByte y
  have roms : (y.bus.map (Device.onCommand searchRomByte)).map (·.rom) = y.bus.map (·.rom) := List.map_map
  obtain ⟨x, hx⟩ := List.exists_mem_of_ne_nil _ hy
  rw [searchPass_of_present hy, ← roms, ← bus]
  refine searchWalk_of_onPath rfl ?_ (Walked.start (z := x.rom) ?_)
  · rw [bus]
    exact onPath_onCommand_searchRom _ _
  · rw [bus, roms]
    exact List.mem_map_of_mem hx

/-! ## One pass (R168 for one device, R169) -/

theorem length_rom_of_wellFormed {ds : List Device} (wf : devicesWellFormed ds = true) : ∀ z ∈ ds.map (·.rom), z.length = 8 :=
  List.forall_mem_map.2 fun x hx => ((romWellFormed_iff x.rom).1 (List.all_eq_true.1 wf x hx)).1

/-- Settles O55: the code found is a device's, so the only one's, and no other code leaves a branch open. -/
theorem loneDeviceIsFoundAtOnce : Obligations.LoneDeviceIsFoundAtOnce := by
  intro y x prev lone wf
  obtain ⟨c, n, found, walked, -⟩ := searchPass_walked (y := y) (by simp [lone]) prev searchFirst
  rw [lone, List.map_singleton] at walked
  obtain rfl : c = x.rom := List.mem_singleton.1 (walked.mem (by simpa using ((romWellFormed_iff x.rom).1 wf).1))
  have alone : ∀ z ∈ [x.rom], ¬ CodeBefore x.rom z := fun z hz before => before.ne (List.mem_singleton.1 hz).symm
  rw [found, walked.isNext.eq_last alone]

/-- Settles O56: the hint is 0 at the first divergence, which the pass so leaves open. -/
theorem firstDiscrepancyIsAtOrAfterTheFirstDivergence : Obligations.FirstDiscrepancyIsAtOrAfterTheFirstDivergence := by
  rintro y prev q wf hq same ⟨x, hx, x', hx', differ⟩
  obtain ⟨c, n, found, walked, -⟩ := searchPass_walked (List.ne_nil_of_mem hx) prev searchFirst
  have mem := walked.mem (length_rom_of_wellFormed wf)
  obtain ⟨u, hu, rfl⟩ := List.mem_map.1 mem
  obtain ⟨v, hv, other⟩ : ∃ v ∈ y.bus, v.bit q ≠ u.bit q := by
    by_cases h : x.bit q = u.bit q
    · exact ⟨x', hx', fun h' => differ (h.trans h'.symm)⟩
    · exact ⟨x, hx, h⟩
  have below : AgreeBelow q u.rom v.rom := fun p hp => same p hp u hu v hv
  have zero : codeBit u.rom q = false :=
    (walked.hinted q hq v.rom (List.mem_map_of_mem hv) below other).trans (searchHint_first prev q)
  have one : codeBit v.rom q = true := Bool.eq_true_of_not_eq_false fun h => other (h.trans zero.symm)
  have branch := And.intro zero (And.intro one below)
  obtain ⟨r, hr, rfl, -, greatest⟩ := walked.isNext.of_codeBefore (List.mem_map_of_mem hv) ⟨q, hq, branch⟩
  have := greatest q hq ⟨v.rom, List.mem_map_of_mem hv, branch⟩
  exact ⟨u.rom, r, found, by omega, by omega, mem⟩

end Sys2Proof.Machine
end

section
/-! PROOFS. Enumeration (R166, R168): the discrepancy a pass returns makes the next one find the code after it. -/

namespace Sys2Proof.Machine

/-! ## The cursor of the next pass (R163, R164) -/

/-- `s` is the first of the codes `S` that follow the hints up to and including the cursor. -/
structure FirstResuming (S : List (List Byte)) (prev : List Byte) (last : Int) (s : List Byte) : Prop where
  mem : s ∈ S
  resumes : ∀ i : Nat, (i : Int) ≤ last → codeBit s i = searchHint prev last i
  least : ∀ z ∈ S, (∀ i : Nat, (i : Int) ≤ last → codeBit z i = searchHint prev last i) → codeKey s ≤ codeKey z

/-- From FIRST the first of all codes is next. -/
theorem FirstResuming.first {S : List (List Byte)} {s : List Byte} (hs : s ∈ S) (least : ∀ z ∈ S, codeKey s ≤ codeKey z)
    (prev : List Byte) : FirstResuming S prev searchFirst s where
  mem := hs
  resumes i hi := absurd hi (by simp only [searchFirst]; omega)
  least z hz _ := least z hz

section
variable {S : List (List Byte)}

/-- A pass returns the first code that resumes from the cursor. Where it first left that code it followed the hint: up to the cursor
that code follows it too, and beyond the hint is 0, which leads to a code before that one. -/
theorem Walked.eq_firstResuming {prev : List Byte} {last : Int} {c s : List Byte} {next : Int} (len : ∀ z ∈ S, z.length = 8)
    (w : Walked S (searchHint prev last) 64 c next) (first : FirstResuming S prev last s) : c = s := by
  have hc := w.mem len
  obtain before | same | after := lt_trichotomy (codeKey c) (codeKey s)
  · obtain ⟨q, hq, zero, one, agree⟩ := codeBefore_iff.2 before
    have hint := w.hinted q hq s first.mem agree (by simp [zero, one])
    have beyond : last < q := by
      by_contra h
      exact absurd (one.symm.trans (first.resumes q (by omega))) (by simp [← hint, zero])
    have resumes (i : Nat) (hi : (i : Int) ≤ last) : codeBit c i = searchHint prev last i :=
      (agree i (by omega)).trans (first.resumes i hi)
    exact absurd before (first.least c hc resumes).not_gt
  · exact (codeKey_inj w.len (len s first.mem)).1 same
  · obtain ⟨q, hq, zero, one, agree⟩ := codeBefore_iff.2 after
    have hint := w.hinted q hq s first.mem (AgreeBelow.symm agree) (by simp [zero, one])
    rw [one] at hint
    by_cases h : (q : Int) ≤ last
    · exact absurd (zero.symm.trans (first.resumes q h)) (by simp [← hint])
    · exact absurd (hint.trans (searchHint_after_last (by omega))) (by decide)

/-- The discrepancy a pass returns makes the code after the one it found the next to be found. -/
theorem IsNext.firstResuming {s t : List Byte} {next : Int} (h : IsNext S s 64 next) (ht : t ∈ S) (before : CodeBefore s t)
    (least : ∀ z ∈ S, CodeBefore s z → codeKey t ≤ codeKey z) : next ≠ searchLast ∧ FirstResuming S s next t := by
  obtain ⟨q, hq, rfl, ⟨w, hw, zero, one, agree⟩, greatest⟩ := h.of_codeBefore ht before
  obtain ⟨j, hj, zero', one', agree'⟩ := before
  have le : j ≤ q := greatest j hj ⟨t, ht, zero', one', agree'⟩
  obtain rfl : j = q := by
    by_contra ne
    have lt : j < q := by omega
    have earlier : CodeBefore w t := ⟨j, hj, (agree j lt).symm.trans zero', one', fun p hp =>
      (agree p (by omega)).symm.trans (agree' p hp)⟩
    exact absurd (codeBefore_iff.1 earlier) (least w hw ⟨q, hq, zero, one, agree⟩).not_gt
  refine ⟨by simp only [searchLast]; omega, ht, fun i hi => ?_, fun z hz resumes => ?_⟩
  · obtain rfl | lt : i = j ∨ i < j := by omega
    · rw [one', searchHint_at_last rfl]
    · rw [searchHint_before_last (by omega), agree' i lt]
  · refine least z hz ⟨j, hj, zero, (resumes j le_rfl).trans (searchHint_at_last rfl), fun i hi => ?_⟩
    rw [resumes i (by omega), searchHint_before_last (by omega)]

end

/-! ## The loops over passes (R166, R168) -/

section
variable {σ : Type} {env : BusEnv σ} {cmd : Byte} {prev c : List Byte} {last n : Int} {y : Wired σ}
  (h : (searchPass env cmd prev last y).1 = .found c n)
include h

theorem enumerate_of_last (fuel : Nat) (hn : n = searchLast) :
    enumerate env cmd (fuel + 1) prev last y = (c, [c], true, (searchPass env cmd prev last y).2) := by
  rw [enumerate, show searchPass env cmd prev last y = (.found c n, (searchPass env cmd prev last y).2) from Prod.ext h rfl]
  exact if_pos hn

theorem enumerate_of_more (fuel : Nat) (hn : n ≠ searchLast) :
    enumerate env cmd (fuel + 1) prev last y =
      let rest := enumerate env cmd fuel c n (searchPass env cmd prev last y).2
      (rest.1, c :: rest.2.1, rest.2.2) := by
  rw [enumerate, show searchPass env cmd prev last y = (.found c n, (searchPass env cmd prev last y).2) from Prod.ext h rfl]
  exact if_neg hn

end

/-- A pass finds the next code, and leaves the set of devices as it was. -/
theorem searchPass_of_firstResuming {S : List (List Byte)} (len : ∀ z ∈ S, z.length = 8) {prev s : List Byte} {last : Int}
    {y : Wired (List Device)} (hy : y.bus.map (·.rom) = S) (first : FirstResuming S prev last s) :
    ∃ n, (searchPass refEnv searchRomByte prev last y).1 = .found s n ∧ IsNext S s 64 n ∧
      (searchPass refEnv searchRomByte prev last y).2.bus.map (·.rom) = S := by
  have present : y.bus ≠ [] := mt List.map_eq_nil_iff.2 (hy ▸ List.ne_nil_of_mem first.mem)
  obtain ⟨c, n, found, walked, kept⟩ := searchPass_walked present prev last
  rw [hy] at walked kept
  obtain rfl := walked.eq_firstResuming len first
  exact ⟨n, found, walked.isNext, kept⟩

/-- The caller's loop returns the codes from the next one on in their order, and ends at the last one. -/
theorem enumerate_of_firstResuming {S rest : List (List Byte)} (len : ∀ z ∈ S, z.length = 8) {prev s : List Byte} {last : Int}
    {y : Wired (List Device)} (hy : y.bus.map (·.rom) = S) (first : FirstResuming S prev last s)
    (sorted : rest.Pairwise CodeBefore) (after : ∀ z, z ∈ rest ↔ z ∈ S ∧ CodeBefore s z) :
    (enumerate refEnv searchRomByte (rest.length + 1) prev last y).2.1 = s :: rest ∧
      (enumerate refEnv searchRomByte (rest.length + 1) prev last y).2.2.1 = true := by
  induction rest generalizing prev s last y with
  | nil =>
    obtain ⟨n, found, walked, -⟩ := searchPass_of_firstResuming len hy first
    have isLast : ∀ z ∈ S, ¬ CodeBefore s z := fun z hz before => List.not_mem_nil ((after z).2 ⟨hz, before⟩)
    rw [enumerate_of_last found _ (walked.eq_last isLast)]
    exact ⟨rfl, rfl⟩
  | cons t rest ih =>
    obtain ⟨n, found, isNext, kept⟩ := searchPass_of_firstResuming len hy first
    obtain ⟨ht, before⟩ := (after t).1 List.mem_cons_self
    have least (z : List Byte) (hz : z ∈ S) (hs : CodeBefore s z) : codeKey t ≤ codeKey z :=
      codeKey_head_le sorted z ((after z).2 ⟨hz, hs⟩)
    have after' (z : List Byte) : z ∈ rest ↔ z ∈ S ∧ CodeBefore t z := by
      rw [mem_tail_iff_codeBefore sorted, after]
      exact and_congr_left fun htz => and_iff_left (before.trans htz)
    obtain ⟨more, next⟩ := isNext.firstResuming ht before least
    obtain ⟨codes, ended⟩ := ih kept next sorted.of_cons after'
    rw [List.length_cons, enumerate_of_more found _ more]
    exact ⟨congrArg (s :: ·) codes, ended⟩

/-- A call without a family filter is one pass (R166). -/
theorem searchRom_zero {σ : Type} (env : BusEnv σ) (cmd : Byte) (fuel : Nat) (prev : List Byte) (last : Int) (y : Wired σ) :
    searchRom env 0 cmd (fuel + 1) prev last y = some (searchPass env cmd prev last y) := by
  rw [searchRom]
  split
  · next h => rw [h]
  · next h => rw [if_pos (.inl rfl), h]

/-- Settles O57: the first pass finds the first of the sorted codes, and every other one the code after the one before it. -/
theorem enumerationFindsEveryDeviceOnce : Obligations.EnumerationFindsEveryDeviceOnce := by
  intro y prev hy wf nodup
  have len := length_rom_of_wellFormed wf
  obtain ⟨sorted, perm, pairwise⟩ := exists_sorted_codes len nodup
  have size : sorted.length = y.bus.length := perm.length_eq.trans (List.length_map _)
  cases sorted with
  | nil => exact absurd size.symm (mt List.length_eq_zero_iff.1 hy)
  | cons s rest =>
    have least : ∀ z ∈ y.bus.map (·.rom), codeKey s ≤ codeKey z := fun z hz =>
      codeKey_head_le pairwise z (perm.mem_iff.2 hz)
    have after (z : List Byte) : z ∈ rest ↔ z ∈ y.bus.map (·.rom) ∧ CodeBefore s z := by
      rw [mem_tail_iff_codeBefore pairwise, perm.mem_iff]
    obtain ⟨codes, ended⟩ := enumerate_of_firstResuming len rfl
      (FirstResuming.first (perm.mem_iff.1 List.mem_cons_self) least prev) pairwise.of_cons after
    rw [← size]
    exact ⟨s :: rest, codes, ended, perm, pairwise, fun fuel cmd => searchRom_zero refEnv cmd fuel⟩

end Sys2Proof.Machine
end

section
/-! PROOFS. Reserved opcodes, the drop, and that nothing stops the machine (R76, R180, R182, R183, R188). -/

namespace Sys2Proof

theorem Encodes.isReserved_iff {w : CmdWord} {i : Instr} (h : Encodes w i) :
    i.isReserved = true ↔ 7 ≤ (opField w).toNat := by
  cases h with
  | reservedHigh hop => exact iff_of_true rfl (Nat.le_of_succ_le hop)
  | _ hop => simp [Instr.isReserved, hop]

end Sys2Proof

namespace Sys2Proof.Machine

/-! ## Every command answers (R180) -/

theorem exec_answers (i : Instr) (s : State) : ∃ t, exec i s = .next t := by
  cases hb : s.busy with
  | false => exact ⟨_, exec_of_idle i hb⟩
  | true => exact ⟨_, exec_of_busy i hb⟩

/-- Settles O15: a step is one edge, and a command is accepted by an idle block and dropped by a busy one. -/
theorem everyStepAnswersNext : Obligations.EveryStepAnswersNext :=
  ⟨fun s => ⟨edge s, step_eq s⟩, exec_answers⟩

/-- Settles O11: on a busy block every command is the drop. -/
theorem busyBlockDropsEveryWord : Obligations.BusyBlockDropsEveryWord := fun i _ hb => exec_of_busy i hb

/-! ## Reserved opcodes (R76, R182) -/

/-- Acceptance sets ILL exactly for a reserved opcode. -/
theorem exec_ill_of_idle (i : Instr) {s : State} (hb : s.busy = false) : ∃ t, exec i s = .next t ∧ t.ill = i.isReserved := by
  obtain ⟨-, -, -, -, hill, -⟩ := ownEffect_frame i (s.acceptFlags i.isReserved)
  exact ⟨_, exec_of_idle i hb, hill⟩

/-- Settles O9: a reserved opcode has no effect of its own, and every acceptance writes ILL. -/
theorem reservedOpcodesOnlySetIll : Obligations.ReservedOpcodesOnlySetIll :=
  ⟨fun _ hb => ⟨exec_of_idle .reserved7 hb, fun op => exec_of_idle (.reservedHigh op) hb⟩,
    fun w => (encodes_decodeWord w).isReserved_iff.symm, fun i _ hi hb => hi ▸ exec_ill_of_idle i hb⟩

/-! ## The drop (R183, R188) -/

theorem SameOutside.symm {t s : State} (h : SameOutside t s) : SameOutside s t :=
  ⟨h.cfg.symm, h.cmdl.symm, h.ill.symm, h.cerr.symm, h.sync.symm, h.pins.symm, h.edges.symm⟩

theorem SameOutside.trans {a b c : State} (h : SameOutside a b) (k : SameOutside b c) : SameOutside a c :=
  ⟨h.cfg.trans k.cfg, h.cmdl.trans k.cmdl, h.ill.trans k.ill, h.cerr.trans k.cerr, h.sync.trans k.sync,
    h.pins.trans k.pins, h.edges.trans k.edges⟩

theorem SameOutside.dropCommand {t s : State} (h : SameOutside t s) : SameOutside t.dropCommand s.dropCommand :=
  ⟨h.cfg, h.cmdl, h.ill, rfl, h.sync, h.pins, h.edges⟩

theorem dropCommand_samePart (s : State) : SamePart s.dropCommand s := ⟨rfl, rfl, rfl, rfl, rfl, rfl, rfl, rfl⟩

/-- CERR is no part of the running command. -/
theorem tick_dropCommand (smp : Bool) (s : State) : s.dropCommand.tick smp = (s.tick smp).dropCommand :=
  eq_of_samePart_of_sameOutside
    ((tick_samePart smp (dropCommand_samePart s)).trans (dropCommand_samePart (s.tick smp)).symm)
    ((tick_sameOutside smp s.dropCommand).trans (tick_sameOutside smp s).dropCommand.symm)

/-- The sequencer does not write CERR, so an edge without reset leaves of it what the host access leaves. -/
theorem edge_cerr_of_no_reset {s : State} (h : s.nextPins.rst = false) :
    (edge s).cerr = (accessed s.nextPins s.clockIn).cerr := by
  rw [edge_of_no_reset h]
  split
  · exact (tick_sameOutside ..).cerr
  · rfl

/-- A host access clears CERR only by a CMDH write that an idle block accepts. -/
theorem accessed_cerr_cleared {p : Pins} {s : State} (hset : s.cerr = true) (hclear : (accessed p s).cerr = false) :
    s.busy = false ∧ p.hWe = true ∧ p.hAddr = 1 := by
  unfold accessed at hclear
  split_ifs at hclear with hw h0 h1 hb
  case neg => exact ⟨Bool.eq_false_of_not_eq_true hb, hw, h1⟩
  all_goals simp [hset] at hclear

/-- Settles O14: the drop commutes with the edge of the sequencer, and of the accesses only an acceptance clears CERR. -/
theorem droppedWordLeavesTheCommandRunning : Obligations.DroppedWordLeavesTheCommandRunning := by
  refine ⟨fun s hr hw ha hb => ?_, fun s t h hset hclear => ?_⟩
  · obtain ⟨-, dropped, -⟩ := stepRunsThePresentedCommand s hr hw ha
    exact (dropped hb).trans (congrArg Host.Outcome.next (tick_dropCommand s.sampleNow s.clockIn))
  · obtain rfl := step_next_iff.1 h
    cases hr : s.nextPins.rst with
    | true => exact .inl rfl
    | false =>
      rw [edge_cerr_of_no_reset hr] at hclear
      exact .inr (accessed_cerr_cleared (s := s.clockIn) hset hclear)

end Sys2Proof.Machine
end

section
/-! PROOFS. BF is the result of a TRIPLET that nobody answered (R26, R114, R184). -/

namespace Sys2Proof.Machine

/-- Among the results only those of a TRIPLET that ends with its second slot hold BF. -/
theorem writeResults_bf_of_ne {r : Run} {s : State} (hne : (s.writeResults r).bf ≠ s.bf) :
    ∃ d, r.cur = .triplet d ∧ r.k = 1 ∧ (s.writeResults r).data = tripletData d true true := by
  unfold State.writeResults at hne ⊢
  cases hc : r.cur with
  | busReset | writeBits _ _ | readBits _ => simp [hc] at hne
  | triplet d =>
    by_cases hk : r.k = 1
    · exact ⟨d, rfl, hk, by simp [hk]⟩
    · simp [hc, hk] at hne

/-- A TRIPLET ends with its second slot only when both bits are 1. -/
theorem both_of_not_goesOn {c : Config} {r : Run} {d : Bool} (hc : r.cur = .triplet d) (hk : r.k = 1)
    (h : r.goesOn c = false) : r.a1 = true ∧ r.a2 = true := by
  simpa [Run.goesOn, hc, hk, tripletFault] using h

/-- In the second slot of a TRIPLET a sample is the second bit. -/
theorem Sampled.bits_of_second_slot {smp : Bool} {r r' : Run} {s : State} {crc : Byte} {d : Bool} (h : Sampled smp r s r' crc)
    (hc : r.cur = .triplet d) (hk : r.k = 1) : r'.a1 = r.a1 ∧ r'.a2 = if readInstant s.cfg r then smp else r.a2 := by
  have instant : sampleOffset s.cfg r = some (r.slotTime s.cfg) ↔ readInstant s.cfg r = true := by
    simp [sampleOffset, hc, hk, readInstant, eq_comm (a := s.cfg.tRl + s.cfg.tRs)]
  cases h with
  | skipped miss => exact ⟨rfl, (if_neg (mt instant.2 miss)).symm⟩
  | taken hit => simp [absorbRun, hc, hk, instant.1 hit]

/-- A boundary writes BF only at the end of a TRIPLET whose two bits are 1. -/
theorem boundary_bf_of_ne {smp : Bool} {r : Run} {s : State} (hne : (boundary smp r s).bf ≠ s.bf) :
    (boundary smp r s).seq = .idle ∧ ∃ d, r.cur = .triplet d ∧ r.k = 1 ∧ r.a1 = true ∧
      (if readInstant s.cfg r then smp else r.a2) = true ∧ (boundary smp r s).data = tripletData d true true := by
  obtain ⟨r', crc, hs, ⟨-, e⟩ | ⟨-, -, e⟩ | ⟨-, ends, e⟩⟩ := boundary_cases smp r s
  · exact absurd (by rw [e]; rfl) hne
  · exact absurd (by rw [e]; rfl) hne
  · rw [e] at hne ⊢
    obtain ⟨d, hcur', hk', hdata⟩ := writeResults_bf_of_ne hne
    obtain ⟨hcur, -, -, hk⟩ := hs.frame
    obtain ⟨first, second⟩ := hs.bits_of_second_slot (hcur ▸ hcur') (hk ▸ hk')
    obtain ⟨one, one'⟩ := both_of_not_goesOn hcur' hk' ends
    exact ⟨rfl, d, hcur ▸ hcur', hk ▸ hk', first ▸ one, second ▸ one', hdata⟩

/-- A host access never sets BF. -/
theorem accessed_bf_of_clear (p : Pins) {s : State} (h : s.bf = false) : (accessed p s).bf = false := by
  unfold accessed
  split_ifs
  case neg =>
    obtain ⟨-, -, -, hbf, -⟩ := ownEffect_frame (s.presentedInstr p.hWdata) (s.acceptFlags _)
    exact hbf
  all_goals exact h

/-- Settles O25: of all an edge can be, only the completing boundary of a TRIPLET that read 0b11 sets BF. -/
theorem bfIsSetOnlyByATripletWithNoDevice : Obligations.BfIsSetOnlyByATripletWithNoDevice := by
  intro s t h hclear hset
  obtain rfl := step_next_iff.1 h
  have hne : (edge s).bf ≠ s.bf := by simp [hclear, hset]
  obtain ⟨-, e⟩ | ⟨-, e⟩ | ⟨r, -, -, e⟩ | ⟨r, hs, hc, e⟩ := edge_cases s
  · rw [e] at hset
    cases hset
  · exact absurd (e ▸ (accessed_bf_of_clear s.nextPins (s := s.clockIn) hclear).trans hclear.symm) hne
  · exact absurd e.bf hne
  · obtain ⟨idle, d, hcur, hk, first, second, hdata⟩ := boundary_bf_of_ne (e.bf ▸ hne)
    exact ⟨e.seq.trans idle, r, d, hs, hcur, hk, hc, first, second, e.data.trans hdata⟩

end Sys2Proof.Machine
end

section
/-! PROOFS. No command waits without bound (R187, R208, R210). -/

namespace Sys2Proof.Machine

/-- A timed command that is still running is within the length of all its slots. -/
theorem lt_length_of_running {x : Timed} {s : State} {smp : Nat → Bool} {m : Nat} (hc : s.cfg.wf) (hx : x.wf)
    (hb : (microseconds smp m (s.start x)).busy = true) : m < x.slots s.cfg * x.slotLength s.cfg := by
  obtain ⟨ok, hcfg, -, r, hr, rfl, rfl⟩ := runningAt_microseconds hc hx m hb
  simp only [State.seqOk, hr, hcfg] at ok
  obtain ⟨-, -, inSlot, sound⟩ := (Run.ok_iff _ _).1 ok.1
  exact Nat.lt_of_lt_of_le inSlot (Nat.mul_le_mul_right _ sound.index.lt_slots)

/-- The longest duration of the parameters (R210): all attempts of a BUS_RESET, or eight slots. -/
def longestDuration (c : Config) : Nat := max ((c.resetRetries + 1) * c.attempt) (8 * c.tSlot)

theorem length_le_longestDuration (c : Config) {x : Timed} (hx : x.wf) :
    x.slots c * x.slotLength c ≤ longestDuration c := by
  have slots {n : Nat} (hn : n ≤ 8) : n * c.tSlot ≤ longestDuration c :=
    Nat.le_trans (Nat.mul_le_mul_right _ hn) (Nat.le_max_right ..)
  cases x with
  | busReset => exact Nat.le_max_left ..
  | writeBits v n => exact slots hx.2
  | readBits n => exact slots hx.2
  | triplet d => exact slots (Nat.le_add_right 3 5)

theorem idle_at_longestDuration {x : Timed} {s : State} (smp : Nat → Bool) (hc : s.cfg.wf) (hx : x.wf) :
    (microseconds smp (longestDuration s.cfg) (s.start x)).busy = false :=
  Bool.eq_false_of_not_eq_true fun running =>
    Nat.not_lt.2 (length_le_longestDuration s.cfg hx) (lt_length_of_running hc hx running)

/-- On the clock a timed command completes at its first microsecond that is not busy. -/
theorem exists_completion {x : Timed} {s : State} (hc : s.cfg.wf) (hx : x.wf)
    (hr : noResetFor (longestDuration s.cfg * s.cfg.clkPerUs) (s.start x)) :
    ∃ d, d ≤ longestDuration s.cfg ∧ (runEdges (d * s.cfg.clkPerUs) (s.start x)).seq = .idle := by
  have ends : ∃ d, (microseconds (s.start x).sampleAtUs d (s.start x)).busy = false :=
    ⟨_, idle_at_longestDuration _ hc hx⟩
  have within : Nat.find ends ≤ longestDuration s.cfg := Nat.find_min' ends (idle_at_longestDuration _ hc hx)
  obtain ⟨same, -⟩ := runEdges_eq_microseconds (t := s.start x) rfl rfl (wf_clk hc) (Nat.find ends)
    (fun j hj => hr j (Nat.lt_of_lt_of_le hj (Nat.mul_le_mul_right _ within)))
    (fun j hj => Bool.eq_true_of_not_eq_false (Nat.find_min ends hj))
  exact ⟨Nat.find ends, within, same.seq.trans ((busy_eq_false_iff _).1 (Nat.find_spec ends))⟩

/-- A timed command starts the sequencer as its own effect. -/
theorem exists_ownEffect_start {i : Instr} (hi : i.wf) (h : i.isTimed = true) :
    ∃ x : Timed, x.wf ∧ ∀ s, ownEffect i s = s.start x := by
  cases i with
  | busReset => exact ⟨.busReset, trivial, fun _ => rfl⟩
  | writeBits v n => exact ⟨.writeBits v n, hi, fun _ => rfl⟩
  | readBits n => exact ⟨.readBits n, hi, fun _ => rfl⟩
  | triplet d => exact ⟨.triplet d, trivial, fun _ => rfl⟩
  | _ => cases h

/-- Settles O39: time runs out of the slots of a timed command; the first idle microsecond is its completion. -/
theorem everyCommandEndsWithinItsBound : Obligations.EveryCommandEndsWithinItsBound := by
  rintro i s bound hi hb hc rfl
  refine ⟨_, exec_of_idle i hb, fun hr => ?_⟩
  cases timed : i.isTimed with
  | false =>
    obtain ⟨seq, -⟩ := ownEffect_untimed timed (s.acceptFlags i.isReserved)
    exact ⟨0, _, Nat.zero_le _, run_eq_runEdges _ _, by rw [Nat.zero_mul]; exact seq.trans ((busy_eq_false_iff s).1 hb)⟩
  | true =>
    obtain ⟨x, hx, starts⟩ := exists_ownEffect_start hi timed
    rw [starts] at hr ⊢
    obtain ⟨d, within, idle⟩ := exists_completion (s := s.acceptFlags i.isReserved) hc hx hr
    exact ⟨d, _, within, run_eq_runEdges _ _, idle⟩

end Sys2Proof.Machine
end

section
/-! PROOFS. Reset, a host that keeps its duties, and how long a command takes (R106, R200, R206, R210). -/

namespace Sys2Proof.Machine

/-! ## Reset (R200) -/

theorem edge_of_reset {s : State} (h : s.nextPins.rst = true) : edge s = s.clockIn.applyReset := by
  simp [edge, h]

/-- Settles O16: the edge is the reset whatever the host writes, and its idle state with CMDL clear accepts the next command. -/
theorem resetEdgeTakesTheResetValues : Obligations.ResetEdgeTakesTheResetValues := by
  intro s hrst
  have status : s.clockIn.applyReset.status = 0x00 := status_of_idle_clean rfl rfl rfl rfl
  refine ⟨s.clockIn.applyReset, step_next_iff.2 (edge_of_reset hrst).symm, rfl, status, rfl, rfl, rfl, rfl, rfl, ?_⟩
  intro hr hw ha
  obtain ⟨accepts, -, -⟩ := stepRunsThePresentedCommand s.clockIn.applyReset hr hw ha
  exact accepts rfl

/-! ## A disciplined host (R206) -/

theorem edge_ill_of_no_reset {s : State} (h : s.nextPins.rst = false) :
    (edge s).ill = (accessed s.nextPins s.clockIn).ill := by
  rw [edge_of_no_reset h]
  split
  · exact (tick_sameOutside ..).ill
  · rfl

/-- Acceptance of a defined opcode clears both flags, and no command's own effect sets them again. -/
theorem clean_of_accepted {i : Instr} (hi : i.isReserved = false) (s : State) :
    Clean (ownEffect i (s.acceptFlags i.isReserved)) := by
  obtain ⟨-, -, -, -, ill, cerr, -⟩ := ownEffect_frame i (s.acceptFlags i.isReserved)
  exact ⟨ill.trans hi, cerr⟩

/-- A host access sets an error flag only through a write to CMDH: of a reserved opcode, or on a busy block. -/
theorem accessed_clean {p : Pins} {s : State} (clean : Clean s)
    (duty : p.hWe = true → p.hAddr = 1 → s.busy = false ∧ (s.presentedInstr p.hWdata).isReserved = false) :
    Clean (accessed p s) := by
  unfold accessed
  split_ifs with hw h0 h1 hb
  · exact clean
  · obtain ⟨idle, -⟩ := duty hw h1
    exact absurd hb (Bool.eq_false_iff.1 idle)
  · obtain ⟨-, defined⟩ := duty hw h1
    exact clean_of_accepted defined s
  · exact clean
  · exact clean

/-- Settles O29: a reset clears both flags, the sequencer touches neither, and the host access keeps them clear. -/
theorem disciplinedHostSeesNoErrorFlags : Obligations.DisciplinedHostSeesNoErrorFlags := by
  intro s t clean duty hstep
  obtain rfl := step_next_iff.1 hstep
  cases hr : s.nextPins.rst with
  | true =>
    rw [edge_of_reset hr]
    exact ⟨rfl, rfl⟩
  | false =>
    obtain ⟨ill, cerr⟩ : Clean (accessed s.nextPins s.clockIn) := accessed_clean (s := s.clockIn) clean duty
    exact ⟨(edge_ill_of_no_reset hr).trans ill, (edge_cerr_of_no_reset hr).trans cerr⟩

/-! ## Durations (R106, R210) -/

/-- A BUS_RESET stops within the attempts it may still make. -/
theorem resetLoop_k_le {σ : Type} (env : BusEnv σ) (c : Config) (fuel k : Nat) (w : σ) :
    (resetLoop env c fuel k w).k ≤ k + fuel := by
  induction fuel generalizing k w with
  | zero => exact Nat.le_refl k
  | succ fuel ih =>
    simp only [resetLoop]
    split
    · exact (ih (k + 1) _).trans_eq (Nat.succ_add_eq_add_succ k fuel)
    · exact Nat.le_add_right k _

/-- A TRIPLET is two slots long when it leaves BF set, else three. -/
theorem wholeTriplet_us {σ : Type} (env : BusEnv σ) (dir : Bool) (y : Wired σ) :
    (wholeTriplet env dir y).us =
      y.us + duration y.blk.cfg (.triplet dir) 0 (wholeTriplet env dir y).blk.bf := by
  cases hf : tripletFault (env.readSlot y.bus).1 (env.readSlot (env.readSlot y.bus).2).1 with
  | true => rw [wholeTriplet_of_fault dir hf]; rfl
  | false => rw [wholeTriplet_of_answer dir rfl rfl hf]; rfl

theorem exists_duration {σ : Type} (env : BusEnv σ) (i : Instr) (y : Wired σ) :
    ∃ k, k ≤ y.blk.cfg.resetRetries ∧
      (wholeCommand env i y).us = y.us + duration y.blk.cfg i k (wholeCommand env i y).blk.bf := by
  cases i with
  | busReset =>
    refine ⟨(resetLoop env y.blk.cfg y.blk.cfg.resetRetries 0 y.bus).k, ?_, ?_⟩
    · simpa using resetLoop_k_le env y.blk.cfg y.blk.cfg.resetRetries 0 y.bus
    · exact congrArg (y.us + ·) (Nat.mul_comm ..)
  | writeBits _ n | readBits n => exact ⟨0, Nat.zero_le _, congrArg (y.us + ·) (Nat.mul_comm ..)⟩
  | triplet dir => exact ⟨0, Nat.zero_le _, wholeTriplet_us env dir y⟩
  | nop | crcLoad _ | crcUpdate _ | reserved7 | reservedHigh _ => exact ⟨0, Nat.zero_le _, rfl⟩

/-- Settles O41: the slots and attempts of each command, and the lengths of the defaults. -/
theorem commandDurationsFollowTheTable : Obligations.CommandDurationsFollowTheTable :=
  ⟨fun _ => exists_duration, fun _ _ _ _ _ _ => ⟨rfl, rfl, rfl, rfl, rfl, rfl⟩⟩

end Sys2Proof.Machine
end

section
/-! PROOFS. The protocol windows: where they hold the timed wire is the reference environment, and outside them it need not be
(R130, R131, R211). -/

namespace Sys2Proof.Machine

/-! ## Pulses and events (R130, R131) -/

/-- What an event does to a device (R131). -/
def Device.onEvent : BusEvent → Device → Device
  | .rst => Device.onReset
  | .s0 => Device.onSlot false
  | .s1 => Device.onSlot true

theorem afterPulse_of_event (odd : OutOfWindow) {low : Nat} {e : BusEvent} (h : pulseEvent low = some e) (ds : List Device) :
    afterPulse odd low ds = ds.map (Device.onEvent e) := by
  cases e with
  | rst => exact afterPulse_rst odd h ds
  | s0 => exact afterPulse_s0 odd h ds
  | s1 => exact afterPulse_s1 odd h ds

/-- The event that `WRITE_SLOT(b)` is in the reference environment (R107, R131). -/
def slotEvent (b : Bool) : BusEvent := if b then .s1 else .s0

theorem onEvent_slotEvent (b : Bool) : Device.onEvent (slotEvent b) = Device.onSlot b := by
  cases b <;> rfl

/-- The windows of R211 hold exactly when each primitive is a pulse of its own event and each sample falls in its window. -/
theorem meetsWindows_iff_events (c : Config) :
    c.meetsWindows ↔ (pulseEvent c.tRstl = some .rst ∧ c.presenceWindow) ∧ (pulseEvent c.tRl = some .s1 ∧ c.slotWindow) ∧
      ∀ b, pulseEvent (writeLow c b) = some (slotEvent b) := by
  rw [Bool.forall_bool]
  show _ ↔ _ ∧ _ ∧ pulseEvent c.tW0l = some .s0 ∧ pulseEvent c.tW1l = some .s1
  rw [pulseEvent_eq_rst_iff, pulseEvent_eq_s1_iff, pulseEvent_eq_s0_iff, pulseEvent_eq_s1_iff]
  tauto

/-! ## In the windows the wire is the reference -/

theorem afterSlotPulse_of_event (odd : OutOfWindow) {c : Config} (hc : c.slotWindow) {low : Nat} {e : BusEvent}
    (h : pulseEvent low = some e) (ds : List Device) : afterSlotPulse odd c low ds = ds.map (Device.onEvent e) := by
  rw [afterSlotPulse, if_pos hc, afterPulse_of_event odd h]

theorem pulseEnv_of_meetsWindows (odd : OutOfWindow) {c : Config} (h : c.meetsWindows) : pulseEnv odd c = refEnv := by
  obtain ⟨reset, read, write⟩ := (meetsWindows_iff_events c).1 h
  simp only [pulseEnv, if_pos reset, if_pos read, afterPulse_of_event odd reset.1, afterSlotPulse_of_event odd read.2 read.1,
    afterSlotPulse_of_event odd read.2 (write _), onEvent_slotEvent]
  rfl

/-! ## Outside a window it need not be -/

/-- Outside the windows the devices leave the line, and it reads low. -/
def deserted : OutOfWindow := ⟨fun _ _ => [], fun _ _ => false⟩

/-- A device that has just been reset: the three events leave it in three modes. -/
def freshDevice : Device := ⟨[], false, .cmd 0 0⟩

/-- A sample that reads high was taken in its window, since a deserted line reads low. -/
theorem window_of_reads_high {P : Prop} [Decidable P] {ds : List Device} {low : Nat} {level : Bool}
    (h : (if P then level else deserted.level low ds) = true) : P := by
  by_contra outside
  rw [if_neg outside] at h
  cases h

theorem event_of_freshDevice (e : BusEvent) (b : Bool) (h : freshDevice.onEvent e = freshDevice.onSlot b) : e = slotEvent b := by
  revert h
  cases e <;> cases b <;> decide

/-- Only the event of the slot leaves the fresh device, and leaves it as the slot does. -/
theorem pulseEvent_of_afterPulse {low : Nat} {b : Bool}
    (h : afterPulse deserted low [freshDevice] = [freshDevice.onSlot b]) : pulseEvent low = some (slotEvent b) := by
  cases hp : pulseEvent low with
  | none => rw [afterPulse, hp] at h; cases h
  | some e =>
    rw [afterPulse_of_event deserted hp] at h
    exact congrArg some (event_of_freshDevice e b (List.head_eq_of_cons_eq h))

theorem meetsWindows_of_pulseEnv {c : Config} (h : pulseEnv deserted c = refEnv) : c.meetsWindows := by
  have reset : ((pulseEnv deserted c).rst []).1 = true := by rw [h]; rfl
  have read : ((pulseEnv deserted c).readSlot []).1 = true := by rw [h]; rfl
  have readWindow := window_of_reads_high read
  refine (meetsWindows_iff_events c).2 ⟨window_of_reads_high reset, readWindow, fun b => ?_⟩
  have write : afterSlotPulse deserted c (writeLow c b) [freshDevice] = [freshDevice.onSlot b] :=
    congrArg (fun env => env.writeSlot b [freshDevice]) h
  rw [afterSlotPulse, if_pos readWindow.2] at write
  exact pulseEvent_of_afterPulse write

theorem defaults_meetsWindows (clk base : Nat) : (Config.defaults clk base).meetsWindows := by
  simp [Config.meetsWindows, Config.presenceWindow, Config.slotWindow, Config.defaults]

/-- Settles O58: in the windows every primitive is the event of the reference; outside, a line that its devices desert tells. -/
theorem windowsMakeTheWireTheReference : Obligations.WindowsMakeTheWireTheReference := by
  refine ⟨fun c => ⟨fun h => meetsWindows_of_pulseEnv (h deserted), fun h odd => pulseEnv_of_meetsWindows odd h⟩, ?_, ?_⟩
  · intro odd y h
    rw [pulseEnv_of_meetsWindows odd h]
    exact ⟨fun _ => rfl, rfl, fun _ _ _ _ _ => rfl⟩
  · intro clk base
    refine ⟨defaults_meetsWindows clk base, ?_⟩
    rintro ⟨-, -, -, short, -⟩
    exact absurd short (by decide : ¬ (60 = 6))

end Sys2Proof.Machine
end
